-- ==== Sys2Proof/Word.lean ====
section
/-! DEFINITION. Word.lean: the bytes and words of the block (00_scope.md R8, R10), and the values of host variables.
Every value of the block is unsigned, so a word is read as a number with `toNat` and nothing is ever sign-extended. -/

namespace Sys2Proof

/-- A byte, an integer 0..255 (00_scope.md R7, R15). -/
abbrev Byte := BitVec 8

/-- The contents of a register, and a command word (00_scope.md R8: every register is 32 bits wide). -/
abbrev Word := BitVec 32

/-- The value of a host-local variable, "an integer or a list" (30_encoding.md R89); integers are unbounded (00_scope.md
R10). -/
inductive Value where
  | int (n : Int)
  | list (xs : List Int)
deriving DecidableEq, Repr, Inhabited

end Sys2Proof
end

