-- ==== Sys2Proof/Syntax.lean ====
section
/-! DEFINITION. Syntax.lean: the commands of the block, one constructor per row of spec/opcode_table.json
(30_encoding.md R81). A constructor carries exactly the fields R85 marks "used" for its opcode, as they stand in the
word; what NBITS means is each meaning's business (R83), so a command word with NBITS out of range is still a command
of its row, one that raises BAD_OPTION (log 12). Operands in registers are not in the word (R85). -/

namespace Sys2Proof

/-- A command (30_encoding.md R80, R81, R85). `nbits` is field NBITS, `mark` field MARK, `fixedWidth` field FIXED,
`inPlace` field INPLACE. -/
inductive Instr where
  | nop
  | bswOpen (nbits : BitVec 5)
  | bswSetw (nbits : BitVec 5)
  | bswPush
  | bswFinish
  | bsrOpen (nbits : BitVec 5)
  | bsrSetw (nbits : BitVec 5)
  | bsrShift
  | lzwEnc (nbits : BitVec 5) (fixedWidth : Bool)
  | lzwDec (nbits : BitVec 5) (fixedWidth : Bool)
  | rleEnc
  | rleDec
  | bwtFwd (mark : Byte)
  | bwtInv (mark : Byte)
  | mtfEnc (inPlace : Bool)
  | mtfDec (inPlace : Bool)
deriving DecidableEq, Repr

end Sys2Proof
end

