-- ==== Sys2Proof/WellFormed.lean ====
section
/-! DEFINITION. WellFormed.lean: the commands an assembler emits (30_encoding.md R88): those whose NBITS is legal for
their opcode (R83). A decoded command that is not well formed raises BAD_OPTION (R83, R87). -/

namespace Sys2Proof

/-- Legal NBITS of BSW_OPEN and BSR_OPEN: 0 (the default 8) or 1..16 (30_encoding.md R83). -/
def openNbitsOk (n : BitVec 5) : Bool := n.toNat ≤ 16

/-- Legal NBITS of BSW_SETW and BSR_SETW: 1..16 (30_encoding.md R83). -/
def setwNbitsOk (n : BitVec 5) : Bool := 1 ≤ n.toNat && n.toNat ≤ 16

/-- Legal NBITS of LZW_ENC and LZW_DEC: 0 (the default 16) or 9..16 (30_encoding.md R83). -/
def lzwNbitsOk (n : BitVec 5) : Bool := n.toNat == 0 || (9 ≤ n.toNat && n.toNat ≤ 16)

/-- The options of the command are in their legal range (30_encoding.md R83). -/
def Instr.wellFormed : Instr → Bool
  | .nop => true
  | .bswOpen n => openNbitsOk n
  | .bswSetw n => setwNbitsOk n
  | .bswPush => true
  | .bswFinish => true
  | .bsrOpen n => openNbitsOk n
  | .bsrSetw n => setwNbitsOk n
  | .bsrShift => true
  | .lzwEnc n _ => lzwNbitsOk n
  | .lzwDec n _ => lzwNbitsOk n
  | .rleEnc => true
  | .rleDec => true
  | .bwtFwd _ => true
  | .bwtInv _ => true
  | .mtfEnc _ => true
  | .mtfDec _ => true

end Sys2Proof
end

