-- ==== Sys2Proof/Decode.lean ====
section
/-! DEFINITION. Decode.lean: command words to commands and back (30_encoding.md R80 to R88). The decoder is total on
all 2^32 words and rejects an illegal word by name; the encoder writes the word of a command from the same table. -/

namespace Sys2Proof

/-! ### The fields of a command word (R80) -/

/-- OP, bits 7:0. -/
def opField (w : Word) : Byte := w.extractLsb' 0 8
/-- MARK, bits 15:8. -/
def markField (w : Word) : Byte := w.extractLsb' 8 8
/-- NBITS, bits 20:16. -/
def nbitsField (w : Word) : BitVec 5 := w.extractLsb' 16 5
/-- RSV0, bits 23:21. -/
def rsv0Field (w : Word) : BitVec 3 := w.extractLsb' 21 3
/-- FIXED, bit 24. -/
def fixedField (w : Word) : Bool := w.getLsbD 24
/-- INPLACE, bit 25. -/
def inPlaceField (w : Word) : Bool := w.getLsbD 25
/-- RSV1, bits 31:26. -/
def rsv1Field (w : Word) : BitVec 6 := w.extractLsb' 26 6

/-! ### Decoding -/

/-- Why a word is illegal (R86): the three grounds, in the order of R87. -/
inductive Reject where
  /-- OP is not in the table of R81. -/
  | unassignedOpcode
  /-- RSV0 or RSV1 is nonzero. -/
  | reservedBits
  /-- a field marked "0" for its OP in R85 is nonzero. -/
  | unusedField
deriving DecidableEq, Repr

/-- Which fields an opcode uses (R85); the others must be zero. -/
structure FieldUse where
  mark : Bool := false
  nbits : Bool := false
  fixedWidth : Bool := false
  inPlace : Bool := false
deriving DecidableEq, Repr

/-- The row of R81 and R85 for the word's OP: the fields it uses, and the command with the word's values of them. -/
def opcodeRow (w : Word) : Option (FieldUse × Instr) :=
  let n := nbitsField w
  let fx := fixedField w
  let mk := markField w
  let ip := inPlaceField w
  match opField w with
  | 0x00#8 => some ({}, .nop)
  | 0x10#8 => some ({ nbits := true }, .bswOpen n)
  | 0x11#8 => some ({ nbits := true }, .bswSetw n)
  | 0x12#8 => some ({}, .bswPush)
  | 0x13#8 => some ({}, .bswFinish)
  | 0x18#8 => some ({ nbits := true }, .bsrOpen n)
  | 0x19#8 => some ({ nbits := true }, .bsrSetw n)
  | 0x1A#8 => some ({}, .bsrShift)
  | 0x20#8 => some ({ nbits := true, fixedWidth := true }, .lzwEnc n fx)
  | 0x21#8 => some ({ nbits := true, fixedWidth := true }, .lzwDec n fx)
  | 0x30#8 => some ({}, .rleEnc)
  | 0x31#8 => some ({}, .rleDec)
  | 0x40#8 => some ({ mark := true }, .bwtFwd mk)
  | 0x41#8 => some ({ mark := true }, .bwtInv mk)
  | 0x50#8 => some ({ inPlace := true }, .mtfEnc ip)
  | 0x51#8 => some ({ inPlace := true }, .mtfDec ip)
  | _ => none

/-- Every field of the word that its opcode does not use is zero (R85). -/
def unusedZero (u : FieldUse) (w : Word) : Bool :=
  (u.mark || markField w == 0) && (u.nbits || nbitsField w == 0) && (u.fixedWidth || !fixedField w) &&
    (u.inPlace || !inPlaceField w)

/-- The decoder (R87), less its BadOption answer, which is `Instr.wellFormed` of the command it gives: an illegal
word is rejected by name. -/
def decode (w : Word) : Except Reject Instr :=
  match opcodeRow w with
  | none => .error .unassignedOpcode
  | some (u, i) =>
    if rsv0Field w ≠ 0 ∨ rsv1Field w ≠ 0 then .error .reservedBits
    else if unusedZero u w then .ok i
    else .error .unusedField

/-- The three answers of R87's decode function. -/
inductive Decoded where
  | illegal
  | badOption
  | cmd (i : Instr)
deriving DecidableEq, Repr

/-- R87's decode function: illegal is checked before a bad option. -/
def decodeCommand (w : Word) : Decoded :=
  match decode w with
  | .error _ => .illegal
  | .ok i => if i.wellFormed then .cmd i else .badOption

/-! ### Encoding -/

/-- A command word from its fields, most significant first, the reserved fields zero (R80). -/
def encodeFields (op : Byte) (mark : Byte := 0) (nbits : BitVec 5 := 0) (fixedWidth inPlace : Bool := false) : Word :=
  (0#6 ++ BitVec.ofBool inPlace ++ BitVec.ofBool fixedWidth ++ 0#3 ++ nbits ++ mark ++ op : BitVec 32)

/-- The word of a command (R81, R88). -/
def encode : Instr → Word
  | .nop => encodeFields 0x00
  | .bswOpen n => encodeFields 0x10 (nbits := n)
  | .bswSetw n => encodeFields 0x11 (nbits := n)
  | .bswPush => encodeFields 0x12
  | .bswFinish => encodeFields 0x13
  | .bsrOpen n => encodeFields 0x18 (nbits := n)
  | .bsrSetw n => encodeFields 0x19 (nbits := n)
  | .bsrShift => encodeFields 0x1A
  | .lzwEnc n fx => encodeFields 0x20 (nbits := n) (fixedWidth := fx)
  | .lzwDec n fx => encodeFields 0x21 (nbits := n) (fixedWidth := fx)
  | .rleEnc => encodeFields 0x30
  | .rleDec => encodeFields 0x31
  | .bwtFwd m => encodeFields 0x40 (mark := m)
  | .bwtInv m => encodeFields 0x41 (mark := m)
  | .mtfEnc ip => encodeFields 0x50 (inPlace := ip)
  | .mtfDec ip => encodeFields 0x51 (inPlace := ip)

/-- The assembler (R88): the word of a command whose options are in range; for any other it emits no word
(93_implementation_defined.md U12). -/
def assemble (i : Instr) : Option Word := if i.wellFormed then some (encode i) else none

/-- The option text of an NBITS field: nothing for the default 0. -/
def nbitsOption (name : String) (n : BitVec 5) : String := if n = 0 then "" else " " ++ name ++ "=" ++ toString n.toNat

/-- The option text of a one-bit field. -/
def flagOption (name : String) (b : Bool) : String := if b then " " ++ name else ""

/-- The assembler text of a command (R88); an option at its default is left out. -/
def Instr.asmText : Instr → String
  | .nop => "nop"
  | .bswOpen n => "bsw.open" ++ nbitsOption "w" n
  | .bswSetw n => "bsw.setw " ++ toString n.toNat
  | .bswPush => "bsw.push"
  | .bswFinish => "bsw.finish"
  | .bsrOpen n => "bsr.open" ++ nbitsOption "w" n
  | .bsrSetw n => "bsr.setw " ++ toString n.toNat
  | .bsrShift => "bsr.shift"
  | .lzwEnc n fx => "lzw.enc" ++ nbitsOption "maxbits" n ++ flagOption "fixed" fx
  | .lzwDec n fx => "lzw.dec" ++ nbitsOption "maxbits" n ++ flagOption "fixed" fx
  | .rleEnc => "rle.enc"
  | .rleDec => "rle.dec"
  | .bwtFwd m => "bwt.fwd" ++ (if m = 0 then "" else " mark=" ++ toString m.toNat)
  | .bwtInv m => "bwt.inv" ++ (if m = 0 then "" else " mark=" ++ toString m.toNat)
  | .mtfEnc ip => "mtf.enc" ++ flagOption "inplace" ip
  | .mtfDec ip => "mtf.dec" ++ flagOption "inplace" ip

/-! ### The host's reading of the opcode table -/

/-- The command word that stands for the low `nbits` bits of `w`, every bit above them zero. -/
def tableWord (nbits w : Nat) : Word := BitVec.ofNat 32 (w % 2 ^ nbits)

/-- The command the decoder reads from an opcode-table word; `none` where it rejects the word. A command is one
32-bit register write, so the table's bit numbers are the word's. -/
def decodeTableWord (nbits w : Nat) : Option Instr := (decode (tableWord nbits w)).toOption

end Sys2Proof
end

