-- ==== Sys2Proof/Config.lean ====
section
/-! DEFINITION. Config.lean: the constants the spec fixes for every block, the reset values of its open
parameters, and the free values the spec leaves open. -/

namespace Sys2Proof.Config

/-- What register ID reads (10_state.md R22). -/
def idValue : Word := 0x43540701

/-- Where the DMEM window begins in the aperture; registers lie below it (10_state.md R22, R40). -/
def windowOffset : Nat := 0x10000

/-- The default of the model argument DMEM_SIZE (00_scope.md R8). -/
def defaultDmemSize : Nat := 65536

/-- The largest legal DMEM_SIZE (00_scope.md R8). -/
def maxDmemSize : Nat := 2 ^ 28

/-- BLOCK_BASE is a multiple of this (00_scope.md R8). -/
def blockAlign : Nat := 2 ^ 17

/-- BLOCK_BASE after reset. DESIGN CHOICE (log 7): the spec leaves it to the platform (20_memory.md R67). -/
def defaultBlockBase : Nat := 0

/-- LZW `maxBits` when NBITS is 0 (00_scope.md R7). -/
def defaultMaxBits : Nat := 16

/-- The stream width when NBITS is 0, and after reset (00_scope.md R8). -/
def defaultWidth : Nat := 8

/-- What BSR_SHIFT writes to DATA when the reader is exhausted (41_bitstream.md R132). -/
def exhausted : Word := 0xFFFFFFFF

/-- The free bytes of the model: `freeByte n a` is what the `n`-th event that leaves DMEM bytes unspecified leaves
at offset `a` (93_implementation_defined.md U1, U2, U3: any value, per byte). It has no body: nothing can be proved
of its values, so a statement holds whatever they are (logs 1, 3, 4). -/
opaque freeByte : Nat → Nat → Byte

/-! The free values of host statements (log 14). The first argument is the host's counter of statements, the second
the place in the statement, so that no two places share a value. -/

/-- An integer 30_encoding.md R89 does not state: a register no `rd` has read yet, a list where an integer is needed, an
integer too wide for its place, an element a list does not have, where a jump without its label continues. -/
opaque freeInt : Nat → List Nat → Int

/-- A list R89 does not state: an integer where a list is needed. -/
opaque freeInts : Nat → List Nat → List Int

/-- A value R89 does not state: a variable that nothing has assigned yet. -/
opaque freeValue : Nat → List Nat → Value

end Sys2Proof.Config
end

