-- ==== Sys2Proof/Machine/State.lean ====
section
/-! DEFINITION. Machine/State.lean: everything the spec gives the machine, as plain data, and its value after reset.
INVENTORY.md lists each field with its rule. -/

namespace Sys2Proof.Machine

/-- The error kinds a command can raise (60_exceptions.md R221); their codes are `Error.code`. Codes 5, 6, 7 and 15
are reserved and no command produces them (93_implementation_defined.md U11). -/
inductive Error where
  | malformedInput
  | markerCollision
  | markerNotFound
  | multipleMarkers
  | illegalCommand
  | badOption
  | badAddress
  | bufferOverlap
  | outputOverflow
  | streamNotOpen
  | invalidCode
deriving DecidableEq, Repr

/-- What a transform function answers (00_scope.md R12, R13): the output bytes, or an error. -/
inductive Result where
  | ok (y : List Byte)
  | err (e : Error)
deriving DecidableEq, Repr

/-- Why the machine stops. Each is a case the spec tells a model to stop at, or one the spec says cannot arise. -/
inductive Fault where
  /-- Raised by a host access that breaks 20_memory.md R60 or R62 (R63, 93_implementation_defined.md U6: "fault (of the
  host program; the block's own state is unchanged)"). Safe. -/
  | busError
  /-- Raised by a host DMEM access while STATUS.BUSY = 1 (70_reset_and_hazards.md R260 (a), U5: "fault"). Safe. -/
  | dmemWhileBusy
  /-- Raised by a host access while the reset input is asserted (R250, U7: "fault"). Safe. -/
  | accessDuringReset
  /-- Raised by a host access on a platform that does not deliver accesses in order (20_memory.md R69,
  93_implementation_defined.md P3: "fault"). Safe. -/
  | hostNotOrdered
  /-- Raised by BSW_PUSH, BSW_FINISH and BSR_SHIFT where they would access a DMEM byte that does not exist. The spec
  says the engine never does (20_memory.md R64), and no state that meets `State.Inv` does (log 10). Safe. -/
  | engineOutsideDmem
deriving DecidableEq, Repr

/-- Where the model gives no meaning. -/
inductive Refusal where
  /-- Raised by an arm of `exec` whose command has no meaning yet. Safe. -/
  | notModelled (mnemonic : String)
  /-- Raised by the host statement `cmd` with an option out of range: the assembler emits no word (30_encoding.md R88,
  93_implementation_defined.md U12: "refuse"; log 24). Safe. -/
  | assemblerRefuses
deriving DecidableEq, Repr

/-! ### The block -/

/-- STATUS, field by field (10_state.md R24); its reserved bits have no storage (R34). -/
structure Status where
  busy : Bool
  done : Bool
  err : Bool
  eos : Bool
  cmdLost : Bool
  errCode : BitVec 4
deriving DecidableEq, Repr

/-- The bit-stream writer (10_state.md R31, R32). -/
structure Writer where
  width : BitVec 5
  isOpen : Bool
  acc : Byte
  bits : Word
  base : Word
  cap : Word
deriving DecidableEq, Repr

/-- The bit-stream reader (10_state.md R31, R33). -/
structure Reader where
  width : BitVec 5
  isOpen : Bool
  pos : Word
  base : Word
  len : Word
deriving DecidableEq, Repr

/-- The latched copy `L` of the accepted command (10_state.md R36, 40_command_cycle.md R101). -/
structure Latch where
  word : Word
  srcAddr : Word
  srcLen : Word
  dstAddr : Word
  dstCap : Word
  data : Word
deriving DecidableEq, Repr

/-- Data memory: the bytes whose value is known, by offset, in one canonical form (`Memory.wf`). A byte not listed is
unspecified; it reads as a free value (logs 1, 2). -/
abbrev Memory := List Host.Cell

/-- The parameters of the platform, constant while the machine runs (00_scope.md R8, 92_eei_decisions.md; log 7). -/
structure Params where
  dmemSize : Nat
  blockBase : Nat
  deviceOrdered : Bool
deriving DecidableEq, Repr

/-! ### The host (00_scope.md R5, 30_encoding.md R89) -/

/-- The registers by name (10_state.md R22). -/
inductive Reg where
  | id | ctrl | status | cmd | srcAddr | srcLen | dstAddr | dstCap | resultLen | data | stream
  | bswBits | bswBase | bswCap | bsrPos | bsrBase | bsrLen
deriving DecidableEq, Repr

/-- The named fields of registers CTRL, STATUS, CMD and STREAM (10_state.md R23, R24, R26, R31, 30_encoding.md R80), for
`REG.FIELD` of R89. -/
inductive Field where
  | irqEn | srst
  | busy | done | err | eos | cmdLost | errCode
  | op | mark | nbits | rsv0 | fixedWidth | inPlace | rsv1
  | bswW | bswOpen | bsrW | bsrOpen | bswAcc
deriving DecidableEq, Repr

/-- The width of a host bus access (20_memory.md R61, R62). -/
inductive Width where
  | byte | half | word
deriving DecidableEq, Repr

/-- A host bus access: where, how wide, and for a write the data on the bus (00_scope.md R5, 20_memory.md R60 to R63). -/
inductive Access where
  | read (width : Width) (addr : Nat)
  | write (width : Width) (addr : Nat) (value : Word)
deriving DecidableEq, Repr

/-- Expressions of host statements, "computed from constants, other host variables and the values of the most recent
register reads" (R89); DESIGN CHOICE (log 15): R89 names no operations. Variables are numbered. -/
inductive Expr where
  | const (v : Value)
  | var (x : Nat)
  | reg (r : Reg)
  | field (f : Field)
  | add (a b : Expr)
  | sub (a b : Expr)
  | mul (a b : Expr)
  | single (a : Expr)
  | append (a b : Expr)
  | len (a : Expr)
  | index (a i : Expr)
deriving DecidableEq, Repr

/-- The statements of a host program (R89). Labels and variables are numbered. The last three are not in R89: any bus
access of R60 to R63, and the reset input of 70_reset_and_hazards.md R250 (logs 6, 16). -/
inductive Stmt where
  | wr (r : Reg) (v : Expr)
  | rd (r : Reg)
  | wmem (a : Expr) (bytes : Expr)
  | rmem (a : Expr) (n : Expr)
  | cmd (i : Instr)
  | wait
  | label (name : Nat)
  | goto (name : Nat)
  | ifReg (r : Reg) (v : Expr) (name : Nat)
  | ifField (f : Field) (v : Expr) (name : Nat)
  | assign (x : Nat) (e : Expr)
  | ifVar (x : Nat) (e : Expr) (name : Nat)
  | access (a : Access)
  | assertReset
  | releaseReset
deriving DecidableEq, Repr

/-- The host as an agent: its program and where it stands in it, the accesses of the current statement still to come,
its variables, and what its reads returned (R89, log 6). `draws` is the model's own: the statements executed so far, which
tells the free values of one from those of another (logs 14, 17). -/
structure HostAgent where
  prog : List Stmt
  pc : Nat
  todo : List Access
  vars : List (Nat × Value)
  reads : List (Reg × Word)
  bytes : List Byte
  response : Word
  draws : Nat
deriving DecidableEq, Repr

/-- The agents of the machine (00_scope.md R5). -/
inductive Agent where
  | host
  | engine
deriving DecidableEq, Repr

/-! ### The whole machine -/

/-- The machine. `order`, `draws` and `epoch` are the model's own: which agent moves next (log 5), how many times free
bytes have been drawn, and the draw that unlisted DMEM bytes belong to (logs 1, 17). -/
structure State where
  irqEn : Bool
  status : Status
  cmd : Word
  srcAddr : Word
  srcLen : Word
  dstAddr : Word
  dstCap : Word
  resultLen : Word
  data : Word
  writer : Writer
  reader : Reader
  latch : Latch
  dmem : Memory
  inReset : Bool
  params : Params
  agent : HostAgent
  order : List Agent
  draws : Nat
  epoch : Nat
deriving DecidableEq, Repr

/-! ### Reset values (10_state.md R43) -/

/-- STATUS after reset: all fields 0. -/
def Status.reset : Status :=
  { busy := false, done := false, err := false, eos := false, cmdLost := false, errCode := 0 }

/-- The writer after reset: closed, width 8, everything else 0. -/
def Writer.reset : Writer := { width := 8, isOpen := false, acc := 0, bits := 0, base := 0, cap := 0 }

/-- The reader after reset: closed, width 8, everything else 0. -/
def Reader.reset : Reader := { width := 8, isOpen := false, pos := 0, base := 0, len := 0 }

/-- `L` after reset. DESIGN CHOICE (log 8): the spec says "unspecified and unread". -/
def Latch.reset : Latch := { word := 0, srcAddr := 0, srcLen := 0, dstAddr := 0, dstCap := 0, data := 0 }

/-- The platform after reset: the spec's default DMEM_SIZE; the other two DESIGN CHOICE (log 7). -/
def Params.reset : Params :=
  { dmemSize := Config.defaultDmemSize, blockBase := Config.defaultBlockBase, deviceOrdered := true }

/-- The host with no program. DESIGN CHOICE (log 17): the spec says nothing of the host processor's reset. -/
def HostAgent.reset : HostAgent :=
  { prog := [], pc := 0, todo := [], vars := [], reads := [], bytes := [], response := 0, draws := 0 }

/-- The machine right after hardware reset, the reset input released (10_state.md R43, 70_reset_and_hazards.md R250,
R251): idle, every register at its reset value, no byte of DMEM known. -/
def State.reset : State :=
  { irqEn := false
    status := Status.reset
    cmd := 0
    srcAddr := 0
    srcLen := 0
    dstAddr := 0
    dstCap := 0
    resultLen := 0
    data := 0
    writer := Writer.reset
    reader := Reader.reset
    latch := Latch.reset
    dmem := []
    inReset := false
    params := Params.reset
    agent := HostAgent.reset
    order := []
    draws := 1
    epoch := 0 }

end Sys2Proof.Machine
end

