-- ==== Sys2Proof/Machine/Flags.lean ====
section
/-! DEFINITION. Machine/Flags.lean: STATUS, STREAM and CTRL as the words the host reads, the write-one-to-clear rule,
the interrupt output, and the error codes (10_state.md R23 to R25, R31, R35, R42; 60_exceptions.md R221, R230). -/

namespace Sys2Proof.Machine

/-- The code of an error (60_exceptions.md R221). -/
def Error.code : Error → BitVec 4
  | .malformedInput => 1
  | .markerCollision => 2
  | .markerNotFound => 3
  | .multipleMarkers => 4
  | .illegalCommand => 8
  | .badOption => 9
  | .badAddress => 10
  | .bufferOverlap => 11
  | .outputOverflow => 12
  | .streamNotOpen => 13
  | .invalidCode => 14

/-- STATUS as the host reads it (10_state.md R24). -/
def Status.word (t : Status) : Word :=
  (0#20 ++ t.errCode ++ 0#3 ++ BitVec.ofBool t.cmdLost ++ BitVec.ofBool t.eos ++ BitVec.ofBool t.err ++
    BitVec.ofBool t.done ++ BitVec.ofBool t.busy : BitVec 32)

/-- The effect of a host write of `v` to STATUS: write one to clear DONE, ERR, CMD_LOST; nothing else (10_state.md
R25). It is the host's acknowledgement of an error: the block has no return of its own (60_exceptions.md R235). -/
def Status.clear (v : Word) (t : Status) : Status :=
  { t with
    done := t.done && !v.getLsbD 1
    err := t.err && !v.getLsbD 2
    cmdLost := t.cmdLost && !v.getLsbD 4 }

/-- CTRL as the host reads it: IRQ_EN in bit 0, SRST and the reserved bits 0 (10_state.md R23). -/
def State.ctrlWord (s : State) : Word := (0#31 ++ BitVec.ofBool s.irqEn : BitVec 32)

/-- STREAM as the host reads it (10_state.md R31). -/
def State.streamWord (s : State) : Word :=
  (0#8 ++ s.writer.acc ++ BitVec.ofBool s.reader.isOpen ++ 0#2 ++ s.reader.width ++
    BitVec.ofBool s.writer.isOpen ++ 0#2 ++ s.writer.width : BitVec 32)

/-- The interrupt output, a level (10_state.md R42, 60_exceptions.md R230). -/
def State.irq (s : State) : Bool := s.irqEn && (s.status.done || s.status.err)

end Sys2Proof.Machine
end

