-- ==== Sys2Proof/Machine/Ops.lean ====
section
/-! DEFINITION. Machine/Ops.lean: the operations every meaning shares: data memory, regions, acceptance and
completion of a command (success and error), reset, and the register map (20_memory.md, 40_command_cycle.md,
70_reset_and_hazards.md, 10_state.md). -/

namespace Sys2Proof.Machine

/-- Every step and meaning answers this. -/
abbrev StepOutcome := Host.Outcome State Fault Refusal

/-- `ceil_div` (00_scope.md R10). -/
def ceilDiv (a b : Nat) : Nat := (a + b - 1) / b

/-! ### Data memory (20_memory.md R60, R61, R64) -/

/-- The canonical form of a memory of `size` bytes: offsets strictly rising, every one of them below `size`. An
unlisted byte has no value at this level, so no entry can equal it (log 2). -/
abbrev Memory.wf (size : Nat) (m : Memory) : Prop := m.Pairwise (fun c d => c.1 < d.1) ∧ ∀ c ∈ m, c.1 < size

/-- The byte known at an offset, if it is known. -/
def Memory.find (m : Memory) (a : Nat) : Option Byte := m.lookup a

/-- Bytes as entries at consecutive offsets. -/
def Memory.cellsFrom (a : Nat) : List Byte → Memory
  | [] => []
  | b :: bs => (a, b) :: Memory.cellsFrom (a + 1) bs

/-- Writes the bytes `bs` at offsets `a`, `a + 1`, ... (MemWrite of each in turn). -/
def Memory.splice (m : Memory) (a : Nat) (bs : List Byte) : Memory :=
  m.filter (fun c => c.1 < a) ++ (Memory.cellsFrom a bs ++ m.filter (fun c => a + bs.length ≤ c.1))

/-- `MemRead(a, 1)`. A byte nothing has given a value is unspecified: it reads as the free byte of its epoch, the same
at every read until something writes it (10_state.md R41, R43, 20_memory.md R66; log 1). -/
def State.readByte (s : State) (a : Nat) : Byte := (s.dmem.find a).getD (Config.freeByte s.epoch a)

/-- `Region(a, n)` (00_scope.md R12). -/
def State.region (s : State) (a n : Nat) : List Byte := (List.range n).map fun i => s.readByte (a + i)

/-- `MemWrite(a, 1, b)` for each byte in turn. -/
def State.writeBytes (s : State) (a : Nat) (bs : List Byte) : State := { s with dmem := s.dmem.splice a bs }

/-- Leaves the bytes `[a, a + n)` unspecified: each takes a fresh free value (93_implementation_defined.md U2, U3;
log 3). -/
def State.unspecify (s : State) (a n : Nat) : State :=
  { s.writeBytes a ((List.range n).map fun i => Config.freeByte s.draws (a + i)) with draws := s.draws + 1 }

/-- The bytes `[a, a + n)` exist in DMEM. -/
def State.inDmem (s : State) (a n : Nat) : Bool := a + n ≤ s.params.dmemSize

/-! ### Regions of a command (40_command_cycle.md R105, R106) -/

/-- A region is valid: `a + n <= DMEM_SIZE` on unbounded integers (R105). -/
def State.validRegion (s : State) (a n : Word) : Bool := s.inDmem a.toNat n.toNat

/-- The source and destination regions are both non-empty and share a byte (R106). -/
def Latch.overlaps (l : Latch) : Bool :=
  0 < l.srcLen.toNat && 0 < l.dstCap.toNat &&
    l.srcAddr.toNat < l.dstAddr.toNat + l.dstCap.toNat && l.dstAddr.toNat < l.srcAddr.toNat + l.srcLen.toNat

/-! ### Life of a command (40_command_cycle.md R101 to R104, R108) -/

/-- Acceptance of the command word `w` (R101). -/
def State.accept (w : Word) (s : State) : State :=
  { s with
    cmd := w
    latch := { word := w, srcAddr := s.srcAddr, srcLen := s.srcLen, dstAddr := s.dstAddr, dstCap := s.dstCap,
               data := s.data }
    status := { s.status with busy := true, done := false, err := false, errCode := 0 } }

/-- A host write of `w` to CMD: accepted when idle, dropped when busy (R101, R102). -/
def State.issue (w : Word) (s : State) : State :=
  if s.status.busy then { s with status := { s.status with cmdLost := true } } else s.accept w

/-- Completion of a command that succeeded (R104). -/
def State.complete (s : State) : State :=
  { s with status := { s.status with done := true, errCode := 0, busy := false } }

/-- `raise E`: completion of a command that failed, the block's only form of an exception (R104, 60_exceptions.md
R220, R223, R234). Nothing is saved but ERR, ERRCODE and RESULT_LEN = 0. -/
def State.raise (e : Error) (s : State) : State :=
  { s with resultLen := 0, status := { s.status with err := true, errCode := e.code, busy := false } }

/-- The host's acknowledgement of a completion, which stands in for a return: the block has none (60_exceptions.md
R235, 10_state.md R25). -/
def State.acknowledge (v : Word) (s : State) : State := { s with status := s.status.clear v }

/-- The output region `[base, base + cap)` of a buffer transform, none for any other command (40_command_cycle.md R107,
45_mtf.md R212). -/
def outputRegion (l : Latch) : Instr → Option (Nat × Nat)
  | .nop | .bswOpen _ | .bswSetw _ | .bswPush | .bswFinish | .bsrOpen _ | .bsrSetw _ | .bsrShift => none
  | .lzwEnc _ _ | .lzwDec _ _ | .rleEnc | .rleDec | .bwtFwd _ | .bwtInv _ => some (l.dstAddr.toNat, l.dstCap.toNat)
  | .mtfEnc ip | .mtfDec ip =>
    some (if ip then (l.srcAddr.toNat, l.srcLen.toNat) else (l.dstAddr.toNat, l.dstCap.toNat))

/-! ### Reset (70_reset_and_hazards.md R250, R252) -/

/-- Every register at its reset value but CTRL.IRQ_EN; no command in flight (R252 (b)). `L` is unspecified and unread
while idle (log 8). -/
def State.resetRegisters (s : State) : State :=
  { s with
    status := Status.reset, cmd := 0, srcAddr := 0, srcLen := 0, dstAddr := 0, dstCap := 0, resultLen := 0, data := 0,
    writer := Writer.reset, reader := Reader.reset, latch := Latch.reset }

/-- The DMEM bytes an aborted command leaves unspecified, as offset and length (R252 (a)): the output region of a
buffer transform; for BSW_PUSH and BSW_FINISH the writer buffer from offset `BSW_BITS div 8` to its end. -/
def State.abortedRegion (s : State) : Option (Nat × Nat) :=
  match decode s.latch.word with
  | .error _ => none
  | .ok .bswPush | .ok .bswFinish =>
    some (s.writer.base.toNat + s.writer.bits.toNat / 8, s.writer.cap.toNat - s.writer.bits.toNat / 8)
  | .ok i => outputRegion s.latch i

/-- Discards the command in flight, if there is one (R252 (a)). Only bytes that exist can change (log 4). -/
def State.abort (s : State) : State :=
  if s.status.busy then
    match s.abortedRegion with
    | none => s
    | some (a, n) => s.unspecify a (min n (s.params.dmemSize - a))
  else s

/-- The soft reset, after IRQ_EN has its new value (10_state.md R23, R252). -/
def State.softReset (s : State) : State := s.abort.resetRegisters

/-- The reset input is asserted: every state element at its reset value at once, DMEM unspecified (R250). The host and
the platform are not part of the block (log 16). -/
def State.hardReset (s : State) : State :=
  { s.resetRegisters with irqEn := false, dmem := [], epoch := s.draws, draws := s.draws + 1, inReset := true }

/-! ### The register map (10_state.md R22 to R34) -/

/-- The byte offset of a register from BLOCK_BASE (R22). -/
def Reg.offset : Reg → Nat
  | .id => 0x000
  | .ctrl => 0x004
  | .status => 0x008
  | .cmd => 0x00C
  | .srcAddr => 0x010
  | .srcLen => 0x014
  | .dstAddr => 0x018
  | .dstCap => 0x01C
  | .resultLen => 0x020
  | .data => 0x024
  | .stream => 0x028
  | .bswBits => 0x02C
  | .bswBase => 0x030
  | .bswCap => 0x034
  | .bsrPos => 0x038
  | .bsrBase => 0x03C
  | .bsrLen => 0x040

/-- All registers, in the order of their offsets (R22). -/
def Reg.all : List Reg :=
  [.id, .ctrl, .status, .cmd, .srcAddr, .srcLen, .dstAddr, .dstCap, .resultLen, .data, .stream, .bswBits, .bswBase,
   .bswCap, .bsrPos, .bsrBase, .bsrLen]

/-- The register at an offset; none at a reserved offset (R22, R34). -/
def Reg.at? (o : Nat) : Option Reg := Reg.all.find? fun r => r.offset == o

/-- What a register reads (R22 to R33). Reading changes nothing (20_memory.md R66). -/
def State.readReg (s : State) : Reg → Word
  | .id => Config.idValue
  | .ctrl => s.ctrlWord
  | .status => s.status.word
  | .cmd => s.cmd
  | .srcAddr => s.srcAddr
  | .srcLen => s.srcLen
  | .dstAddr => s.dstAddr
  | .dstCap => s.dstCap
  | .resultLen => s.resultLen
  | .data => s.data
  | .stream => s.streamWord
  | .bswBits => s.writer.bits
  | .bswBase => s.writer.base
  | .bswCap => s.writer.cap
  | .bsrPos => s.reader.pos
  | .bsrBase => s.reader.base
  | .bsrLen => s.reader.len

/-- A host write to CTRL: IRQ_EN takes bit 0, then bit 1 performs the soft reset (R23). -/
def State.writeCtrl (v : Word) (s : State) : State :=
  if v.getLsbD 1 then State.softReset { s with irqEn := v.getLsbD 0 } else { s with irqEn := v.getLsbD 0 }

/-- A host write of `v` to a register (R22 to R33); the read-only registers ignore it. -/
def State.writeReg (s : State) (v : Word) : Reg → State
  | .ctrl => s.writeCtrl v
  | .status => s.acknowledge v
  | .cmd => s.issue v
  | .srcAddr => { s with srcAddr := v }
  | .srcLen => { s with srcLen := v }
  | .dstAddr => { s with dstAddr := v }
  | .dstCap => { s with dstCap := v }
  | .data => { s with data := v }
  | .id | .resultLen | .stream | .bswBits | .bswBase | .bswCap | .bsrPos | .bsrBase | .bsrLen => s

/-- What a 32-bit read of a register offset returns: 0 at a reserved offset (R34). -/
def State.readOffset (s : State) (o : Nat) : Word :=
  match Reg.at? o with
  | some r => s.readReg r
  | none => 0

/-- A 32-bit write of a register offset: ignored at a reserved offset (R34). -/
def State.writeOffset (s : State) (o : Nat) (v : Word) : State :=
  match Reg.at? o with
  | some r => s.writeReg v r
  | none => s

end Sys2Proof.Machine
end

