-- ==== Sys2Proof/Machine/Operands.lean ====
section
/-! DEFINITION. Machine/Operands.lean: the options a command word carries (30_encoding.md R82 to R84), the template of
the buffer transforms (40_command_cycle.md R107), and bits of numbers as bytes (00_scope.md R10, 20_memory.md R61,
41_bitstream.md R121). -/

namespace Sys2Proof.Machine

/-! ### NBITS (30_encoding.md R83) -/

/-- The width NBITS names for BSW_OPEN and BSR_OPEN: 0 means 8; none out of range. -/
def openWidth (n : BitVec 5) : Option (BitVec 5) :=
  if !openNbitsOk n then none else some (if n = 0 then BitVec.ofNat 5 Config.defaultWidth else n)

/-- The width NBITS names for BSW_SETW and BSR_SETW; none out of range. -/
def setwWidth (n : BitVec 5) : Option (BitVec 5) := if setwNbitsOk n then some n else none

/-- The `maxBits` NBITS names for LZW_ENC and LZW_DEC: 0 means 16; none out of range. -/
def lzwMaxBits (n : BitVec 5) : Option Nat :=
  if !lzwNbitsOk n then none else some (if n = 0 then Config.defaultMaxBits else n.toNat)

/-! ### The buffer-transform template (40_command_cycle.md R107, R108) -/

/-- The end of the template, once the regions are checked: read the source region, apply `F`, and write the output at
`base` if it fits `cap`. A data error or an output too long leaves the output region unspecified (R108 (b)). -/
def State.transformInto (s : State) (F : List Byte → Result) (base cap : Nat) : State :=
  match F (s.region s.latch.srcAddr.toNat s.latch.srcLen.toNat) with
  | .err e => (s.unspecify base cap).raise e
  | .ok y =>
    if cap < y.length then (s.unspecify base cap).raise .outputOverflow
    else State.complete { s.writeBytes base y with resultLen := BitVec.ofNat 32 y.length }

/-- The template with a destination region: source, then destination, then overlap are checked (R105, R106, R111). -/
def State.transform (s : State) (F : List Byte → Result) : State :=
  if !s.validRegion s.latch.srcAddr s.latch.srcLen then s.raise .badAddress
  else if !s.validRegion s.latch.dstAddr s.latch.dstCap then s.raise .badAddress
  else if s.latch.overlaps then s.raise .bufferOverlap
  else s.transformInto F s.latch.dstAddr.toNat s.latch.dstCap.toNat

/-- The template of MTF with inPlace: the output goes over the source region, which alone is checked (45_mtf.md
R212). -/
def State.transformInPlace (s : State) (F : List Byte → Result) : State :=
  if !s.validRegion s.latch.srcAddr s.latch.srcLen then s.raise .badAddress
  else s.transformInto F s.latch.srcAddr.toNat s.latch.srcLen.toNat

/-! ### Bits of numbers and bytes -/

/-- The low `n` bytes of a number, least significant first (20_memory.md R61). -/
def leBytes : Nat → Nat → List Byte
  | 0, _ => []
  | n + 1, v => BitVec.ofNat 8 v :: leBytes n (v / 256)

/-- The number whose bytes are given, least significant first (20_memory.md R61, 41_bitstream.md R121). -/
def leValue : List Byte → Nat
  | [] => 0
  | b :: bs => b.toNat + 256 * leValue bs

/-- Bit `p` of a byte stream: bit `p mod 8` of byte `p div 8` (41_bitstream.md R121). -/
def streamBit (byteAt : Nat → Byte) (p : Nat) : Bool := (byteAt (p / 8)).getLsbD (p % 8)

/-- The code at stream bits `p .. p + w - 1`, least significant bit first (41_bitstream.md R121, R132). -/
def readBits (byteAt : Nat → Byte) (p : Nat) : Nat → Nat
  | 0 => 0
  | i + 1 => readBits byteAt p i + (streamBit byteAt (p + i)).toNat * 2 ^ i

end Sys2Proof.Machine
end

