-- ==== Sys2Proof/Machine/BitStream.lean ====
section
/-! DEFINITION. Machine/BitStream.lean: the host-visible bit-stream writer and reader (41_bitstream.md). The layout
rules shared with the LZW coder are `readBits` of Machine/Operands.lean and `pack` here. -/

namespace Sys2Proof.Machine

/-! ### Writer -/

/-- The loop of BSW_PUSH (R126) from code bit `i` on, `k` bits to go: the completed bytes in order, and the partial
byte left in `acc`. `B` is the number of bits pushed before this command. -/
def pushLoop (code B : Nat) : Nat → Nat → Nat → List Byte × Nat
  | 0, _, acc => ([], acc)
  | k + 1, i, acc =>
    let p := B + i
    let acc' := acc + (code.testBit i).toNat * 2 ^ (p % 8)
    if p % 8 = 7 then
      let rest := pushLoop code B k (i + 1) 0
      (BitVec.ofNat 8 acc' :: rest.1, rest.2)
    else pushLoop code B k (i + 1) acc'

/-- The integer of R128: the codes, each reduced to its width, one after the other from bit 0 up. -/
def packInt : List (Nat × Nat) → Nat
  | [] => 0
  | (c, w) :: rest => c % 2 ^ w + 2 ^ w * packInt rest

/-- How many bits the codes take together. -/
def packBits (codes : List (Nat × Nat)) : Nat := (codes.map Prod.snd).sum

/-- `pack` (R128): the bytes of a finished stream of codes with their widths. -/
def pack (codes : List (Nat × Nat)) : List Byte := leBytes (ceilDiv (packBits codes) 8) (packInt codes)

/-- BSW_OPEN (R123). -/
def execBswOpen (nbits : BitVec 5) (s : State) : StepOutcome :=
  match openWidth nbits with
  | none => .next (s.raise .badOption)
  | some w =>
    if !s.validRegion s.latch.dstAddr s.latch.dstCap then .next (s.raise .badAddress)
    else
      .next (State.complete
        { s with writer := { width := w, isOpen := true, acc := 0, bits := 0, base := s.latch.dstAddr,
                             cap := s.latch.dstCap } })

/-- BSW_SETW (R125). -/
def execBswSetw (nbits : BitVec 5) (s : State) : StepOutcome :=
  match setwWidth nbits with
  | none => .next (s.raise .badOption)
  | some w =>
    if !s.writer.isOpen then .next (s.raise .streamNotOpen)
    else .next (State.complete { s with writer := { s.writer with width := w } })

/-- BSW_PUSH (R126): the low `width` bits of the latched DATA. -/
def execBswPush (s : State) : StepOutcome :=
  let w := s.writer.width.toNat
  let B := s.writer.bits.toNat
  if !s.writer.isOpen then .next (s.raise .streamNotOpen)
  else if s.writer.cap.toNat < ceilDiv (B + w) 8 then .next (s.raise .outputOverflow)
  else
    let pushed := pushLoop (s.latch.data.toNat % 2 ^ w) B w 0 s.writer.acc.toNat
    let a := s.writer.base.toNat + B / 8
    if !s.inDmem a pushed.1.length then .fault .engineOutsideDmem
    else
      .next (State.complete
        { s.writeBytes a pushed.1 with
          writer := { s.writer with bits := BitVec.ofNat 32 (B + w), acc := BitVec.ofNat 8 pushed.2 } })

/-- BSW_FINISH (R127). -/
def execBswFinish (s : State) : StepOutcome :=
  let B := s.writer.bits.toNat
  if !s.writer.isOpen then .next (s.raise .streamNotOpen)
  else
    let tail := if B % 8 = 0 then [] else [s.writer.acc]
    let a := s.writer.base.toNat + B / 8
    if !s.inDmem a tail.length then .fault .engineOutsideDmem
    else
      .next (State.complete
        { s.writeBytes a tail with
          resultLen := BitVec.ofNat 32 (ceilDiv B 8)
          writer := { s.writer with acc := 0, isOpen := false } })

/-! ### Reader -/

/-- BSR_OPEN (R130). -/
def execBsrOpen (nbits : BitVec 5) (s : State) : StepOutcome :=
  match openWidth nbits with
  | none => .next (s.raise .badOption)
  | some w =>
    if !s.validRegion s.latch.srcAddr s.latch.srcLen then .next (s.raise .badAddress)
    else
      .next (State.complete
        { s with
          reader := { width := w, isOpen := true, pos := 0, base := s.latch.srcAddr, len := s.latch.srcLen }
          status := { s.status with eos := false } })

/-- BSR_SETW (R131). -/
def execBsrSetw (nbits : BitVec 5) (s : State) : StepOutcome :=
  match setwWidth nbits with
  | none => .next (s.raise .badOption)
  | some w =>
    if !s.reader.isOpen then .next (s.raise .streamNotOpen)
    else .next (State.complete { s with reader := { s.reader with width := w } })

/-- BSR_SHIFT (R132): DATA takes the next `width` bits of the reader's buffer as DMEM holds it now (R133), or the
exhausted value. -/
def execBsrShift (s : State) : StepOutcome :=
  let w := s.reader.width.toNat
  let p := s.reader.pos.toNat
  let base := s.reader.base.toNat
  if !s.reader.isOpen then .next (s.raise .streamNotOpen)
  else if 8 * s.reader.len.toNat < p + w then
    .next (State.complete { s with data := Config.exhausted, status := { s.status with eos := true } })
  else if !s.inDmem base (ceilDiv (p + w) 8) then .fault .engineOutsideDmem
  else
    .next (State.complete
      { s with
        data := BitVec.ofNat 32 (readBits (fun j => s.readByte (base + j)) p w)
        reader := { s.reader with pos := BitVec.ofNat 32 (p + w) }
        status := { s.status with eos := false } })

end Sys2Proof.Machine
end

