-- ==== Sys2Proof/Machine/Bwt.lean ====
section
/-! DEFINITION. Machine/Bwt.lean: the BWT with sentinel and its inverse (44_bwt.md). -/

namespace Sys2Proof.Machine

/-! ### Forward (R190 to R193) -/

/-- Rotation `k` of `x` (R191), for `k < len(x)`. -/
def rotation (x : List Byte) (k : Nat) : List Byte := x.drop k ++ x.take k

/-- Lexicographic order of byte lists, bytes compared as unsigned numbers (R191, 00_scope.md R11). -/
def bytesLt : List Byte → List Byte → Bool
  | _, [] => false
  | [], _ :: _ => true
  | a :: as, b :: bs => a.toNat < b.toNat || (a.toNat == b.toNat && bytesLt as bs)

/-- Puts rotation `k` into a sorted list of later rotations, before the first that is not smaller: equal rotations
stay in ascending order of their start (R191). -/
def insertRotation (x : List Byte) (k : Nat) : List Nat → List Nat
  | [] => [k]
  | r :: rest => if bytesLt (rotation x r) (rotation x k) then r :: insertRotation x k rest else k :: r :: rest

/-- The rotation index S of `x` (R191): the starts 0..N-1 in a stable sort of their rotations. -/
def rotationIndex (x : List Byte) : List Nat := (List.range x.length).foldr (insertRotation x) []

/-- The byte before a rotation's start, wrapping: its entry in the last column (R190). -/
def lastColumnByte (x : List Byte) (k : Nat) : Byte := x.getD ((k + x.length - 1) % x.length) 0

/-- BWT_FWD_F (R190): the mark goes in front of the last-column byte of the identity rotation (90_conflicts.md C1). -/
def bwtFwdF (mark : Byte) (x : List Byte) : Result :=
  if x.contains mark then .err .markerCollision
  else
    let S := rotationIndex x
    let column := S.map (lastColumnByte x)
    let I := S.idxOf 0
    .ok (column.take I ++ [mark] ++ column.drop I)

/-! ### Inverse (R195 to R197) -/

/-- P of R196: how many earlier positions hold the same byte. -/
def rankBefore (numbers : List Byte) (i : Nat) : Nat := (numbers.take i).count (numbers.getD i 0)

/-- C of R196: how many bytes of `numbers` are less than `v`. -/
def countBelow (numbers : List Byte) (v : Byte) : Nat := numbers.countP fun b => b.toNat < v.toNat

/-- One step of the pointer: `P[i] + C[numbers[i]]` (R195). -/
def lfStep (numbers : List Byte) (i : Nat) : Nat := rankBefore numbers i + countBelow numbers (numbers.getD i 0)

/-- The loop of R195 for `n` more positions, right to left, from pointer `i`, with what is already placed. -/
def bwtUnwind (numbers : List Byte) : Nat → Nat → List Byte → List Byte
  | 0, _, out => out
  | n + 1, i, out => bwtUnwind numbers n (lfStep numbers i) (numbers.getD i 0 :: out)

/-- BWT_INV_F (R195, R197). -/
def bwtInvF (mark : Byte) (y : List Byte) : Result :=
  if y.count mark = 0 then .err .markerNotFound
  else if 1 < y.count mark then .err .multipleMarkers
  else
    let I := y.idxOf mark
    let numbers := y.take I ++ y.drop (I + 1)
    if 1 ≤ numbers.length ∧ I = numbers.length then .err .malformedInput
    else .ok (bwtUnwind numbers numbers.length I [])

/-! ### The commands -/

/-- BWT_FWD (R190). -/
def execBwtFwd (mark : Byte) (s : State) : StepOutcome := .next (s.transform (bwtFwdF mark))

/-- BWT_INV (R195). -/
def execBwtInv (mark : Byte) (s : State) : StepOutcome := .next (s.transform (bwtInvF mark))

end Sys2Proof.Machine
end

