-- ==== Sys2Proof/Machine/Lzw.lean ====
section
/-! DEFINITION. Machine/Lzw.lean: the LZW coder (42_lzw.md): LZW_ENC_F, LZW_DEC_F and the two commands. -/

namespace Sys2Proof.Machine

/-! ### Encoder (R151 to R156) -/

/-- The encoder's transient state (R38 (b), R151): the dictionary (prefix code, appended byte) to code (R150), the
current phrase as its code, the code counter, the code width, and the pairs (code, width) emitted so far. -/
structure LzwEnc where
  dict : List ((Nat × Byte) × Nat)
  phrase : Nat
  next : Nat
  width : Nat
  out : List (Nat × Nat)
deriving DecidableEq, Repr

/-- The encoder after the first byte (R151). -/
def LzwEnc.start (b : Byte) : LzwEnc := { dict := [], phrase := b.toNat, next := 256, width := 8, out := [] }

/-- One byte of input (the body of the loop of R151): extend the phrase, or emit its code, assign the new entry below
the ceiling (R152), and widen on assigning code 2^w in streaming mode (R153). -/
def LzwEnc.step (maxBits : Nat) (fixedWidth : Bool) (t : LzwEnc) (c : Byte) : LzwEnc :=
  match t.dict.lookup (t.phrase, c) with
  | some q => { t with phrase := q }
  | none =>
    let emitted := t.out ++ [(t.phrase, t.width)]
    if t.next < 2 ^ maxBits then
      { dict := ((t.phrase, c), t.next) :: t.dict
        phrase := c.toNat
        next := t.next + 1
        width := if !fixedWidth && t.next == 2 ^ t.width && t.width < maxBits then t.width + 1 else t.width
        out := emitted }
    else { t with phrase := c.toNat, out := emitted }

/-- The pairs (code, width) LZW_ENC emits: E of R151. -/
def lzwCodes (maxBits : Nat) (fixedWidth : Bool) : List Byte → List (Nat × Nat)
  | [] => []
  | b :: rest =>
    let t := rest.foldl (LzwEnc.step maxBits fixedWidth) (LzwEnc.start b)
    t.out ++ [(t.phrase, t.width)]

/-- `fixedBytes` (R171): each code as a 16-bit little-endian word. -/
def fixedBytes (codes : List Nat) : List Byte := codes.flatMap fun c => leBytes 2 c

/-- LZW_ENC_F (R151, R154): it never fails. -/
def lzwEncF (maxBits : Nat) (fixedWidth : Bool) (x : List Byte) : Result :=
  let codes := lzwCodes maxBits fixedWidth x
  .ok (if fixedWidth then fixedBytes (codes.map Prod.fst) else pack codes)

/-! ### Decoder (R160 to R168) -/

/-- The decoder's transient state (R38 (b), R162): the phrases of codes 256, 257, ... in order, the code counter, the
code width, oldPhrase, lastChar, the output, and the position of the code source in the input, in bits. -/
structure LzwDec where
  dict : List (List Byte)
  next : Nat
  width : Nat
  oldPhrase : List Byte
  lastChar : Byte
  out : List Byte
  pos : Nat
deriving DecidableEq, Repr

/-- `getcode` (R161) from bit `pos` of the input, with the position after it; `none` is EXHAUSTED. In fixed-width mode
a code is the next 16-bit little-endian word (R171); in streaming mode it is the next `w` bits of the private reader
(R132, R170). -/
def getCode (fixedWidth : Bool) (x : List Byte) (w pos : Nat) : Option (Nat × Nat) :=
  let n := if fixedWidth then 16 else w
  if 8 * x.length < pos + n then none else some (readBits (fun j => x.getD j 0) pos n, pos + n)

/-- The phrase a code names (R162): a literal byte, an assigned entry, or oldPhrase ++ [lastChar] (R163). -/
def LzwDec.resolve (t : LzwDec) (c : Nat) : List Byte :=
  if c < 256 then [BitVec.ofNat 8 c]
  else if c < t.next then t.dict.getD (c - 256) []
  else t.oldPhrase ++ [t.lastChar]

/-- The decoder's width before it reads a code after the first (R166). -/
def LzwDec.widen (maxBits : Nat) (fixedWidth : Bool) (t : LzwDec) : Nat :=
  if !fixedWidth && t.next == 2 ^ t.width && t.width < maxBits then t.width + 1 else t.width

/-- One code after the first (the body of the loop of R162): emit its phrase, insert an entry below the ceiling
(R165). `w` is the width it was read with, `pos` the position after it. -/
def LzwDec.step (maxBits : Nat) (t : LzwDec) (w c pos : Nat) : LzwDec :=
  let phrase := t.resolve c
  let lastChar := phrase.headD 0
  { dict := if t.next < 2 ^ maxBits then t.dict ++ [t.oldPhrase ++ [lastChar]] else t.dict
    next := if t.next < 2 ^ maxBits then t.next + 1 else t.next
    width := w
    oldPhrase := phrase
    lastChar := lastChar
    out := t.out ++ phrase
    pos := pos }

/-- The loop of R162. It ends at the first EXHAUSTED (R167); `fuel` bounds the codes left, and one more than the
input's length in bytes is always enough, since every code takes at least a byte. -/
def lzwDecLoop (maxBits : Nat) (fixedWidth : Bool) (x : List Byte) : Nat → LzwDec → List Byte
  | 0, t => t.out
  | fuel + 1, t =>
    match getCode fixedWidth x (t.widen maxBits fixedWidth) t.pos with
    | none => t.out
    | some (c, pos) => lzwDecLoop maxBits fixedWidth x fuel (t.step maxBits (t.widen maxBits fixedWidth) c pos)

/-- LZW_DEC_F (R161, R162, R164). -/
def lzwDecF (maxBits : Nat) (fixedWidth : Bool) (x : List Byte) : Result :=
  if fixedWidth && x.length % 2 != 0 then .err .malformedInput
  else
    match getCode fixedWidth x 8 0 with
    | none => .ok []
    | some (c, pos) =>
      if 256 ≤ c then .err .invalidCode
      else
        let b := BitVec.ofNat 8 c
        .ok (lzwDecLoop maxBits fixedWidth x (x.length + 1)
          { dict := [], next := 256, width := 8, oldPhrase := [b], lastChar := b, out := [b], pos := pos })

/-! ### The commands -/

/-- LZW_ENC (R151). -/
def execLzwEnc (nbits : BitVec 5) (fixedWidth : Bool) (s : State) : StepOutcome :=
  match lzwMaxBits nbits with
  | none => .next (s.raise .badOption)
  | some maxBits => .next (s.transform (lzwEncF maxBits fixedWidth))

/-- LZW_DEC (R160). -/
def execLzwDec (nbits : BitVec 5) (fixedWidth : Bool) (s : State) : StepOutcome :=
  match lzwMaxBits nbits with
  | none => .next (s.raise .badOption)
  | some maxBits => .next (s.transform (lzwDecF maxBits fixedWidth))

end Sys2Proof.Machine
end

