-- ==== Sys2Proof/Machine/Mtf.lean ====
section
/-! DEFINITION. Machine/Mtf.lean: the move-to-front coder (45_mtf.md). -/

namespace Sys2Proof.Machine

/-- The symbol table at the start of a command: 0, 1, ..., 255 (R210). -/
def mtfTable : List Byte := (List.range 256).map (BitVec.ofNat 8)

/-- Moves the entry at index `i` to the front (R210, R211). -/
def moveToFront (T : List Byte) (i : Nat) : List Byte := T.getD i 0 :: (T.take i ++ T.drop (i + 1))

/-- The loop of MTF_ENC_F with table `T` (R210): each byte becomes its index. -/
def mtfEncLoop (T : List Byte) : List Byte → List Byte
  | [] => []
  | v :: rest => BitVec.ofNat 8 (T.idxOf v) :: mtfEncLoop (moveToFront T (T.idxOf v)) rest

/-- The loop of MTF_DEC_F with table `T` (R211): each index becomes the byte there. -/
def mtfDecLoop (T : List Byte) : List Byte → List Byte
  | [] => []
  | i :: rest => T.getD i.toNat 0 :: mtfDecLoop (moveToFront T i.toNat) rest

/-- MTF_ENC_F (R210): it never fails. -/
def mtfEncF (x : List Byte) : Result := .ok (mtfEncLoop mtfTable x)

/-- MTF_DEC_F (R211): it never fails. -/
def mtfDecF (x : List Byte) : Result := .ok (mtfDecLoop mtfTable x)

/-- MTF_ENC (R210, R212). -/
def execMtfEnc (inPlace : Bool) (s : State) : StepOutcome :=
  .next (if inPlace then s.transformInPlace mtfEncF else s.transform mtfEncF)

/-- MTF_DEC (R211, R212). -/
def execMtfDec (inPlace : Bool) (s : State) : StepOutcome :=
  .next (if inPlace then s.transformInPlace mtfDecF else s.transform mtfDecF)

end Sys2Proof.Machine
end

