-- ==== Sys2Proof/Machine/Nop.lean ====
section
/-! DEFINITION. Machine/Nop.lean: NOP (40_command_cycle.md R110). -/

namespace Sys2Proof.Machine

/-- NOP: nothing but the completion (R110). -/
def execNop (s : State) : StepOutcome := .next s.complete

end Sys2Proof.Machine
end

