-- ==== Sys2Proof/Machine/Rle.lean ====
section
/-! DEFINITION. Machine/Rle.lean: the RLE coder (43_rle.md). -/

namespace Sys2Proof.Machine

/-- RLE_ENC_F's scan (R180) with a run of `n` copies of `v` open: the run closes when the next byte differs or its
count has reached 255. -/
def rleScan (v : Byte) (n : Nat) : List Byte → List Byte
  | [] => [v, BitVec.ofNat 8 n]
  | c :: rest => if c = v ∧ n < 255 then rleScan v (n + 1) rest else v :: BitVec.ofNat 8 n :: rleScan c 1 rest

/-- RLE_ENC_F (R180): it never fails. -/
def rleEncF : List Byte → Result
  | [] => .ok []
  | v :: rest => .ok (rleScan v 1 rest)

/-- The expansion of value and count pairs (R182). -/
def rleExpand : List Byte → List Byte
  | v :: n :: rest => List.replicate n.toNat v ++ rleExpand rest
  | _ => []

/-- RLE_DEC_F (R182): an odd length is malformed, whatever the content. -/
def rleDecF (x : List Byte) : Result := if x.length % 2 != 0 then .err .malformedInput else .ok (rleExpand x)

/-- RLE_ENC (R180). -/
def execRleEnc (s : State) : StepOutcome := .next (s.transform rleEncF)

/-- RLE_DEC (R182). -/
def execRleDec (s : State) : StepOutcome := .next (s.transform rleDecF)

end Sys2Proof.Machine
end

