-- ==== Sys2Proof/Machine/Dispatch.lean ====
section
/-! DEFINITION. Machine/Dispatch.lean: one arm per command, each one call of its meaning. `exec i s` is the engine
step of command `i` on the operands latched in `s`, with its completion (40_command_cycle.md R103, R104). -/

namespace Sys2Proof.Machine

def exec (i : Instr) (s : State) : Host.Outcome State Fault Refusal :=
  match i with
  | .nop => Sys2Proof.Machine.execNop s
  | .bswOpen nbits => Sys2Proof.Machine.execBswOpen nbits s
  | .bswSetw nbits => Sys2Proof.Machine.execBswSetw nbits s
  | .bswPush => Sys2Proof.Machine.execBswPush s
  | .bswFinish => Sys2Proof.Machine.execBswFinish s
  | .bsrOpen nbits => Sys2Proof.Machine.execBsrOpen nbits s
  | .bsrSetw nbits => Sys2Proof.Machine.execBsrSetw nbits s
  | .bsrShift => Sys2Proof.Machine.execBsrShift s
  | .lzwEnc nbits fixedWidth => Sys2Proof.Machine.execLzwEnc nbits fixedWidth s
  | .lzwDec nbits fixedWidth => Sys2Proof.Machine.execLzwDec nbits fixedWidth s
  | .rleEnc => Sys2Proof.Machine.execRleEnc s
  | .rleDec => Sys2Proof.Machine.execRleDec s
  | .bwtFwd mark => Sys2Proof.Machine.execBwtFwd mark s
  | .bwtInv mark => Sys2Proof.Machine.execBwtInv mark s
  | .mtfEnc inPlace => Sys2Proof.Machine.execMtfEnc inPlace s
  | .mtfDec inPlace => Sys2Proof.Machine.execMtfDec inPlace s

end Sys2Proof.Machine
end

