-- ==== Sys2Proof/Machine/Bus.lean ====
section
/-! DEFINITION. Machine/Bus.lean: a host bus access as the block serves it (20_memory.md R60 to R66, 10_state.md R22,
R34, R40). An access the spec tells a model to fault stops the machine under that fault's name (log 9). -/

namespace Sys2Proof.Machine

/-- How many bytes an access moves (R61). -/
def Width.bytes : Width → Nat
  | .byte => 1
  | .half => 2
  | .word => 4

/-- What a bus access reaches: a register offset, or a DMEM offset. -/
inductive Target where
  | register (offset : Nat)
  | dmem (offset : Nat)
deriving DecidableEq, Repr

/-- What an access of this width at this bus address reaches; none is a bus error: outside the aperture (R40, R60), a
register access not 32 bits wide or not at a multiple of 4, a DMEM access not naturally aligned or not wholly inside
the window (R60, R62, R63). -/
def State.route (s : State) (w : Width) (addr : Nat) : Option Target :=
  let o := addr - s.params.blockBase
  if addr < s.params.blockBase then none
  else if o < Config.windowOffset then
    if w = .word ∧ o % 4 = 0 then some (.register o) else none
  else
    let a := o - Config.windowOffset
    if a % w.bytes = 0 ∧ s.inDmem a w.bytes then some (.dmem a) else none

/-- The host takes the data of a register read; it is named after the register, if there is one at the offset
(30_encoding.md R89). -/
def HostAgent.gotRegister (h : HostAgent) (o : Nat) (v : Word) : HostAgent :=
  { h with
    response := v
    reads :=
      match Reg.at? o with
      | some r => (r, v) :: h.reads.filter (fun e => e.1 ≠ r)
      | none => h.reads }

/-- The host takes the bytes of a DMEM read; on the bus they are one little-endian value (20_memory.md R61). -/
def HostAgent.gotBytes (h : HostAgent) (bs : List Byte) : HostAgent :=
  { h with response := BitVec.ofNat 32 (leValue bs), bytes := h.bytes ++ bs }

/-- The access, once it is known what it reaches. A read changes nothing of the block (R66). -/
def State.serveAt (s : State) : Access → Target → StepOutcome
  | .read _ _, .register o => .next { s with agent := s.agent.gotRegister o (s.readOffset o) }
  | .write _ _ v, .register o => .next (s.writeOffset o v)
  | .read w _, .dmem a =>
    if s.status.busy then .fault .dmemWhileBusy
    else .next { s with agent := s.agent.gotBytes (s.region a w.bytes) }
  | .write w _ v, .dmem a =>
    if s.status.busy then .fault .dmemWhileBusy else .next (s.writeBytes a (leBytes w.bytes v.toNat))

/-- Where an access goes on the bus. -/
def Access.addr : Access → Nat
  | .read _ addr => addr
  | .write _ addr _ => addr

/-- How wide an access is. -/
def Access.width : Access → Width
  | .read w _ => w
  | .write w _ _ => w

/-- The block serves one host access (R65, R69). -/
def State.serve (s : State) (a : Access) : StepOutcome :=
  if !s.params.deviceOrdered then .fault .hostNotOrdered
  else if s.inReset then .fault .accessDuringReset
  else
    match s.route a.width a.addr with
    | none => .fault .busError
    | some t => s.serveAt a t

/-- The bus address of a register (10_state.md R22). -/
def State.regAddr (s : State) (r : Reg) : Nat := s.params.blockBase + r.offset

/-- The bus address of a DMEM offset (20_memory.md R60). -/
def State.dmemAddr (s : State) (a : Nat) : Nat := s.params.blockBase + Config.windowOffset + a

/-- The bus address of the offset a host statement computes. An offset below 0 lies below the window, where the 8-bit
accesses of `wmem` and `rmem` are bus errors (R60, R62), and so are they at bus address 0, which stands for every
address below 0. -/
def State.hostAddr (s : State) (a : Int) : Nat := (s.params.blockBase + Config.windowOffset + a).toNat

end Sys2Proof.Machine
end

