-- ==== Sys2Proof/Machine/HostProgram.lean ====
section
/-! DEFINITION. Machine/HostProgram.lean: the host executing its statements (30_encoding.md R89) and the
pseudo-instructions of R90 (log 6). Each turn of the host serves at most one bus access, so that a completion can fall
between any two (60_exceptions.md R233). -/

namespace Sys2Proof.Machine

/-! ### Fields and expressions -/

/-- The register a field belongs to (10_state.md R23, R24, R26, R31). -/
def Field.reg : Field → Reg
  | .irqEn | .srst => .ctrl
  | .busy | .done | .err | .eos | .cmdLost | .errCode => .status
  | .op | .mark | .nbits | .rsv0 | .fixedWidth | .inPlace | .rsv1 => .cmd
  | .bswW | .bswOpen | .bsrW | .bsrOpen | .bswAcc => .stream

/-- The lowest bit of a field and its width (10_state.md R23, R24, R31, 30_encoding.md R80). -/
def Field.bits : Field → Nat × Nat
  | .irqEn => (0, 1)
  | .srst => (1, 1)
  | .busy => (0, 1)
  | .done => (1, 1)
  | .err => (2, 1)
  | .eos => (3, 1)
  | .cmdLost => (4, 1)
  | .errCode => (8, 4)
  | .op => (0, 8)
  | .mark => (8, 8)
  | .nbits => (16, 5)
  | .rsv0 => (21, 3)
  | .fixedWidth => (24, 1)
  | .inPlace => (25, 1)
  | .rsv1 => (26, 6)
  | .bswW => (0, 5)
  | .bswOpen => (7, 1)
  | .bsrW => (8, 5)
  | .bsrOpen => (15, 1)
  | .bswAcc => (16, 8)

/-- The value of a field in a register value. -/
def Field.ofWord (f : Field) (v : Word) : Nat := v.toNat / 2 ^ f.bits.1 % 2 ^ f.bits.2

/-- A value as an integer; free where it is a list (log 14). -/
def HostAgent.asInt (h : HostAgent) (place : List Nat) : Value → Int
  | .int n => n
  | .list _ => Config.freeInt h.draws place

/-- A value as a list; free where it is an integer (log 14). -/
def HostAgent.asList (h : HostAgent) (place : List Nat) : Value → List Int
  | .list xs => xs
  | .int _ => Config.freeInts h.draws place

/-- The value of the most recent read of a register (R89); free where there was none (log 14). -/
def HostAgent.lastRead (h : HostAgent) (place : List Nat) (r : Reg) : Word :=
  (h.reads.lookup r).getD (BitVec.ofInt 32 (Config.freeInt h.draws place))

/-- The value of an expression (R89, log 15). A value R89 does not state is free; `place` tells the places of a statement
apart (log 14). -/
def HostAgent.eval (h : HostAgent) (place : List Nat) : Expr → Value
  | .const v => v
  | .var x => (h.vars.lookup x).getD (Config.freeValue h.draws place)
  | .reg r => .int (h.lastRead place r).toNat
  | .field f => .int (f.ofWord (h.lastRead place f.reg))
  | .add a b => .int (h.asInt (0 :: place) (h.eval (0 :: place) a) + h.asInt (1 :: place) (h.eval (1 :: place) b))
  | .sub a b => .int (h.asInt (0 :: place) (h.eval (0 :: place) a) - h.asInt (1 :: place) (h.eval (1 :: place) b))
  | .mul a b => .int (h.asInt (0 :: place) (h.eval (0 :: place) a) * h.asInt (1 :: place) (h.eval (1 :: place) b))
  | .single a => .list [h.asInt (0 :: place) (h.eval (0 :: place) a)]
  | .append a b =>
    .list (h.asList (0 :: place) (h.eval (0 :: place) a) ++ h.asList (1 :: place) (h.eval (1 :: place) b))
  | .len a => .int (h.asList (0 :: place) (h.eval (0 :: place) a)).length
  | .index a i =>
    let xs := h.asList (0 :: place) (h.eval (0 :: place) a)
    let n := h.asInt (1 :: place) (h.eval (1 :: place) i)
    .int (if 0 ≤ n ∧ n < xs.length then xs.getD n.toNat 0 else Config.freeInt h.draws place)

/-- An integer as `w` bits on the bus; free where it does not fit (log 14). -/
def HostAgent.fit (h : HostAgent) (place : List Nat) (w : Nat) (n : Int) : BitVec w :=
  BitVec.ofInt w (if 0 ≤ n ∧ n < 2 ^ w then n else Config.freeInt h.draws place)

/-- An expression as an integer. -/
def HostAgent.evalInt (h : HostAgent) (place : List Nat) (e : Expr) : Int := h.asInt place (h.eval place e)

/-- An expression as a 32-bit value. -/
def HostAgent.evalWord (h : HostAgent) (place : List Nat) (e : Expr) : Word :=
  h.fit (2 :: place) 32 (h.evalInt place e)

/-- An expression as a list of bytes. -/
def HostAgent.evalBytes (h : HostAgent) (place : List Nat) (e : Expr) : List Byte :=
  (h.asList place (h.eval place e)).zipIdx.map fun x => h.fit (x.2 :: 2 :: place) 8 x.1

/-! ### Moving through the program -/

/-- Goes on with the next statement. -/
def State.advance (s : State) : State :=
  { s with agent := { s.agent with pc := s.agent.pc + 1, draws := s.agent.draws + 1 } }

/-- Where the labels of a name stand in the program. -/
def HostAgent.labels (h : HostAgent) (name : Nat) : List Nat :=
  (List.range h.prog.length).filter fun k => h.prog[k]? == some (.label name)

/-- The statement a jump continues with: the one after the label (R89). R89 does not say where a jump continues without
such a label, nor after which of several; both are free (log 14). -/
def HostAgent.jumpTarget (h : HostAgent) (name : Nat) : Nat :=
  match h.labels name with
  | [] => (Config.freeInt h.draws []).toNat
  | [k] => k + 1
  | k :: rest => (k :: rest).getD ((Config.freeInt h.draws []).toNat % (rest.length + 1)) k + 1

/-- Continues with the statement after a label (R89). -/
def State.jump (s : State) (name : Nat) : State :=
  { s with agent := { s.agent with pc := s.agent.jumpTarget name, draws := s.agent.draws + 1 } }

/-- Sets a host-local variable (R89). -/
def State.setVar (s : State) (x : Nat) (v : Value) : State :=
  { s with agent := { s.agent with vars := (x, v) :: s.agent.vars.filter (fun e => e.1 ≠ x) } }

/-- The accesses of `wmem a, bytes`: 8-bit writes at consecutive offsets, in order (R89). -/
def State.wmemAccesses (s : State) (a : Int) (bs : List Byte) : List Access :=
  bs.zipIdx.map fun x => .write .byte (s.hostAddr (a + x.2)) (x.1.zeroExtend 32)

/-- The accesses of `rmem a, n`: 8-bit reads at the offsets a..a+n-1, in order, none where n is not positive (R89). -/
def State.rmemAccesses (s : State) (a n : Int) : List Access :=
  (List.range n.toNat).map fun (i : Nat) => .read .byte (s.hostAddr (a + i))

/-- A 32-bit write of a register (R89 `wr`). -/
def State.hostWrite (s : State) (r : Reg) (v : Word) : StepOutcome := s.serve (.write .word (s.regAddr r) v)

/-- `if v = e goto name`: two values compared, no access (R89). DESIGN CHOICE (log 14): an integer and a list are
unequal. -/
def State.branch (s : State) (v w : Value) (name : Nat) : State := if v = w then s.jump name else s.advance

/-- Asserts the reset input (70_reset_and_hazards.md R250). -/
def State.assertReset (s : State) : State := s.hardReset

/-- Releases the reset input: the block serves accesses again (R250). -/
def State.releaseReset (s : State) : State := { s with inReset := false }

/-- One statement of the host (R89). The position in the program moves on, but for a `wait` that found BUSY = 1, which
polls again at the host's next turn. -/
def State.runStmt (s : State) : Stmt → StepOutcome
  | .wr r e => s.advance.hostWrite r (s.agent.evalWord [0] e)
  | .rd r => s.advance.serve (.read .word (s.regAddr r))
  | .wmem e bs =>
    .next { s.advance with
      agent := { s.advance.agent with todo := s.wmemAccesses (s.agent.evalInt [0] e) (s.agent.evalBytes [1] bs) } }
  | .rmem e n =>
    .next { s.advance with
      agent := { s.advance.agent with
        todo := s.rmemAccesses (s.agent.evalInt [0] e) (s.agent.evalInt [1] n), bytes := [] } }
  | .cmd i =>
    match assemble i with
    | some w => s.advance.hostWrite .cmd w
    | none => .refused .assemblerRefuses
  | .wait => (if s.status.busy then s else s.advance).serve (.read .word (s.regAddr .status))
  | .label _ => .next s.advance
  | .goto name => .next (s.jump name)
  | .ifReg r v name => .next (s.branch (s.agent.eval [0] (.reg r)) (s.agent.eval [1] v) name)
  | .ifField f v name => .next (s.branch (s.agent.eval [0] (.field f)) (s.agent.eval [1] v) name)
  | .assign x e => .next (s.advance.setVar x (s.agent.eval [0] e))
  | .ifVar x e name => .next (s.branch (s.agent.eval [0] (.var x)) (s.agent.eval [1] e) name)
  | .access a => s.advance.serve a
  | .assertReset => .next s.advance.assertReset
  | .releaseReset => .next s.advance.releaseReset

/-- A turn of the host: the next access of the current statement, or the next statement. A host whose program is at an
end makes no access, and the block keeps its state (60_exceptions.md R243, log 13). -/
def State.hostTurn (s : State) : StepOutcome :=
  match s.agent.todo with
  | a :: rest => State.serve { s with agent := { s.agent with todo := rest } } a
  | [] =>
    match s.agent.prog[s.agent.pc]? with
    | some stmt => s.runStmt stmt
    | none => .next s

/-- The machine with a host program to run from its first statement (log 6). -/
def State.withProgram (s : State) (p : List Stmt) : State := { s with agent := { HostAgent.reset with prog := p } }

/-! ### Pseudo-instructions (R90) -/

/-- `wr REG, n` with a constant. -/
def Stmt.wrConst (r : Reg) (n : Nat) : Stmt := .wr r (.const (.int n))

/-- `run <command>, s, l, d, c` (R90). -/
def Stmt.run (i : Instr) (src len dst cap : Expr) : List Stmt :=
  [.wr .srcAddr src, .wr .srcLen len, .wr .dstAddr dst, .wr .dstCap cap, .cmd i, .wait]

/-- `push v` (R90). -/
def Stmt.push (v : Expr) : List Stmt := [.wr .data v, .cmd .bswPush, .wait]

/-- `shift` (R90). -/
def Stmt.shift : List Stmt := [.cmd .bsrShift, .wait, .rd .data]

/-- `clear`: clears DONE, ERR and CMD_LOST (R90). -/
def Stmt.clear : List Stmt := [Stmt.wrConst .status 0x16]

end Sys2Proof.Machine
end

