-- ==== Sys2Proof/Machine/Engine.lean ====
section
/-! DEFINITION. Machine/Engine.lean: the engine step of the command in flight (40_command_cycle.md R103), and which
agent moves (60_exceptions.md R233; log 5). -/

namespace Sys2Proof.Machine

/-- The engine step (R103): the latched word is decoded, an illegal word fails with ILLEGAL_COMMAND (R86, R111), a
command runs. -/
def State.engineStep (s : State) : StepOutcome :=
  match decode s.latch.word with
  | .error _ => .next (s.raise .illegalCommand)
  | .ok i => exec i s

/-- One event of the total order of host accesses and completions (20_memory.md R69, 60_exceptions.md R233). `order`
says whose turn it is: an engine turn completes the command in flight, if there is one; a host turn goes by without
completing it. Once the list is used up, a command in flight completes before the host's next access (R262: every
accepted command completes; log 5). -/
def State.turn (s : State) : StepOutcome :=
  match s.order with
  | [] => if s.status.busy then s.engineStep else s.hostTurn
  | .host :: rest => State.hostTurn { s with order := rest }
  | .engine :: rest => if s.status.busy then State.engineStep { s with order := rest } else .next { s with order := rest }

end Sys2Proof.Machine
end

