-- ==== Sys2Proof/Machine/Step.lean ====
section
/-! DEFINITION. Machine/Step.lean: the step, and a command word placed where the next step runs it. -/

namespace Sys2Proof.Machine

/-- One step: one event of the machine's total order. -/
def step (s : State) : Host.Outcome State Fault Refusal := s.turn

/-- `s` with a command word accepted and the next turn the engine's, so that the next step runs it. The block fetches
nothing (10_state.md R21): a command arrives by a host write of CMD, and this stands for that write (log 6). -/
def State.withFetchWord (s : State) (nbits w : Nat) : State :=
  { s.accept (tableWord nbits w) with order := [], inReset := false }

end Sys2Proof.Machine
end

