-- ==== Sys2Proof/Safety.lean ====
section
/-! DEFINITION. Safety.lean: the invariant of the machine, in the terms the claims use. Each clause is a sentence of
the spec about the machine as a whole; together they rule out the states no run reaches. -/

namespace Sys2Proof.Machine

/-- The error codes a command can leave in ERRCODE, with 0 for none (60_exceptions.md R221). -/
def legalErrCodes : List (BitVec 4) := [0, 1, 2, 3, 4, 8, 9, 10, 11, 12, 13, 14]

/-- What holds of the bit-stream writer on a block with `size` bytes of DMEM, open or closed. -/
structure Writer.Ok (size : Nat) (w : Writer) : Prop where
  /-- BSW_W is at least 1 (41_bitstream.md R124). -/
  width_pos : 1 ≤ w.width.toNat
  /-- BSW_W is at most 16 (41_bitstream.md R124). -/
  width_le : w.width.toNat ≤ 16
  /-- The buffer lies in DMEM: it was checked at open (40_command_cycle.md R105). -/
  region : w.base.toNat + w.cap.toNat ≤ size
  /-- `B <= 8 * BSW_CAP` (41_bitstream.md R122). -/
  bits_le : w.bits.toNat ≤ 8 * w.cap.toNat
  /-- The bits of BSW_ACC at and above position `BSW_BITS mod 8` are 0 (10_state.md R31). -/
  acc_lt : w.acc.toNat < 2 ^ (w.bits.toNat % 8)

/-- What holds of the bit-stream reader on a block with `size` bytes of DMEM, open or closed. -/
structure Reader.Ok (size : Nat) (r : Reader) : Prop where
  /-- BSR_W is at least 1 (10_state.md R31). -/
  width_pos : 1 ≤ r.width.toNat
  /-- BSR_W is at most 16 (10_state.md R31). -/
  width_le : r.width.toNat ≤ 16
  /-- The buffer lies in DMEM: it was checked at open (40_command_cycle.md R105). -/
  region : r.base.toNat + r.len.toNat ≤ size
  /-- The cursor is inside the buffer (41_bitstream.md R132). -/
  pos_le : r.pos.toNat ≤ 8 * r.len.toNat

/-- The invariant: holds after reset, and every step keeps it. -/
structure State.Inv (s : State) : Prop where
  /-- DMEM_SIZE is at least 1 (00_scope.md R8). -/
  dmemSize_pos : 1 ≤ s.params.dmemSize
  /-- DMEM_SIZE is at most 2^28 (00_scope.md R8). -/
  dmemSize_le : s.params.dmemSize ≤ Config.maxDmemSize
  /-- BLOCK_BASE is a multiple of 2^17 (00_scope.md R8). -/
  blockBase_aligned : s.params.blockBase % Config.blockAlign = 0
  /-- DMEM is in canonical form, every known byte inside it (log 2). -/
  dmem_wf : Memory.wf s.params.dmemSize s.dmem
  /-- DONE and ERR are never both 1 (10_state.md R24). -/
  not_done_and_err : ¬(s.status.done = true ∧ s.status.err = true)
  /-- BUSY = 1 implies DONE = 0 and ERR = 0, and ERRCODE was cleared at acceptance (R24, 40_command_cycle.md R101). -/
  busy_clean : s.status.busy = true → s.status.done = false ∧ s.status.err = false ∧ s.status.errCode = 0
  /-- The command in flight is the last accepted one, which CMD reads (10_state.md R26, R37). -/
  busy_word : s.status.busy = true → s.latch.word = s.cmd
  /-- After a success ERRCODE is 0 (10_state.md R24, 40_command_cycle.md R104). -/
  done_code : s.status.done = true → s.status.errCode = 0
  /-- After a failure ERRCODE is not 0 (60_exceptions.md R221). -/
  err_code : s.status.err = true → s.status.errCode ≠ 0
  /-- ERRCODE never holds a reserved code (60_exceptions.md R221, 93_implementation_defined.md U11). -/
  errCode_legal : s.status.errCode ∈ legalErrCodes
  /-- The writer's width, buffer, bit count and partial byte fit each other. -/
  writer_ok : s.writer.Ok s.params.dmemSize
  /-- The reader's width, buffer and cursor fit each other. -/
  reader_ok : s.reader.Ok s.params.dmemSize
  /-- RESULT_LEN counts bytes of DMEM (10_state.md R29). -/
  resultLen_le : s.resultLen.toNat ≤ s.params.dmemSize
  /-- No command is in flight while the reset input is asserted (70_reset_and_hazards.md R250). -/
  reset_idle : s.inReset = true → s.status.busy = false

end Sys2Proof.Machine
end

