-- ==== Sys2Proof/Certificates/Slice0/Obligations.lean ====
section
/-! DEFINITION. Certificates/Slice0/Obligations.lean: the statements for the provers. Helpers stand in
`Sys2Proof.Claims`; they are written from the spec's own words and numbers, not from the model's functions. -/

namespace Sys2Proof.Claims

open Sys2Proof Sys2Proof.Machine

/-! ### Command words by arithmetic (30_encoding.md R80, R81, R85) -/

/-- Bits `lo + len - 1 .. lo` of a word as a number (00_scope.md R10). -/
def bits (w : Word) (lo len : Nat) : Nat := w.toNat / 2 ^ lo % 2 ^ len

/-- The opcodes of R81. -/
def opcodes : List Nat :=
  [0x00, 0x10, 0x11, 0x12, 0x13, 0x18, 0x19, 0x1A, 0x20, 0x21, 0x30, 0x31, 0x40, 0x41, 0x50, 0x51]

/-- A word is illegal, on the grounds R86 lists with the fields R85 marks "0". -/
def IllegalWord (w : Word) : Prop :=
  bits w 0 8 ∉ opcodes ∨ bits w 21 3 ≠ 0 ∨ bits w 26 6 ≠ 0 ∨
    (bits w 8 8 ≠ 0 ∧ bits w 0 8 ∉ [0x40, 0x41]) ∨
    (bits w 16 5 ≠ 0 ∧ bits w 0 8 ∉ [0x10, 0x11, 0x18, 0x19, 0x20, 0x21]) ∨
    (bits w 24 1 ≠ 0 ∧ bits w 0 8 ∉ [0x20, 0x21]) ∨
    (bits w 25 1 ≠ 0 ∧ bits w 0 8 ∉ [0x50, 0x51])

/-- NBITS is out of the range R83 gives its opcode. -/
def BadNbits (w : Word) : Prop :=
  (bits w 0 8 ∈ [0x10, 0x18] ∧ 16 < bits w 16 5) ∨
    (bits w 0 8 ∈ [0x11, 0x19] ∧ (bits w 16 5 = 0 ∨ 16 < bits w 16 5)) ∨
    (bits w 0 8 ∈ [0x20, 0x21] ∧ bits w 16 5 ≠ 0 ∧ (bits w 16 5 < 9 ∨ 16 < bits w 16 5))

/-! ### Completions (40_command_cycle.md R104) -/

/-- STATUS after a success: DONE set, ERRCODE and BUSY cleared. -/
def doneStatus (t : Status) : Status := { t with done := true, errCode := 0, busy := false }

/-- STATUS after a failure with an error code: ERR set, BUSY cleared. -/
def failStatus (code : BitVec 4) (t : Status) : Status := { t with err := true, errCode := code, busy := false }

/-- A failure that changes nothing but STATUS and RESULT_LEN (40_command_cycle.md R108 (a)). -/
def failed (code : BitVec 4) (s : State) : State := { s with status := failStatus code s.status, resultLen := 0 }

/-- Applies a change to a next state. -/
def mapNext (f : State → State) : StepOutcome → StepOutcome
  | .next t => .next (f t)
  | .fault e => .fault e
  | .refused r => .refused r

/-! ### The checks of each command, in order (40_command_cycle.md R105, R106, R111; 60_exceptions.md R222) -/

/-- The bytes of the latched source region. -/
def source (s : State) : List Byte := s.region s.latch.srcAddr.toNat s.latch.srcLen.toNat

/-- The latched source region does not lie in DMEM (R105). -/
def badSource (s : State) : Bool := s.params.dmemSize < s.latch.srcAddr.toNat + s.latch.srcLen.toNat

/-- The latched destination region does not lie in DMEM (R105). -/
def badDest (s : State) : Bool := s.params.dmemSize < s.latch.dstAddr.toNat + s.latch.dstCap.toNat

/-- The latched regions are non-empty and share a byte (R106). -/
def overlap (s : State) : Bool :=
  0 < s.latch.srcLen.toNat && 0 < s.latch.dstCap.toNat &&
    s.latch.srcAddr.toNat < s.latch.dstAddr.toNat + s.latch.dstCap.toNat &&
    s.latch.dstAddr.toNat < s.latch.srcAddr.toNat + s.latch.srcLen.toNat

/-- The length of a transform's output; 0 where it has none. -/
def outLength : Result → Nat
  | .ok y => y.length
  | .err _ => 0

/-- The effective `maxBits` of NBITS (30_encoding.md R83). -/
def maxBitsOf (n : BitVec 5) : Nat := if n.toNat = 0 then 16 else n.toNat

/-- A failure condition and the code it raises. -/
def check (p : Prop) [Decidable p] (code : BitVec 4) : Bool × BitVec 4 := (decide p, code)

/-- Checks of regions for a transform with a destination region (R105, R106): source, destination, overlap. -/
def regionChecks (s : State) : List (Bool × BitVec 4) := [(badSource s, 10), (badDest s, 10), (overlap s, 11)]

/-- The failure conditions of a command in the order of R111, each with its code (60_exceptions.md R221, R222). -/
def checks (s : State) : Instr → List (Bool × BitVec 4)
  | .nop => []
  | .bswOpen n => [check (16 < n.toNat) 9, (badDest s, 10)]
  | .bswSetw n => [check (n.toNat = 0 ∨ 16 < n.toNat) 9, (!s.writer.isOpen, 13)]
  | .bswPush =>
    [(!s.writer.isOpen, 13), check (8 * s.writer.cap.toNat < s.writer.bits.toNat + s.writer.width.toNat) 12]
  | .bswFinish => [(!s.writer.isOpen, 13)]
  | .bsrOpen n => [check (16 < n.toNat) 9, (badSource s, 10)]
  | .bsrSetw n => [check (n.toNat = 0 ∨ 16 < n.toNat) 9, (!s.reader.isOpen, 13)]
  | .bsrShift => [(!s.reader.isOpen, 13)]
  | .lzwEnc n fx =>
    [check (n.toNat ≠ 0 ∧ (n.toNat < 9 ∨ 16 < n.toNat)) 9] ++ regionChecks s ++
      [check (s.latch.dstCap.toNat < outLength (lzwEncF (maxBitsOf n) fx (source s))) 12]
  | .lzwDec n fx =>
    [check (n.toNat ≠ 0 ∧ (n.toNat < 9 ∨ 16 < n.toNat)) 9] ++ regionChecks s ++
      [check (fx = true ∧ (source s).length % 2 = 1) 1,
       check (fx = true ∧ 2 ≤ (source s).length ∧ (source s)[1]? ≠ some 0) 14,
       check (s.latch.dstCap.toNat < outLength (lzwDecF (maxBitsOf n) fx (source s))) 12]
  | .rleEnc => regionChecks s ++ [check (s.latch.dstCap.toNat < outLength (rleEncF (source s))) 12]
  | .rleDec =>
    regionChecks s ++
      [check ((source s).length % 2 = 1) 1, check (s.latch.dstCap.toNat < outLength (rleDecF (source s))) 12]
  | .bwtFwd m =>
    regionChecks s ++ [check (m ∈ source s) 2, check (s.latch.dstCap.toNat < (source s).length + 1) 12]
  | .bwtInv m =>
    regionChecks s ++
      [check ((source s).count m = 0) 3, check (1 < (source s).count m) 4,
       check (2 ≤ (source s).length ∧ (source s).getLast? = some m) 1,
       check (s.latch.dstCap.toNat < (source s).length - 1) 12]
  | .mtfEnc ip | .mtfDec ip =>
    if ip then [(badSource s, 10)]
    else regionChecks s ++ [check (s.latch.dstCap.toNat < (source s).length) 12]

/-- The code of the first condition that holds (R111: later conditions are not evaluated). -/
def firstFailure : List (Bool × BitVec 4) → Option (BitVec 4)
  | [] => none
  | (b, c) :: rest => if b then some c else firstFailure rest

/-- The codes R222 lists for a command, ILLEGAL_COMMAND apart (that is the word's). -/
def codesOf : Instr → List (BitVec 4)
  | .nop => []
  | .bswOpen _ | .bsrOpen _ => [9, 10]
  | .bswSetw _ | .bsrSetw _ => [9, 13]
  | .bswPush => [13, 12]
  | .bswFinish | .bsrShift => [13]
  | .lzwEnc _ _ => [9, 10, 11, 12]
  | .lzwDec _ fx => if fx then [9, 10, 11, 1, 14, 12] else [9, 10, 11, 14, 12]
  | .rleEnc => [10, 11, 12]
  | .rleDec => [10, 11, 1, 12]
  | .bwtFwd _ => [10, 11, 2, 12]
  | .bwtInv _ => [10, 11, 3, 4, 1, 12]
  | .mtfEnc ip | .mtfDec ip => if ip then [10] else [10, 11, 12]

/-! ### The buffer transforms (40_command_cycle.md R107) -/

/-- The transform function of a command with its options (00_scope.md R13). -/
def transformOf : Instr → Option (List Byte → Result)
  | .lzwEnc n fx => some (lzwEncF (maxBitsOf n) fx)
  | .lzwDec n fx => some (lzwDecF (maxBitsOf n) fx)
  | .rleEnc => some rleEncF
  | .rleDec => some rleDecF
  | .bwtFwd m => some (bwtFwdF m)
  | .bwtInv m => some (bwtInvF m)
  | .mtfEnc _ => some mtfEncF
  | .mtfDec _ => some mtfDecF
  | _ => none

/-- The command writes its output over its source (45_mtf.md R212). -/
def isInPlace : Instr → Bool
  | .mtfEnc ip | .mtfDec ip => ip
  | _ => false

/-- `base` of R107. -/
def outBase (s : State) (i : Instr) : Nat := if isInPlace i then s.latch.srcAddr.toNat else s.latch.dstAddr.toNat

/-- `cap` of R107. -/
def outCap (s : State) (i : Instr) : Nat := if isInPlace i then s.latch.srcLen.toNat else s.latch.dstCap.toNat

/-- The byte ranges, as start and end, a command in flight leaves unspecified when a soft reset discards it
(70_reset_and_hazards.md R252 (a)). -/
def abortRange (s : State) : Instr → Option (Nat × Nat)
  | .bswPush | .bswFinish =>
    some (s.writer.base.toNat + s.writer.bits.toNat / 8, s.writer.base.toNat + s.writer.cap.toNat)
  | i => if (transformOf i).isSome then some (outBase s i, outBase s i + outCap s i) else none

/-! ### Rotations (44_bwt.md R191) -/

/-- Byte `k` of rotation `r` of `x`. -/
def rotByte (x : List Byte) (r k : Nat) : Byte := x.getD ((r + k) % x.length) 0

/-- Rotation `r` comes before rotation `r'` in S: smaller at the first difference, or equal with the smaller start. -/
def RotBefore (x : List Byte) (r r' : Nat) : Prop :=
  (∃ k < x.length, (∀ j < k, rotByte x r j = rotByte x r' j) ∧ (rotByte x r k).toNat < (rotByte x r' k).toNat) ∨
    ((∀ j < x.length, rotByte x r j = rotByte x r' j) ∧ r < r')

/-! ### Sequences of stream commands (41_bitstream.md R126, R132) -/

/-- For each code and width in turn: BSW_SETW of the width, then BSW_PUSH of the code as the latched DATA. -/
def pushCodes : List (Word × BitVec 5) → State → Option State
  | [], s => some s
  | (c, w) :: rest, s =>
    match exec (.bswSetw w) s with
    | .next s1 =>
      match exec .bswPush { s1 with latch := { s1.latch with data := c } } with
      | .next s2 => pushCodes rest s2
      | _ => none
    | _ => none

/-- For each width in turn: BSR_SETW of the width, then BSR_SHIFT; the values of DATA and EOS after each shift. -/
def shiftCodes : List (BitVec 5) → State → Option (List (Word × Bool) × State)
  | [], s => some ([], s)
  | w :: rest, s =>
    match exec (.bsrSetw w) s with
    | .next s1 =>
      match exec .bsrShift s1 with
      | .next s2 => (shiftCodes rest s2).map fun r => ((s2.data, s2.status.eos) :: r.1, r.2)
      | _ => none
    | _ => none

/-- The sum of the widths of codes. -/
def totalWidth (codes : List (Word × BitVec 5)) : Nat := (codes.map fun c => c.2.toNat).sum

/-- The integer of R128: `sum_k (c_k mod 2^{w_k}) * 2^{w_0 + ... + w_{k-1}}`. -/
def packedValue : List (Word × BitVec 5) → Nat
  | [] => 0
  | (c, w) :: rest => c.toNat % 2 ^ w.toNat + 2 ^ w.toNat * packedValue rest

/-! ### The register map (10_state.md R22) -/

/-- The offsets of R22, each with the number its register holds: the constant of ID, the fields of CTRL, STATUS and
STREAM at their bits (R23, R24, R31), and the content R26 to R33 name for every other register. -/
def registerContents (s : State) : List (Nat × Nat) :=
  [(0x000, 0x43540701), (0x004, s.irqEn.toNat),
   (0x008, s.status.busy.toNat + 2 * s.status.done.toNat + 4 * s.status.err.toNat + 8 * s.status.eos.toNat +
      16 * s.status.cmdLost.toNat + 2 ^ 8 * s.status.errCode.toNat),
   (0x00C, s.cmd.toNat), (0x010, s.srcAddr.toNat), (0x014, s.srcLen.toNat), (0x018, s.dstAddr.toNat),
   (0x01C, s.dstCap.toNat), (0x020, s.resultLen.toNat), (0x024, s.data.toNat),
   (0x028, s.writer.width.toNat + 2 ^ 7 * s.writer.isOpen.toNat + 2 ^ 8 * s.reader.width.toNat +
      2 ^ 15 * s.reader.isOpen.toNat + 2 ^ 16 * s.writer.acc.toNat),
   (0x02C, s.writer.bits.toNat), (0x030, s.writer.base.toNat), (0x034, s.writer.cap.toNat),
   (0x038, s.reader.pos.toNat), (0x03C, s.reader.base.toNat), (0x040, s.reader.len.toNat)]

/-! ### Host control statements (30_encoding.md R89) -/

/-- The statements that make no access of the bus. -/
def isControl : Stmt → Bool
  | .label _ | .goto _ | .ifReg _ _ _ | .ifField _ _ _ | .assign _ _ | .ifVar _ _ _ => true
  | _ => false

/-- The label a control statement continues at, if it does not continue with the next statement. In an `if` an integer
and a list are unequal (DESIGN CHOICE, log 14). -/
def jumpsTo (h : HostAgent) : Stmt → Option Nat
  | .goto name => some name
  | .ifReg r v name => if h.eval [0] (.reg r) = h.eval [1] v then some name else none
  | .ifField f v name => if h.eval [0] (.field f) = h.eval [1] v then some name else none
  | .ifVar x e name => if h.eval [0] (.var x) = h.eval [1] e then some name else none
  | _ => none

/-- The platform delivers accesses in order and the block is out of reset: accesses are served. -/
def Serving (s : State) : Prop := s.params.deviceOrdered = true ∧ s.inReset = false

end Sys2Proof.Claims

open Sys2Proof Sys2Proof.Machine Sys2Proof.Claims

/-! ### Encoding (30_encoding.md) -/

/-- The decoder gives back every command from its word, and R87's answer is BadOption exactly for the commands whose
NBITS is out of range. -/
def Obligations.DecodeOfEncodeIsTheCommand : Prop :=
  ∀ i : Instr, decode (encode i) = .ok i ∧
    decodeCommand (encode i) = (if i.wellFormed then .cmd i else .badOption)

/-- A word the decoder accepts is the word of the command it gives: each legal word has one meaning. -/
def Obligations.EncodeOfDecodeIsTheWord : Prop := ∀ (w : Word) (i : Instr), decode w = .ok i → encode i = w

/-- R86: the decoder rejects exactly the illegal words; an illegal word in flight completes with ILLEGAL_COMMAND, a
legal one with NBITS out of range with BAD_OPTION, and nothing else of the machine changes but STATUS and RESULT_LEN. -/
def Obligations.IllegalWordsCompleteWithIllegalCommand : Prop :=
  ∀ s : State,
    (IllegalWord s.latch.word → s.engineStep = .next (failed 8 s)) ∧
    (¬IllegalWord s.latch.word → BadNbits s.latch.word → s.engineStep = .next (failed 9 s)) ∧
    (¬IllegalWord s.latch.word → ¬BadNbits s.latch.word →
      ∃ i : Instr, decodeCommand s.latch.word = .cmd i ∧ s.engineStep = exec i s)

/-- The example words of R88 and of 95_test_vectors.md decode to the commands they stand for. -/
def Obligations.ExampleWordsDecode : Prop :=
  decode 0x010C0020 = .ok (.lzwEnc 12 true) ∧ decode 0x00002440 = .ok (.bwtFwd 36) ∧
    decode 0x02000050 = .ok (.mtfEnc true) ∧ decode 0x00090011 = .ok (.bswSetw 9) ∧
    decode 0x00000000 = .ok .nop ∧ decode 0x00100018 = .ok (.bsrOpen 16) ∧ decode 0x0000001A = .ok .bsrShift ∧
    decode 0x00000031 = .ok .rleDec ∧ decode 0x00200020 = .error .reservedBits ∧
    decode 0x00000130 = .error .unusedField ∧ decode 0x00000001 = .error .unassignedOpcode

/-! ### Registers and the host bus (10_state.md, 20_memory.md) -/

/-- R25: a host write of STATUS clears DONE, ERR and CMD_LOST where a one is written, and changes nothing else. -/
def Obligations.StatusWriteClearsOnes : Prop :=
  ∀ (s : State) (v : Word), Serving s →
    s.serve (.write .word (s.params.blockBase + 0x008) v) =
      .next { s with
        status :=
          { s.status with
            done := if bits v 1 1 = 1 then false else s.status.done
            err := if bits v 2 1 = 1 then false else s.status.err
            cmdLost := if bits v 4 1 = 1 then false else s.status.cmdLost } }

/-- R101: a CMD write while idle is accepted, whatever the word; STATUS then reads BUSY = 1; an illegal word fails at
its engine step. -/
def Obligations.CmdWriteWhileIdleIsAccepted : Prop :=
  ∀ (s : State) (w : Word), Serving s → s.status.busy = false →
    ∃ t : State, s.serve (.write .word (s.params.blockBase + 0x00C) w) = .next t ∧
      t = { s with
        cmd := w
        latch := { word := w, srcAddr := s.srcAddr, srcLen := s.srcLen, dstAddr := s.dstAddr, dstCap := s.dstCap,
                   data := s.data }
        status := { s.status with busy := true, done := false, err := false, errCode := 0 } } ∧
      bits (t.readReg .status) 0 1 = 1 ∧
      (IllegalWord w → t.engineStep = .next (failed 8 t))

/-- R102: a CMD write while busy changes nothing except CMD_LOST. -/
def Obligations.CmdWriteWhileBusyIsDropped : Prop :=
  ∀ (s : State) (w : Word), Serving s → s.status.busy = true →
    s.serve (.write .word (s.params.blockBase + 0x00C) w) =
      .next { s with status := { s.status with cmdLost := true } }

/-- R34: a reserved offset reads 0 and ignores writes; a reserved field reads 0, and so does SRST of CTRL (10_state.md
R23); a write's reserved bits have no effect. -/
def Obligations.ReservedOffsetsAndFieldsReadZero : Prop :=
  ∀ (s : State) (v v' : Word),
    (∀ o : Nat, 0x044 ≤ o → o ≤ 0xFFFC → o % 4 = 0 → s.readOffset o = 0 ∧ s.writeOffset o v = s) ∧
    bits (s.readReg .ctrl) 1 31 = 0 ∧
    bits (s.readReg .status) 5 3 = 0 ∧ bits (s.readReg .status) 12 20 = 0 ∧
    bits (s.readReg .stream) 5 2 = 0 ∧ bits (s.readReg .stream) 13 2 = 0 ∧ bits (s.readReg .stream) 24 8 = 0 ∧
    (bits v 0 2 = bits v' 0 2 → s.writeReg v .ctrl = s.writeReg v' .ctrl) ∧
    (bits v 1 4 = bits v' 1 4 → s.writeReg v .status = s.writeReg v' .status)

/-- The fields of STATUS, CTRL and STREAM lie at the bits 10_state.md gives them, and ID reads its constant. -/
def Obligations.RegisterFieldsLieAtTheirBits : Prop :=
  ∀ s : State,
    s.readReg .id = 0x43540701 ∧ bits (s.readReg .ctrl) 0 1 = s.irqEn.toNat ∧
    bits (s.readReg .status) 0 1 = s.status.busy.toNat ∧ bits (s.readReg .status) 1 1 = s.status.done.toNat ∧
    bits (s.readReg .status) 2 1 = s.status.err.toNat ∧ bits (s.readReg .status) 3 1 = s.status.eos.toNat ∧
    bits (s.readReg .status) 4 1 = s.status.cmdLost.toNat ∧ bits (s.readReg .status) 8 4 = s.status.errCode.toNat ∧
    bits (s.readReg .stream) 0 5 = s.writer.width.toNat ∧ bits (s.readReg .stream) 7 1 = s.writer.isOpen.toNat ∧
    bits (s.readReg .stream) 8 5 = s.reader.width.toNat ∧ bits (s.readReg .stream) 15 1 = s.reader.isOpen.toNat ∧
    bits (s.readReg .stream) 16 8 = s.writer.acc.toNat

/-- A CTRL write without SRST sets IRQ_EN from bit 0 and changes nothing else; the read-only registers ignore writes. -/
def Obligations.CtrlAndReadOnlyRegisterWrites : Prop :=
  ∀ (s : State) (v : Word), Serving s →
    (bits v 1 1 = 0 →
      s.serve (.write .word (s.params.blockBase + 0x004) v) = .next { s with irqEn := decide (bits v 0 1 = 1) }) ∧
    (∀ o ∈ [0x000, 0x020, 0x028, 0x02C, 0x030, 0x034, 0x038, 0x03C, 0x040],
      s.serve (.write .word (s.params.blockBase + o) v) = .next s)

/-- A 32-bit write at 0x010, 0x014, 0x018, 0x01C and 0x024 sets SRC_ADDR, SRC_LEN, DST_ADDR, DST_CAP and DATA, the
fields that acceptance latches (10_state.md R22, R27, R28, R30), and changes nothing else; each of them reads back the
word written to it, over the bus, and no other register reads another value than before. -/
def Obligations.OperandRegistersReadBack : Prop :=
  ∀ (s : State) (v : Word), Serving s →
    s.serve (.write .word (s.params.blockBase + 0x010) v) = .next { s with srcAddr := v } ∧
    s.serve (.write .word (s.params.blockBase + 0x014) v) = .next { s with srcLen := v } ∧
    s.serve (.write .word (s.params.blockBase + 0x018) v) = .next { s with dstAddr := v } ∧
    s.serve (.write .word (s.params.blockBase + 0x01C) v) = .next { s with dstCap := v } ∧
    s.serve (.write .word (s.params.blockBase + 0x024) v) = .next { s with data := v } ∧
    ∀ r ∈ [Reg.srcAddr, .srcLen, .dstAddr, .dstCap, .data],
      ∃ t u : State, s.serve (.write .word (s.regAddr r) v) = .next t ∧
        t.serve (.read .word (t.regAddr r)) = .next u ∧ u.agent.response = v ∧
        (∀ r' : Reg, r' ≠ r → t.readReg r' = s.readReg r') ∧ t.dmem = s.dmem ∧ t.latch = s.latch ∧
        t.status = s.status

/-- A host read that is served changes nothing of the block, and of the host only what it has read: its program, its
place in it, its accesses to come, its variables and its counter of statements stay. -/
def Obligations.HostReadsChangeNothing : Prop :=
  ∀ (s t : State) (w : Width) (addr : Nat), s.serve (.read w addr) = .next t →
    t = { s with
      agent := { s.agent with reads := t.agent.reads, bytes := t.agent.bytes, response := t.agent.response } }

/-- Host DMEM accesses are little-endian: the byte at the lowest offset is the least significant; a write changes
exactly its own bytes. -/
def Obligations.DmemAccessesAreLittleEndian : Prop :=
  ∀ (s : State) (w : Width) (a : Nat) (v : Word), Serving s → s.status.busy = false → a % w.bytes = 0 →
    a + w.bytes ≤ s.params.dmemSize →
    (∃ t : State, s.serve (.read w (s.params.blockBase + 0x10000 + a)) = .next t ∧
      t.agent.response.toNat = ((List.range w.bytes).map fun i => (s.readByte (a + i)).toNat * 2 ^ (8 * i)).sum) ∧
    (∃ t : State, s.serve (.write w (s.params.blockBase + 0x10000 + a) v) = .next t ∧ t = { s with dmem := t.dmem } ∧
      (∀ i < w.bytes, (t.readByte (a + i)).toNat = bits v (8 * i) 8) ∧
      (∀ b : Nat, (b < a ∨ a + w.bytes ≤ b) → t.readByte b = s.readByte b))

/-- 20_memory.md R60, R62 and R63: register offsets take only 32-bit accesses at multiples of 4, the DMEM window takes
naturally aligned accesses that lie wholly inside it, and everything else is a bus error. That a bad access to the window
while a command is in flight is a bus error, and not the other fault, is the model's choice (log 9). -/
def Obligations.BusErrorsAreExactlyTheBadAccesses : Prop :=
  ∀ (s : State) (a : Access), Serving s →
    let o := a.addr - s.params.blockBase
    (s.serve a = .fault .busError ↔
      ¬(s.params.blockBase ≤ a.addr ∧
        ((o < 0x10000 ∧ a.width = .word ∧ o % 4 = 0) ∨
          (0x10000 ≤ o ∧ (a.width = .byte ∨ (a.width = .half ∧ (o - 0x10000) % 2 = 0) ∨
              (a.width = .word ∧ (o - 0x10000) % 4 = 0)) ∧
            o - 0x10000 + a.width.bytes ≤ s.params.dmemSize))))

/-- A host DMEM access while a command is in flight faults (the model's treatment of U5), and an access while the reset
input is asserted faults (U7). -/
def Obligations.ForbiddenAccessesFault : Prop :=
  ∀ (s : State) (a : Access),
    (Serving s → s.status.busy = true → s.params.blockBase + 0x10000 ≤ a.addr →
      s.serve a = .fault .dmemWhileBusy ∨ s.serve a = .fault .busError) ∧
    (s.params.deviceOrdered = true → s.inReset = true → s.serve a = .fault .accessDuringReset)

/-- R42: the interrupt output in terms of the register bits the host reads. -/
def Obligations.IrqIsEnabledCompletion : Prop :=
  ∀ s : State,
    s.irq = true ↔
      bits (s.readReg .ctrl) 0 1 = 1 ∧ (bits (s.readReg .status) 1 1 = 1 ∨ bits (s.readReg .status) 2 1 = 1)

/-- Host writes to the operand registers while a command is in flight do not touch the latched copy: no access but a
soft reset changes `L` or ends the command. -/
def Obligations.HostAccessesLeaveTheLatchedCommand : Prop :=
  ∀ (s t : State) (a : Access), s.status.busy = true → s.serve a = .next t →
    (t.latch = s.latch ∧ t.status.busy = true ∧ t.cmd = s.cmd ∧ t.dmem = s.dmem) ∨
      ∃ v : Word, a = .write .word (s.params.blockBase + 0x004) v ∧ bits v 1 1 = 1

/-! ### Reset (70_reset_and_hazards.md) -/

/-- After hardware reset from any state, and in the reset state: idle, the registers at their reset values, no
interrupt, and DMEM unspecified. -/
def Obligations.HardResetLeavesTheResetState : Prop :=
  (∀ r : Reg, State.reset.readReg r =
    match r with
    | .id => 0x43540701
    | .stream => 0x00000808
    | _ => 0) ∧
  State.reset.irq = false ∧
  ∀ s : State,
    (∀ r : Reg, s.hardReset.readReg r = State.reset.readReg r) ∧ s.hardReset.status.busy = false ∧
      s.hardReset.irq = false ∧ (∀ a : Nat, s.hardReset.readByte a = Config.freeByte s.draws a) ∧
      s.hardReset.params = s.params

/-- R252: the soft reset. It takes IRQ_EN from bit 0, puts every other register at its reset value, discards the
command in flight, leaves the bytes that command was writing unspecified and every other DMEM byte as it was. -/
def Obligations.SoftResetClearsRegistersAndKeepsMemory : Prop :=
  ∀ (s : State) (v : Word), Serving s → bits v 1 1 = 1 →
    ∃ t : State, s.serve (.write .word (s.params.blockBase + 0x004) v) = .next t ∧
      t.irqEn = decide (bits v 0 1 = 1) ∧
      (∀ r : Reg, r ≠ .ctrl → t.readReg r = State.reset.readReg r) ∧ t.status.busy = false ∧
      (∀ a : Nat,
        (s.status.busy = true ∧ ∃ i lo hi, decode s.latch.word = .ok i ∧ abortRange s i = some (lo, hi) ∧
            lo ≤ a ∧ a < hi ∧ a < s.params.dmemSize ∧ t.readByte a = Config.freeByte s.draws a) ∨
          (¬(s.status.busy = true ∧ ∃ i lo hi, decode s.latch.word = .ok i ∧ abortRange s i = some (lo, hi) ∧
            lo ≤ a ∧ a < hi ∧ a < s.params.dmemSize) ∧ t.readByte a = s.readByte a))

/-! ### The step and the order of events (40_command_cycle.md, 60_exceptions.md R233) -/

/-- A step on the engine's turn is the decoded command's meaning; a step on the host's turn is the host's. -/
def Obligations.StepRunsTheDecodedCommand : Prop :=
  ∀ (s : State) (i : Instr), decode s.latch.word = .ok i → s.status.busy = true →
    (s.order = [] → step s = exec i s) ∧
    (∀ rest, s.order = .engine :: rest → step s = exec i { s with order := rest }) ∧
    (∀ rest, s.order = .host :: rest → step s = State.hostTurn { s with order := rest })

/-- A command word placed by `withFetchWord` runs at the next step, from any state. -/
def Obligations.PlacedWordRunsNext : Prop :=
  ∀ (s : State) (i : Instr),
    step (s.withFetchWord 32 (encode i).toNat) = exec i (s.withFetchWord 32 (encode i).toNat) ∧
      (s.withFetchWord 32 (encode i).toNat).latch.word = encode i

/-- A CMD write and a completion take effect in one of two orders: before it the write is dropped, after it the write
is accepted. -/
def Obligations.CmdWriteFallsBeforeOrAfterCompletion : Prop :=
  ∀ (s : State) (w : Word) (rest : List Agent), s.Inv → s.params.deviceOrdered = true → s.status.busy = true →
    s.agent.todo = [.write .word (s.params.blockBase + 0x00C) w] →
    (s.order = .host :: rest →
      ∃ t : State, step s = .next t ∧ t.cmd = s.cmd ∧ t.latch = s.latch ∧ t.status.busy = true ∧
        t.status.cmdLost = true) ∧
    (s.order = .engine :: .host :: rest →
      ∃ t u : State, step s = .next t ∧ t.status.busy = false ∧ step t = .next u ∧ u.cmd = w ∧ u.latch.word = w ∧
        u.status.busy = true ∧ u.status.cmdLost = s.status.cmdLost)

/-- With a host whose program has ended, an accepted command completes: a machine that is busy is idle after at most one
step more than its order list is long. The count of steps is the model's (logs 5, 6, 13). -/
def Obligations.AcceptedCommandsComplete : Prop :=
  ∀ s : State, s.Inv → s.status.busy = true → s.agent.todo = [] → s.agent.prog.length ≤ s.agent.pc →
    ∃ (k : Nat) (t : State), k ≤ s.order.length + 1 ∧ Host.Core.run Sys2Proof.core k s = .next t ∧ t.status.busy = false

/-! ### Completion, errors and frames of every command -/

/-- R111: a command fails with the code of the first failure condition that holds, with the error effects of R108:
ERR, ERRCODE and RESULT_LEN = 0; DMEM unchanged for an error found before any output, else its output region
unspecified and every other byte unchanged. -/
def Obligations.CommandFailsWithItsFirstFailure : Prop :=
  ∀ (s : State) (i : Instr) (c : BitVec 4), firstFailure (checks s i) = some c →
    ∃ t : State, exec i s = .next t ∧
      t = { s with status := failStatus c s.status, resultLen := 0, dmem := t.dmem, draws := t.draws } ∧
      ((c ∈ [8, 9, 10, 11, 13] ∨ transformOf i = none) → t.dmem = s.dmem) ∧
      ((c ∈ [1, 2, 3, 4, 12, 14] ∧ transformOf i ≠ none) →
        ∀ a : Nat, t.readByte a =
          if outBase s i ≤ a ∧ a < outBase s i + outCap s i then Config.freeByte s.draws a else s.readByte a)

/-- Every command none of whose failure conditions holds succeeds, in every state that meets the invariant: each of
the sixteen commands completes with DONE. -/
def Obligations.CommandSucceedsWhenNoCheckFails : Prop :=
  ∀ (s : State) (i : Instr), s.Inv → firstFailure (checks s i) = none →
    ∃ t : State, exec i s = .next t ∧ t.status.done = true ∧ t.status.errCode = 0 ∧ t.status.busy = false ∧
      t.status.err = s.status.err ∧ t.status.cmdLost = s.status.cmdLost

/-- The codes a command can leave are those R222 lists for it; in particular none is reserved. -/
def Obligations.ErrorCodesPerCommand : Prop :=
  ∀ (s t : State) (i : Instr), s.status.err = false → exec i s = .next t → t.status.err = true →
    t.status.errCode ∈ codesOf i

/-- R109: what a command leaves unchanged. -/
def Obligations.CommandsChangeOnlyWhatTheirRulesName : Prop :=
  ∀ (s t : State) (i : Instr), exec i s = .next t →
    (t.srcAddr = s.srcAddr ∧ t.srcLen = s.srcLen ∧ t.dstAddr = s.dstAddr ∧ t.dstCap = s.dstCap ∧ t.irqEn = s.irqEn) ∧
    (t.cmd = s.cmd ∧ t.latch = s.latch ∧ t.params = s.params ∧ t.agent = s.agent ∧ t.order = s.order ∧
      t.epoch = s.epoch ∧ t.inReset = s.inReset ∧ t.status.cmdLost = s.status.cmdLost) ∧
    (i ≠ .bsrShift → t.data = s.data) ∧
    (i ∉ [Instr.bswPush, .bswFinish] → (∀ n, i ≠ .bswOpen n ∧ i ≠ .bswSetw n) → t.writer = s.writer) ∧
    (i ≠ .bsrShift → (∀ n, i ≠ .bsrOpen n ∧ i ≠ .bsrSetw n) → t.reader = s.reader) ∧
    (i = .bswPush → t.writer = { s.writer with bits := t.writer.bits, acc := t.writer.acc }) ∧
    (i = .bswFinish → t.writer = { s.writer with acc := t.writer.acc, isOpen := t.writer.isOpen }) ∧
    ((∃ n, i = .bswSetw n) → t.writer = { s.writer with width := t.writer.width }) ∧
    (i = .bsrShift → t.reader = { s.reader with pos := t.reader.pos }) ∧
    ((∃ n, i = .bsrSetw n) → t.reader = { s.reader with width := t.reader.width }) ∧
    (i ≠ .bsrShift → (∀ n, i ≠ .bsrOpen n) → t.status.eos = s.status.eos) ∧
    (transformOf i = none → i ≠ .bswFinish → t.resultLen = s.resultLen ∨ (t.status.err = true ∧ t.resultLen = 0)) ∧
    (transformOf i = none → i ∉ [Instr.bswPush, .bswFinish] → t.dmem = s.dmem) ∧
    (i ∈ [Instr.bswPush, .bswFinish] → s.writer.Ok s.params.dmemSize →
      ∀ a : Nat, (a < s.writer.base.toNat + s.writer.bits.toNat / 8 ∨
        s.writer.base.toNat + s.writer.cap.toNat ≤ a) → t.readByte a = s.readByte a) ∧
    (transformOf i ≠ none →
      ∀ a : Nat, (a < outBase s i ∨ outBase s i + outCap s i ≤ a) → t.readByte a = s.readByte a)

/-- A command uses the operands latched at acceptance, not the registers: changing the operand registers in between
changes nothing of what it does (DATA of BSR_SHIFT apart, which the command itself writes). -/
def Obligations.CommandsIgnoreOperandRegisters : Prop :=
  ∀ (s : State) (i : Instr) (a b c d v : Word),
    exec i { s with srcAddr := a, srcLen := b, dstAddr := c, dstCap := d } =
      mapNext (fun t => { t with srcAddr := a, srcLen := b, dstAddr := c, dstCap := d }) (exec i s) ∧
    (i ≠ .bsrShift → exec i { s with data := v } = mapNext (fun t => { t with data := v }) (exec i s))

/-- A buffer transform depends on no DMEM byte outside its source region: from two memories that agree there it
completes with the same STATUS and RESULT_LEN; the bytes of its output, and after a data error or an output too long the
whole output region, are equal whatever the memories held there; every other byte the memories agree on they still agree
on. (The region left unspecified is equal because both runs take the same free bytes, logs 1 and 3.) -/
def Obligations.TransformsDependOnTheirSourceOnly : Prop :=
  ∀ (s s' : State) (i : Instr), transformOf i ≠ none → s' = { s with dmem := s'.dmem } →
    (∀ a : Nat, s.latch.srcAddr.toNat ≤ a → a < s.latch.srcAddr.toNat + s.latch.srcLen.toNat →
      s.readByte a = s'.readByte a) →
    ∃ t t' : State, exec i s = .next t ∧ exec i s' = .next t' ∧ t.status = t'.status ∧
      t.resultLen = t'.resultLen ∧
      (∀ a : Nat, outBase s i ≤ a → a < outBase s i + t.resultLen.toNat → t.readByte a = t'.readByte a) ∧
      (t.status.errCode ∈ [1, 2, 3, 4, 12, 14] →
        ∀ a : Nat, outBase s i ≤ a → a < outBase s i + outCap s i → t.readByte a = t'.readByte a) ∧
      ∀ a : Nat, s.readByte a = s'.readByte a → t.readByte a = t'.readByte a

/-! ### Results -/

/-- NOP completes and does nothing else. -/
def Obligations.NopOnlyCompletes : Prop :=
  ∀ s : State, exec .nop s = .next { s with status := doneStatus s.status }

/-- BSW_OPEN and BSR_OPEN on a region in DMEM: a fresh writer or reader over it, of width NBITS or 8. -/
def Obligations.OpensStartAFreshStream : Prop :=
  ∀ (s : State) (n : BitVec 5), n.toNat ≤ 16 →
    (s.latch.dstAddr.toNat + s.latch.dstCap.toNat ≤ s.params.dmemSize →
      exec (.bswOpen n) s =
        .next { s with
          writer := { width := if n.toNat = 0 then 8 else n, isOpen := true, acc := 0, bits := 0,
                      base := s.latch.dstAddr, cap := s.latch.dstCap }
          status := doneStatus s.status }) ∧
    (s.latch.srcAddr.toNat + s.latch.srcLen.toNat ≤ s.params.dmemSize →
      exec (.bsrOpen n) s =
        .next { s with
          reader := { width := if n.toNat = 0 then 8 else n, isOpen := true, pos := 0, base := s.latch.srcAddr,
                      len := s.latch.srcLen }
          status := { doneStatus s.status with eos := false } })

/-- BSW_SETW and BSR_SETW on an open stream change its width for what follows and nothing else. -/
def Obligations.SetWidthChangesOnlyTheWidth : Prop :=
  ∀ (s : State) (n : BitVec 5), 1 ≤ n.toNat → n.toNat ≤ 16 →
    (s.writer.isOpen = true →
      exec (.bswSetw n) s = .next { s with writer := { s.writer with width := n }, status := doneStatus s.status }) ∧
    (s.reader.isOpen = true →
      exec (.bsrSetw n) s = .next { s with reader := { s.reader with width := n }, status := doneStatus s.status })

/-- BSW_PUSH appends the low `w` bits of DATA after the `B` bits already pushed: the partial byte and the code together
are a number V whose complete bytes go to DMEM, lowest first, and whose rest is the new partial byte. -/
def Obligations.PushAppendsTheCode : Prop :=
  ∀ s : State, s.params.dmemSize ≤ 2 ^ 28 → s.writer.Ok s.params.dmemSize → s.writer.isOpen = true →
    s.writer.bits.toNat + s.writer.width.toNat ≤ 8 * s.writer.cap.toNat →
    let B := s.writer.bits.toNat
    let w := s.writer.width.toNat
    let V := s.writer.acc.toNat + s.latch.data.toNat % 2 ^ w * 2 ^ (B % 8)
    let k := (B + w) / 8 - B / 8
    let a := s.writer.base.toNat + B / 8
    ∃ t : State, exec .bswPush s = .next t ∧
      t = { s with
        status := doneStatus s.status
        writer := { s.writer with bits := t.writer.bits, acc := t.writer.acc }
        dmem := t.dmem } ∧
      t.writer.bits.toNat = B + w ∧ t.writer.acc.toNat = V / 256 ^ k ∧
      (∀ j < k, (t.readByte (a + j)).toNat = V / 256 ^ j % 256) ∧
      (∀ b : Nat, (b < a ∨ a + k ≤ b) → t.readByte b = s.readByte b)

/-- BSW_FINISH writes the partial byte, if there is one, reports the length in bytes, and closes the writer. -/
def Obligations.FinishFlushesThePartialByte : Prop :=
  ∀ s : State, s.params.dmemSize ≤ 2 ^ 28 → s.writer.Ok s.params.dmemSize → s.writer.isOpen = true →
    let B := s.writer.bits.toNat
    let a := s.writer.base.toNat + B / 8
    ∃ t : State, exec .bswFinish s = .next t ∧
      t = { s with
        status := doneStatus s.status
        writer := { s.writer with acc := 0, isOpen := false }
        resultLen := t.resultLen
        dmem := t.dmem } ∧
      t.resultLen.toNat = (B + 7) / 8 ∧
      (∀ b : Nat, t.readByte b = if b = a ∧ B % 8 ≠ 0 then s.writer.acc else s.readByte b)

/-- BSR_SHIFT takes the code at the cursor from the buffer read as one little-endian number, or answers exhausted when
fewer bits remain than the width. -/
def Obligations.ShiftExtractsTheNextCode : Prop :=
  ∀ s : State, s.params.dmemSize ≤ 2 ^ 28 → s.reader.Ok s.params.dmemSize → s.reader.isOpen = true →
    let w := s.reader.width.toNat
    let p := s.reader.pos.toNat
    let n := s.reader.len.toNat
    let V := ((List.range n).map fun j => (s.readByte (s.reader.base.toNat + j)).toNat * 2 ^ (8 * j)).sum
    (p + w ≤ 8 * n →
      ∃ t : State, exec .bsrShift s = .next t ∧
        t = { s with
          status := { doneStatus s.status with eos := false }
          data := t.data
          reader := { s.reader with pos := t.reader.pos } } ∧
        t.data.toNat = V / 2 ^ p % 2 ^ w ∧ t.reader.pos.toNat = p + w) ∧
    (8 * n < p + w →
      exec .bsrShift s =
        .next { s with status := { doneStatus s.status with eos := true }, data := 0xFFFFFFFF })

/-- A buffer transform whose regions are valid and do not overlap, and whose output fits, writes exactly its output at
its base and its length to RESULT_LEN, and changes nothing else but STATUS: LZW_ENC, LZW_DEC, RLE_ENC, RLE_DEC,
BWT_FWD, BWT_INV, and MTF_ENC and MTF_DEC with inPlace or without. -/
def Obligations.TransformsWriteTheirOutput : Prop :=
  ∀ (s : State) (i : Instr) (F : List Byte → Result) (y : List Byte), i.wellFormed = true →
    transformOf i = some F → badSource s = false → (isInPlace i = false → badDest s = false ∧ overlap s = false) →
    F (source s) = .ok y → y.length ≤ outCap s i →
    ∃ t : State, exec i s = .next t ∧
      t = { s with status := doneStatus s.status, resultLen := t.resultLen, dmem := t.dmem } ∧
      t.resultLen.toNat = y.length ∧ t.region (outBase s i) y.length = y ∧
      (∀ a : Nat, (a < outBase s i ∨ outBase s i + y.length ≤ a) → t.readByte a = s.readByte a)

/-- MTF with inPlace always completes on a source region in DMEM, and leaves the coded bytes in it. -/
def Obligations.MtfInPlaceOverwritesItsSource : Prop :=
  ∀ s : State, badSource s = false →
    (∃ t : State, exec (.mtfEnc true) s = .next t ∧ t.status = doneStatus s.status ∧ t.resultLen = s.latch.srcLen ∧
      mtfEncF (source s) = .ok (t.region s.latch.srcAddr.toNat s.latch.srcLen.toNat)) ∧
    (∃ t : State, exec (.mtfDec true) s = .next t ∧ t.status = doneStatus s.status ∧ t.resultLen = s.latch.srcLen ∧
      mtfDecF (source s) = .ok (t.region s.latch.srcAddr.toNat s.latch.srcLen.toNat))

/-! ### The transform functions -/

/-- RLE_ENC_F writes maximal runs: value and count pairs that expand to the input, every count in 1..255, and adjacent
pairs of one value only after a full count. -/
def Obligations.RleEncodesMaximalRuns : Prop :=
  ∀ x : List Byte, ∃ pairs : List (Byte × Nat),
    rleEncF x = .ok (pairs.flatMap fun p => [p.1, BitVec.ofNat 8 p.2]) ∧
      (pairs.flatMap fun p => List.replicate p.2 p.1) = x ∧ (∀ p ∈ pairs, 1 ≤ p.2 ∧ p.2 ≤ 255) ∧
      (∀ (k : Nat) (p q : Byte × Nat), pairs[k]? = some p → pairs[k + 1]? = some q → p.1 = q.1 → p.2 = 255)

/-- RLE_DEC_F expands every list of pairs, zero counts included, and rejects every odd length. -/
def Obligations.RleDecodesPairs : Prop :=
  (∀ pairs : List (Byte × Byte),
    rleDecF (pairs.flatMap fun p => [p.1, p.2]) = .ok (pairs.flatMap fun p => List.replicate p.2.toNat p.1)) ∧
  (∀ x : List Byte, x.length % 2 = 1 → rleDecF x = .err .malformedInput)

/-- The RLE round-trip law. -/
def Obligations.RleRoundTrip : Prop :=
  ∀ x : List Byte, ∃ y : List Byte, rleEncF x = .ok y ∧ rleDecF y = .ok x

/-- The MTF round-trip laws, in both directions, with outputs as long as the inputs. -/
def Obligations.MtfRoundTrip : Prop :=
  ∀ x : List Byte,
    (∃ y : List Byte, mtfEncF x = .ok y ∧ y.length = x.length ∧ mtfDecF y = .ok x) ∧
      (∃ y : List Byte, mtfDecF x = .ok y ∧ y.length = x.length ∧ mtfEncF y = .ok x)

/-- The MTF symbol table stays a permutation of the 256 byte values. -/
def Obligations.MtfTableStaysAPermutation : Prop :=
  mtfTable.Nodup ∧ (∀ v : Byte, v ∈ mtfTable) ∧
    ∀ (T : List Byte) (i : Nat), T.Perm mtfTable → i < 256 → (moveToFront T i).Perm mtfTable

/-- S of R191: a permutation of 0..N-1 in which each rotation comes before every later one. -/
def Obligations.RotationIndexIsTheStableSort : Prop :=
  ∀ x : List Byte, (rotationIndex x).Perm (List.range x.length) ∧
    ∀ r r' a b : Nat, r < r' → (rotationIndex x)[r]? = some a → (rotationIndex x)[r']? = some b → RotBefore x a b

/-- The shape of BWT_FWD_F's output: one mark, in front of the last byte of the input; the rest a permutation of the
input, the last column of the sorted rotations. -/
def Obligations.BwtForwardShape : Prop :=
  ∀ (x : List Byte) (mark : Byte), x ≠ [] → mark ∉ x →
    ∃ (y : List Byte) (I : Nat), bwtFwdF mark x = .ok y ∧ y.length = x.length + 1 ∧ I < x.length ∧
      y[I]? = some mark ∧ y.count mark = 1 ∧ y[I + 1]? = x.getLast? ∧ (y.erase mark).Perm x ∧
      (rotationIndex x)[I]? = some 0 ∧
      ∀ r k : Nat, (rotationIndex x)[r]? = some k → (y.erase mark)[r]? = some (rotByte x k (x.length - 1))

/-- The inverse BWT's pointer map is a permutation of 0..N-1: it stays in range and no two positions share a rank. -/
def Obligations.BwtInversePointerStaysInRange : Prop :=
  ∀ (numbers : List Byte) (i j : Nat), i < numbers.length → j < numbers.length →
    lfStep numbers i < numbers.length ∧ (lfStep numbers i = lfStep numbers j → i = j)

/-- The BWT round-trip law. -/
def Obligations.BwtRoundTrip : Prop :=
  ∀ (x : List Byte) (mark : Byte), mark ∉ x → ∃ y : List Byte, bwtFwdF mark x = .ok y ∧ bwtInvF mark y = .ok x

/-- The closed-form width schedule of the LZW encoder in streaming mode, that every code fits its width, that the first
code is a byte, and that fixed-width mode emits the same codes. -/
def Obligations.LzwCodesFollowTheWidthSchedule : Prop :=
  ∀ (x : List Byte) (maxBits : Nat), 9 ≤ maxBits → maxBits ≤ 16 →
    (∀ k c w : Nat, (lzwCodes maxBits false x)[k]? = some (c, w) →
      w = min maxBits (Nat.log2 (255 + k) + 1) ∧ c < 2 ^ w) ∧
    (lzwCodes maxBits true x).map Prod.fst = (lzwCodes maxBits false x).map Prod.fst ∧
    (∀ p : Nat × Nat, (lzwCodes maxBits false x)[0]? = some p → p.1 < 256)

/-- The LZW round-trip law, for every maxBits in 9..16 and both modes. -/
def Obligations.LzwRoundTrip : Prop :=
  ∀ (x : List Byte) (maxBits : Nat) (fixedWidth : Bool), 9 ≤ maxBits → maxBits ≤ 16 →
    ∃ y : List Byte, lzwEncF maxBits fixedWidth x = .ok y ∧ lzwDecF maxBits fixedWidth y = .ok x

/-- The writer's abstract value: after any pushes with any legal widths that fit the buffer, and BSW_FINISH, the
buffer holds the packed integer of the codes, RESULT_LEN bytes long. -/
def Obligations.WriterBufferHoldsThePackedCodes : Prop :=
  ∀ (s : State) (codes : List (Word × BitVec 5)), s.params.dmemSize ≤ 2 ^ 28 →
    s.writer.Ok s.params.dmemSize → s.writer.isOpen = true → s.writer.bits = 0 →
    (∀ c ∈ codes, 1 ≤ c.2.toNat ∧ c.2.toNat ≤ 16) → totalWidth codes ≤ 8 * s.writer.cap.toNat →
    ∃ t u : State, pushCodes codes s = some t ∧ exec .bswFinish t = .next u ∧
      u.resultLen.toNat = (totalWidth codes + 7) / 8 ∧
      leValue (u.region s.writer.base.toNat u.resultLen.toNat) = packedValue codes ∧
      (∀ a : Nat, (a < s.writer.base.toNat ∨ s.writer.base.toNat + u.resultLen.toNat ≤ a) →
        u.readByte a = s.readByte a)

/-- The stream's round-trip law: a reader over a buffer that holds packed codes returns exactly those codes, with
EOS = 0, when its width is set to each code's width before the shift. -/
def Obligations.ReaderReturnsThePackedCodes : Prop :=
  ∀ (s : State) (codes : List (Word × BitVec 5)), s.params.dmemSize ≤ 2 ^ 28 →
    s.reader.Ok s.params.dmemSize → s.reader.isOpen = true → s.reader.pos = 0 →
    (∀ c ∈ codes, 1 ≤ c.2.toNat ∧ c.2.toNat ≤ 16 ∧ c.1.toNat < 2 ^ c.2.toNat) →
    s.reader.len.toNat = (totalWidth codes + 7) / 8 →
    leValue (s.region s.reader.base.toNat s.reader.len.toNat) = packedValue codes →
    ∃ t : State, shiftCodes (codes.map Prod.snd) s = some (codes.map fun c => (c.1, false), t) ∧
      t.reader.pos.toNat = totalWidth codes

/-! ### Invariants -/

/-- The reset state meets the invariant. -/
def Obligations.ResetMeetsTheInvariant : Prop := State.reset.Inv

/-- Every step keeps the invariant, from every state that meets it. -/
def Obligations.StepKeepsTheInvariant : Prop :=
  ∀ s t : State, s.Inv → step s = .next t → t.Inv

/-- From a state that meets the invariant the engine step never faults and is never refused: no command reaches a byte
outside DMEM, and none fails for lack of an internal store. -/
def Obligations.EngineStepAlwaysCompletes : Prop :=
  ∀ s : State, s.Inv → s.status.busy = true →
    ∃ t : State, s.engineStep = .next t ∧ t.status.busy = false ∧ (t.status.done ≠ t.status.err)

/-! ### Host programs (30_encoding.md R89, R90) -/

/-- `cmd <command>` followed by `wait`, from an idle machine whose turns are not fixed in advance: after three steps
the command has completed and the host has read the STATUS that says so. The count of steps is the model's: one access a
turn (log 6), one STATUS read a turn of `wait` (log 19), completion before the next turn (log 5). -/
def Obligations.CommandThenWaitCompletes : Prop :=
  ∀ (s : State) (i : Instr), s.Inv → Serving s → s.status.busy = false → s.order = [] → s.agent.todo = [] →
    s.agent.prog[s.agent.pc]? = some (.cmd i) → s.agent.prog[s.agent.pc + 1]? = some .wait → i.wellFormed = true →
    ∃ t : State, Host.Core.run Sys2Proof.core 3 s = .next t ∧ t.cmd = encode i ∧ t.status.busy = false ∧
      t.status.done ≠ t.status.err ∧ t.agent.pc = s.agent.pc + 2 ∧ t.agent.todo = [] ∧
      t.agent.reads.lookup .status = some t.status.word

/-- `rmem a, n` returns the bytes of the region, after one step to issue it and one for each byte, and changes nothing
else but the host's position, its last response and its counter of statements. The count of steps is
the model's (logs 5, 6), not the spec's. -/
def Obligations.RmemReturnsTheRegion : Prop :=
  ∀ (s : State) (a n : Nat), Serving s → s.status.busy = false → s.order = [] → s.agent.todo = [] →
    s.agent.prog[s.agent.pc]? = some (.rmem (.const (.int a)) (.const (.int n))) → a + n ≤ s.params.dmemSize →
    ∃ t : State, Host.Core.run Sys2Proof.core (n + 1) s = .next t ∧ t.agent.bytes = s.region a n ∧ t.agent.todo = [] ∧
      t.agent.pc = s.agent.pc + 1 ∧
      t = { s with
        agent := { s.agent with
          pc := t.agent.pc, bytes := t.agent.bytes, response := t.agent.response, draws := t.agent.draws } }

/-- A control statement makes no access: only the host changes, its program, its reads and its bytes stay, and only
`v <- e` changes a variable, to the value of `e`. The host continues after a label of the name the statement jumps to,
where the program has one, and with the next statement where the statement does not jump. Model's choices: an `if` that
compares an integer with a list finds them unequal and goes on with the next statement (log 14); with the order list used
up the idle machine's next step is the host's (log 5), one statement a step (log 6). -/
def Obligations.HostControlStatementsMakeNoAccess : Prop :=
  ∀ (s : State) (st : Stmt), s.status.busy = false → s.order = [] → s.agent.todo = [] →
    s.agent.prog[s.agent.pc]? = some st → isControl st = true →
    ∃ t : State, step s = .next t ∧
      t = { s with agent := { s.agent with pc := t.agent.pc, vars := t.agent.vars, draws := t.agent.draws } } ∧
      ((∀ x e, st ≠ .assign x e) → t.agent.vars = s.agent.vars) ∧
      (∀ x e, st = .assign x e →
        t.agent.vars.lookup x = some (s.agent.eval [0] e) ∧
          ∀ y ≠ x, t.agent.vars.lookup y = s.agent.vars.lookup y) ∧
      (jumpsTo s.agent st = none → t.agent.pc = s.agent.pc + 1) ∧
      (∀ name k : Nat, jumpsTo s.agent st = some name → s.agent.prog[k]? = some (.label name) →
        ∃ j : Nat, s.agent.prog[j]? = some (.label name) ∧ t.agent.pc = j + 1)

/-- `wr REG, v` puts the value of a host expression on the bus: for a variable that holds an integer of 32 bits, a
register write of that integer (R89, and with it the operands of the pseudo-instructions of R90). That the next step is
the host's is the model's choice (order list used up, log 5), as is one step for the statement (log 6). -/
def Obligations.WrWritesTheHostValue : Prop :=
  ∀ (s : State) (r : Reg) (x n : Nat), Serving s → s.status.busy = false → s.order = [] → s.agent.todo = [] →
    s.agent.prog[s.agent.pc]? = some (.wr r (.var x)) → s.agent.vars.lookup x = some (.int n) → n < 2 ^ 32 →
    ∃ t : State, step s = .next t ∧
      t = { s.writeReg (BitVec.ofNat 32 n) r with
        agent := { s.agent with pc := s.agent.pc + 1, draws := t.agent.draws } }

/-- A 32-bit host read at each of the 17 offsets of 10_state.md R22 returns the content R22 to R33 give that register,
and changes nothing of the block. -/
def Obligations.RegisterReadsReturnTheirFields : Prop :=
  ∀ s : State, Serving s → ∀ p ∈ registerContents s,
    ∃ t : State, s.serve (.read .word (s.params.blockBase + p.1)) = .next t ∧ t.agent.response.toNat = p.2 ∧
      t = { s with agent := t.agent }
end

