-- ==== Sys2Proof/Laws/State.lean ====
section
/-! SUPPORT. Laws/State.lean: what each shared update leaves in each field of State, so that no proof unfolds one. -/

namespace Sys2Proof.Machine

variable (s : State)

/-! ### `complete` -/

@[simp] theorem State.complete_irqEn : s.complete.irqEn = s.irqEn := rfl
@[simp] theorem State.complete_status :
    s.complete.status = { s.status with done := true, errCode := 0, busy := false } := rfl
@[simp] theorem State.complete_cmd : s.complete.cmd = s.cmd := rfl
@[simp] theorem State.complete_srcAddr : s.complete.srcAddr = s.srcAddr := rfl
@[simp] theorem State.complete_srcLen : s.complete.srcLen = s.srcLen := rfl
@[simp] theorem State.complete_dstAddr : s.complete.dstAddr = s.dstAddr := rfl
@[simp] theorem State.complete_dstCap : s.complete.dstCap = s.dstCap := rfl
@[simp] theorem State.complete_resultLen : s.complete.resultLen = s.resultLen := rfl
@[simp] theorem State.complete_data : s.complete.data = s.data := rfl
@[simp] theorem State.complete_writer : s.complete.writer = s.writer := rfl
@[simp] theorem State.complete_reader : s.complete.reader = s.reader := rfl
@[simp] theorem State.complete_latch : s.complete.latch = s.latch := rfl
@[simp] theorem State.complete_dmem : s.complete.dmem = s.dmem := rfl
@[simp] theorem State.complete_inReset : s.complete.inReset = s.inReset := rfl
@[simp] theorem State.complete_params : s.complete.params = s.params := rfl
@[simp] theorem State.complete_agent : s.complete.agent = s.agent := rfl
@[simp] theorem State.complete_order : s.complete.order = s.order := rfl
@[simp] theorem State.complete_draws : s.complete.draws = s.draws := rfl
@[simp] theorem State.complete_epoch : s.complete.epoch = s.epoch := rfl

/-! ### `raise` -/

@[simp] theorem State.raise_irqEn (e : Error) : (s.raise e).irqEn = s.irqEn := rfl
@[simp] theorem State.raise_status (e : Error) :
    (s.raise e).status = { s.status with err := true, errCode := e.code, busy := false } := rfl
@[simp] theorem State.raise_cmd (e : Error) : (s.raise e).cmd = s.cmd := rfl
@[simp] theorem State.raise_srcAddr (e : Error) : (s.raise e).srcAddr = s.srcAddr := rfl
@[simp] theorem State.raise_srcLen (e : Error) : (s.raise e).srcLen = s.srcLen := rfl
@[simp] theorem State.raise_dstAddr (e : Error) : (s.raise e).dstAddr = s.dstAddr := rfl
@[simp] theorem State.raise_dstCap (e : Error) : (s.raise e).dstCap = s.dstCap := rfl
@[simp] theorem State.raise_resultLen (e : Error) : (s.raise e).resultLen = 0 := rfl
@[simp] theorem State.raise_data (e : Error) : (s.raise e).data = s.data := rfl
@[simp] theorem State.raise_writer (e : Error) : (s.raise e).writer = s.writer := rfl
@[simp] theorem State.raise_reader (e : Error) : (s.raise e).reader = s.reader := rfl
@[simp] theorem State.raise_latch (e : Error) : (s.raise e).latch = s.latch := rfl
@[simp] theorem State.raise_dmem (e : Error) : (s.raise e).dmem = s.dmem := rfl
@[simp] theorem State.raise_inReset (e : Error) : (s.raise e).inReset = s.inReset := rfl
@[simp] theorem State.raise_params (e : Error) : (s.raise e).params = s.params := rfl
@[simp] theorem State.raise_agent (e : Error) : (s.raise e).agent = s.agent := rfl
@[simp] theorem State.raise_order (e : Error) : (s.raise e).order = s.order := rfl
@[simp] theorem State.raise_draws (e : Error) : (s.raise e).draws = s.draws := rfl
@[simp] theorem State.raise_epoch (e : Error) : (s.raise e).epoch = s.epoch := rfl

/-! ### `accept` -/

@[simp] theorem State.accept_irqEn (w : Word) : (s.accept w).irqEn = s.irqEn := rfl
@[simp] theorem State.accept_status (w : Word) :
    (s.accept w).status = { s.status with busy := true, done := false, err := false, errCode := 0 } := rfl
@[simp] theorem State.accept_cmd (w : Word) : (s.accept w).cmd = w := rfl
@[simp] theorem State.accept_srcAddr (w : Word) : (s.accept w).srcAddr = s.srcAddr := rfl
@[simp] theorem State.accept_srcLen (w : Word) : (s.accept w).srcLen = s.srcLen := rfl
@[simp] theorem State.accept_dstAddr (w : Word) : (s.accept w).dstAddr = s.dstAddr := rfl
@[simp] theorem State.accept_dstCap (w : Word) : (s.accept w).dstCap = s.dstCap := rfl
@[simp] theorem State.accept_resultLen (w : Word) : (s.accept w).resultLen = s.resultLen := rfl
@[simp] theorem State.accept_data (w : Word) : (s.accept w).data = s.data := rfl
@[simp] theorem State.accept_writer (w : Word) : (s.accept w).writer = s.writer := rfl
@[simp] theorem State.accept_reader (w : Word) : (s.accept w).reader = s.reader := rfl
@[simp] theorem State.accept_latch (w : Word) :
    (s.accept w).latch = ⟨w, s.srcAddr, s.srcLen, s.dstAddr, s.dstCap, s.data⟩ := rfl
@[simp] theorem State.accept_dmem (w : Word) : (s.accept w).dmem = s.dmem := rfl
@[simp] theorem State.accept_inReset (w : Word) : (s.accept w).inReset = s.inReset := rfl
@[simp] theorem State.accept_params (w : Word) : (s.accept w).params = s.params := rfl
@[simp] theorem State.accept_agent (w : Word) : (s.accept w).agent = s.agent := rfl
@[simp] theorem State.accept_order (w : Word) : (s.accept w).order = s.order := rfl
@[simp] theorem State.accept_draws (w : Word) : (s.accept w).draws = s.draws := rfl
@[simp] theorem State.accept_epoch (w : Word) : (s.accept w).epoch = s.epoch := rfl

/-! ### `acknowledge` -/

@[simp] theorem State.acknowledge_irqEn (v : Word) : (s.acknowledge v).irqEn = s.irqEn := rfl
@[simp] theorem State.acknowledge_status (v : Word) : (s.acknowledge v).status = s.status.clear v := rfl
@[simp] theorem State.acknowledge_cmd (v : Word) : (s.acknowledge v).cmd = s.cmd := rfl
@[simp] theorem State.acknowledge_srcAddr (v : Word) : (s.acknowledge v).srcAddr = s.srcAddr := rfl
@[simp] theorem State.acknowledge_srcLen (v : Word) : (s.acknowledge v).srcLen = s.srcLen := rfl
@[simp] theorem State.acknowledge_dstAddr (v : Word) : (s.acknowledge v).dstAddr = s.dstAddr := rfl
@[simp] theorem State.acknowledge_dstCap (v : Word) : (s.acknowledge v).dstCap = s.dstCap := rfl
@[simp] theorem State.acknowledge_resultLen (v : Word) : (s.acknowledge v).resultLen = s.resultLen := rfl
@[simp] theorem State.acknowledge_data (v : Word) : (s.acknowledge v).data = s.data := rfl
@[simp] theorem State.acknowledge_writer (v : Word) : (s.acknowledge v).writer = s.writer := rfl
@[simp] theorem State.acknowledge_reader (v : Word) : (s.acknowledge v).reader = s.reader := rfl
@[simp] theorem State.acknowledge_latch (v : Word) : (s.acknowledge v).latch = s.latch := rfl
@[simp] theorem State.acknowledge_dmem (v : Word) : (s.acknowledge v).dmem = s.dmem := rfl
@[simp] theorem State.acknowledge_inReset (v : Word) : (s.acknowledge v).inReset = s.inReset := rfl
@[simp] theorem State.acknowledge_params (v : Word) : (s.acknowledge v).params = s.params := rfl
@[simp] theorem State.acknowledge_agent (v : Word) : (s.acknowledge v).agent = s.agent := rfl
@[simp] theorem State.acknowledge_order (v : Word) : (s.acknowledge v).order = s.order := rfl
@[simp] theorem State.acknowledge_draws (v : Word) : (s.acknowledge v).draws = s.draws := rfl
@[simp] theorem State.acknowledge_epoch (v : Word) : (s.acknowledge v).epoch = s.epoch := rfl

/-! ### `writeBytes` -/

@[simp] theorem State.writeBytes_irqEn (a : Nat) (bs : List Byte) : (s.writeBytes a bs).irqEn = s.irqEn := rfl
@[simp] theorem State.writeBytes_status (a : Nat) (bs : List Byte) : (s.writeBytes a bs).status = s.status := rfl
@[simp] theorem State.writeBytes_cmd (a : Nat) (bs : List Byte) : (s.writeBytes a bs).cmd = s.cmd := rfl
@[simp] theorem State.writeBytes_srcAddr (a : Nat) (bs : List Byte) : (s.writeBytes a bs).srcAddr = s.srcAddr := rfl
@[simp] theorem State.writeBytes_srcLen (a : Nat) (bs : List Byte) : (s.writeBytes a bs).srcLen = s.srcLen := rfl
@[simp] theorem State.writeBytes_dstAddr (a : Nat) (bs : List Byte) : (s.writeBytes a bs).dstAddr = s.dstAddr := rfl
@[simp] theorem State.writeBytes_dstCap (a : Nat) (bs : List Byte) : (s.writeBytes a bs).dstCap = s.dstCap := rfl
@[simp] theorem State.writeBytes_resultLen (a : Nat) (bs : List Byte) :
    (s.writeBytes a bs).resultLen = s.resultLen := rfl
@[simp] theorem State.writeBytes_data (a : Nat) (bs : List Byte) : (s.writeBytes a bs).data = s.data := rfl
@[simp] theorem State.writeBytes_writer (a : Nat) (bs : List Byte) : (s.writeBytes a bs).writer = s.writer := rfl
@[simp] theorem State.writeBytes_reader (a : Nat) (bs : List Byte) : (s.writeBytes a bs).reader = s.reader := rfl
@[simp] theorem State.writeBytes_latch (a : Nat) (bs : List Byte) : (s.writeBytes a bs).latch = s.latch := rfl
@[simp] theorem State.writeBytes_dmem (a : Nat) (bs : List Byte) :
    (s.writeBytes a bs).dmem = s.dmem.splice a bs := rfl
@[simp] theorem State.writeBytes_inReset (a : Nat) (bs : List Byte) : (s.writeBytes a bs).inReset = s.inReset := rfl
@[simp] theorem State.writeBytes_params (a : Nat) (bs : List Byte) : (s.writeBytes a bs).params = s.params := rfl
@[simp] theorem State.writeBytes_agent (a : Nat) (bs : List Byte) : (s.writeBytes a bs).agent = s.agent := rfl
@[simp] theorem State.writeBytes_order (a : Nat) (bs : List Byte) : (s.writeBytes a bs).order = s.order := rfl
@[simp] theorem State.writeBytes_draws (a : Nat) (bs : List Byte) : (s.writeBytes a bs).draws = s.draws := rfl
@[simp] theorem State.writeBytes_epoch (a : Nat) (bs : List Byte) : (s.writeBytes a bs).epoch = s.epoch := rfl

/-! ### `unspecify` -/

@[simp] theorem State.unspecify_irqEn (a n : Nat) : (s.unspecify a n).irqEn = s.irqEn := rfl
@[simp] theorem State.unspecify_status (a n : Nat) : (s.unspecify a n).status = s.status := rfl
@[simp] theorem State.unspecify_cmd (a n : Nat) : (s.unspecify a n).cmd = s.cmd := rfl
@[simp] theorem State.unspecify_srcAddr (a n : Nat) : (s.unspecify a n).srcAddr = s.srcAddr := rfl
@[simp] theorem State.unspecify_srcLen (a n : Nat) : (s.unspecify a n).srcLen = s.srcLen := rfl
@[simp] theorem State.unspecify_dstAddr (a n : Nat) : (s.unspecify a n).dstAddr = s.dstAddr := rfl
@[simp] theorem State.unspecify_dstCap (a n : Nat) : (s.unspecify a n).dstCap = s.dstCap := rfl
@[simp] theorem State.unspecify_resultLen (a n : Nat) : (s.unspecify a n).resultLen = s.resultLen := rfl
@[simp] theorem State.unspecify_data (a n : Nat) : (s.unspecify a n).data = s.data := rfl
@[simp] theorem State.unspecify_writer (a n : Nat) : (s.unspecify a n).writer = s.writer := rfl
@[simp] theorem State.unspecify_reader (a n : Nat) : (s.unspecify a n).reader = s.reader := rfl
@[simp] theorem State.unspecify_latch (a n : Nat) : (s.unspecify a n).latch = s.latch := rfl
@[simp] theorem State.unspecify_dmem (a n : Nat) :
    (s.unspecify a n).dmem = s.dmem.splice a ((List.range n).map fun i => Config.freeByte s.draws (a + i)) := rfl
@[simp] theorem State.unspecify_inReset (a n : Nat) : (s.unspecify a n).inReset = s.inReset := rfl
@[simp] theorem State.unspecify_params (a n : Nat) : (s.unspecify a n).params = s.params := rfl
@[simp] theorem State.unspecify_agent (a n : Nat) : (s.unspecify a n).agent = s.agent := rfl
@[simp] theorem State.unspecify_order (a n : Nat) : (s.unspecify a n).order = s.order := rfl
@[simp] theorem State.unspecify_draws (a n : Nat) : (s.unspecify a n).draws = s.draws + 1 := rfl
@[simp] theorem State.unspecify_epoch (a n : Nat) : (s.unspecify a n).epoch = s.epoch := rfl

/-! ### `resetRegisters` -/

@[simp] theorem State.resetRegisters_irqEn : s.resetRegisters.irqEn = s.irqEn := rfl
@[simp] theorem State.resetRegisters_status : s.resetRegisters.status = Status.reset := rfl
@[simp] theorem State.resetRegisters_cmd : s.resetRegisters.cmd = 0 := rfl
@[simp] theorem State.resetRegisters_srcAddr : s.resetRegisters.srcAddr = 0 := rfl
@[simp] theorem State.resetRegisters_srcLen : s.resetRegisters.srcLen = 0 := rfl
@[simp] theorem State.resetRegisters_dstAddr : s.resetRegisters.dstAddr = 0 := rfl
@[simp] theorem State.resetRegisters_dstCap : s.resetRegisters.dstCap = 0 := rfl
@[simp] theorem State.resetRegisters_resultLen : s.resetRegisters.resultLen = 0 := rfl
@[simp] theorem State.resetRegisters_data : s.resetRegisters.data = 0 := rfl
@[simp] theorem State.resetRegisters_writer : s.resetRegisters.writer = Writer.reset := rfl
@[simp] theorem State.resetRegisters_reader : s.resetRegisters.reader = Reader.reset := rfl
@[simp] theorem State.resetRegisters_latch : s.resetRegisters.latch = Latch.reset := rfl
@[simp] theorem State.resetRegisters_dmem : s.resetRegisters.dmem = s.dmem := rfl
@[simp] theorem State.resetRegisters_inReset : s.resetRegisters.inReset = s.inReset := rfl
@[simp] theorem State.resetRegisters_params : s.resetRegisters.params = s.params := rfl
@[simp] theorem State.resetRegisters_agent : s.resetRegisters.agent = s.agent := rfl
@[simp] theorem State.resetRegisters_order : s.resetRegisters.order = s.order := rfl
@[simp] theorem State.resetRegisters_draws : s.resetRegisters.draws = s.draws := rfl
@[simp] theorem State.resetRegisters_epoch : s.resetRegisters.epoch = s.epoch := rfl

/-! ### `hardReset` -/

@[simp] theorem State.hardReset_irqEn : s.hardReset.irqEn = false := rfl
@[simp] theorem State.hardReset_status : s.hardReset.status = Status.reset := rfl
@[simp] theorem State.hardReset_cmd : s.hardReset.cmd = 0 := rfl
@[simp] theorem State.hardReset_srcAddr : s.hardReset.srcAddr = 0 := rfl
@[simp] theorem State.hardReset_srcLen : s.hardReset.srcLen = 0 := rfl
@[simp] theorem State.hardReset_dstAddr : s.hardReset.dstAddr = 0 := rfl
@[simp] theorem State.hardReset_dstCap : s.hardReset.dstCap = 0 := rfl
@[simp] theorem State.hardReset_resultLen : s.hardReset.resultLen = 0 := rfl
@[simp] theorem State.hardReset_data : s.hardReset.data = 0 := rfl
@[simp] theorem State.hardReset_writer : s.hardReset.writer = Writer.reset := rfl
@[simp] theorem State.hardReset_reader : s.hardReset.reader = Reader.reset := rfl
@[simp] theorem State.hardReset_latch : s.hardReset.latch = Latch.reset := rfl
@[simp] theorem State.hardReset_dmem : s.hardReset.dmem = [] := rfl
@[simp] theorem State.hardReset_inReset : s.hardReset.inReset = true := rfl
@[simp] theorem State.hardReset_params : s.hardReset.params = s.params := rfl
@[simp] theorem State.hardReset_agent : s.hardReset.agent = s.agent := rfl
@[simp] theorem State.hardReset_order : s.hardReset.order = s.order := rfl
@[simp] theorem State.hardReset_draws : s.hardReset.draws = s.draws + 1 := rfl
@[simp] theorem State.hardReset_epoch : s.hardReset.epoch = s.draws := rfl

/-! ### `advance` -/

@[simp] theorem State.advance_irqEn : s.advance.irqEn = s.irqEn := rfl
@[simp] theorem State.advance_status : s.advance.status = s.status := rfl
@[simp] theorem State.advance_cmd : s.advance.cmd = s.cmd := rfl
@[simp] theorem State.advance_srcAddr : s.advance.srcAddr = s.srcAddr := rfl
@[simp] theorem State.advance_srcLen : s.advance.srcLen = s.srcLen := rfl
@[simp] theorem State.advance_dstAddr : s.advance.dstAddr = s.dstAddr := rfl
@[simp] theorem State.advance_dstCap : s.advance.dstCap = s.dstCap := rfl
@[simp] theorem State.advance_resultLen : s.advance.resultLen = s.resultLen := rfl
@[simp] theorem State.advance_data : s.advance.data = s.data := rfl
@[simp] theorem State.advance_writer : s.advance.writer = s.writer := rfl
@[simp] theorem State.advance_reader : s.advance.reader = s.reader := rfl
@[simp] theorem State.advance_latch : s.advance.latch = s.latch := rfl
@[simp] theorem State.advance_dmem : s.advance.dmem = s.dmem := rfl
@[simp] theorem State.advance_inReset : s.advance.inReset = s.inReset := rfl
@[simp] theorem State.advance_params : s.advance.params = s.params := rfl
@[simp] theorem State.advance_agent :
    s.advance.agent = { s.agent with pc := s.agent.pc + 1, draws := s.agent.draws + 1 } := rfl
@[simp] theorem State.advance_order : s.advance.order = s.order := rfl
@[simp] theorem State.advance_draws : s.advance.draws = s.draws := rfl
@[simp] theorem State.advance_epoch : s.advance.epoch = s.epoch := rfl

/-! ### `jump` and `setVar` -/

@[simp] theorem State.jump_irqEn (n : Nat) : (s.jump n).irqEn = s.irqEn := rfl
@[simp] theorem State.jump_status (n : Nat) : (s.jump n).status = s.status := rfl
@[simp] theorem State.jump_cmd (n : Nat) : (s.jump n).cmd = s.cmd := rfl
@[simp] theorem State.jump_srcAddr (n : Nat) : (s.jump n).srcAddr = s.srcAddr := rfl
@[simp] theorem State.jump_srcLen (n : Nat) : (s.jump n).srcLen = s.srcLen := rfl
@[simp] theorem State.jump_dstAddr (n : Nat) : (s.jump n).dstAddr = s.dstAddr := rfl
@[simp] theorem State.jump_dstCap (n : Nat) : (s.jump n).dstCap = s.dstCap := rfl
@[simp] theorem State.jump_resultLen (n : Nat) : (s.jump n).resultLen = s.resultLen := rfl
@[simp] theorem State.jump_data (n : Nat) : (s.jump n).data = s.data := rfl
@[simp] theorem State.jump_writer (n : Nat) : (s.jump n).writer = s.writer := rfl
@[simp] theorem State.jump_reader (n : Nat) : (s.jump n).reader = s.reader := rfl
@[simp] theorem State.jump_latch (n : Nat) : (s.jump n).latch = s.latch := rfl
@[simp] theorem State.jump_dmem (n : Nat) : (s.jump n).dmem = s.dmem := rfl
@[simp] theorem State.jump_inReset (n : Nat) : (s.jump n).inReset = s.inReset := rfl
@[simp] theorem State.jump_params (n : Nat) : (s.jump n).params = s.params := rfl
@[simp] theorem State.jump_order (n : Nat) : (s.jump n).order = s.order := rfl
@[simp] theorem State.jump_draws (n : Nat) : (s.jump n).draws = s.draws := rfl
@[simp] theorem State.jump_epoch (n : Nat) : (s.jump n).epoch = s.epoch := rfl
@[simp] theorem State.jump_agent (n : Nat) :
    (s.jump n).agent = { s.agent with pc := s.agent.jumpTarget n, draws := s.agent.draws + 1 } := rfl
@[simp] theorem State.setVar_irqEn (x : Nat) (v : Value) : (s.setVar x v).irqEn = s.irqEn := rfl
@[simp] theorem State.setVar_status (x : Nat) (v : Value) : (s.setVar x v).status = s.status := rfl
@[simp] theorem State.setVar_cmd (x : Nat) (v : Value) : (s.setVar x v).cmd = s.cmd := rfl
@[simp] theorem State.setVar_srcAddr (x : Nat) (v : Value) : (s.setVar x v).srcAddr = s.srcAddr := rfl
@[simp] theorem State.setVar_srcLen (x : Nat) (v : Value) : (s.setVar x v).srcLen = s.srcLen := rfl
@[simp] theorem State.setVar_dstAddr (x : Nat) (v : Value) : (s.setVar x v).dstAddr = s.dstAddr := rfl
@[simp] theorem State.setVar_dstCap (x : Nat) (v : Value) : (s.setVar x v).dstCap = s.dstCap := rfl
@[simp] theorem State.setVar_resultLen (x : Nat) (v : Value) : (s.setVar x v).resultLen = s.resultLen := rfl
@[simp] theorem State.setVar_data (x : Nat) (v : Value) : (s.setVar x v).data = s.data := rfl
@[simp] theorem State.setVar_writer (x : Nat) (v : Value) : (s.setVar x v).writer = s.writer := rfl
@[simp] theorem State.setVar_reader (x : Nat) (v : Value) : (s.setVar x v).reader = s.reader := rfl
@[simp] theorem State.setVar_latch (x : Nat) (v : Value) : (s.setVar x v).latch = s.latch := rfl
@[simp] theorem State.setVar_dmem (x : Nat) (v : Value) : (s.setVar x v).dmem = s.dmem := rfl
@[simp] theorem State.setVar_inReset (x : Nat) (v : Value) : (s.setVar x v).inReset = s.inReset := rfl
@[simp] theorem State.setVar_params (x : Nat) (v : Value) : (s.setVar x v).params = s.params := rfl
@[simp] theorem State.setVar_order (x : Nat) (v : Value) : (s.setVar x v).order = s.order := rfl
@[simp] theorem State.setVar_draws (x : Nat) (v : Value) : (s.setVar x v).draws = s.draws := rfl
@[simp] theorem State.setVar_epoch (x : Nat) (v : Value) : (s.setVar x v).epoch = s.epoch := rfl
@[simp] theorem State.setVar_agent (x : Nat) (v : Value) :
    (s.setVar x v).agent = { s.agent with vars := (x, v) :: s.agent.vars.filter (fun e => e.1 ≠ x) } := rfl

end Sys2Proof.Machine
end

