-- ==== Sys2Proof/Laws/Memory.lean ====
section
/-! SUPPORT. Laws/Memory.lean: the laws of data memory. A write is seen where it falls and nowhere else, and every
memory operation keeps the canonical form. -/

namespace Sys2Proof.Machine

theorem Memory.cellsFrom_length (a : Nat) (bs : List Byte) : (Memory.cellsFrom a bs).length = bs.length := by
  induction bs generalizing a with
  | nil => rfl
  | cons b bs ih => simp [Memory.cellsFrom, ih]

/-- The entries of `cellsFrom a bs` lie in `[a, a + len(bs))`. -/
theorem Memory.mem_cellsFrom {a : Nat} {bs : List Byte} {c : Host.Cell} (h : c ∈ Memory.cellsFrom a bs) :
    a ≤ c.1 ∧ c.1 < a + bs.length := by
  induction bs generalizing a with
  | nil => simp [Memory.cellsFrom] at h
  | cons b bs ih =>
    rcases List.mem_cons.mp h with rfl | h
    · simp
    · have := ih h
      simp only [List.length_cons]
      omega

theorem Memory.cellsFrom_pairwise (a : Nat) (bs : List Byte) :
    (Memory.cellsFrom a bs).Pairwise (fun c d => c.1 < d.1) := by
  induction bs generalizing a with
  | nil => exact List.Pairwise.nil
  | cons b bs ih =>
    refine List.Pairwise.cons (fun d hd => ?_) (ih (a + 1))
    exact Nat.lt_of_succ_le (Memory.mem_cellsFrom hd).1

/-- What `cellsFrom a bs` holds at an offset. -/
theorem Memory.find_cellsFrom (a b : Nat) (bs : List Byte) :
    Memory.find (Memory.cellsFrom a bs) b = if a ≤ b then bs[b - a]? else none := by
  induction bs generalizing a with
  | nil => simp [Memory.cellsFrom, Memory.find]
  | cons c bs ih =>
    simp only [Memory.cellsFrom, Memory.find, List.lookup_cons]
    rcases Nat.lt_trichotomy b a with h | h | h
    · have hb : (b == a) = false := by simpa using by omega
      have := ih (a + 1)
      simp only [Memory.find] at this
      simp only [hb, this]
      rw [if_neg (by omega), if_neg (by omega)]
    · subst h; simp
    · have hb : (b == a) = false := by simpa using by omega
      have := ih (a + 1)
      simp only [Memory.find] at this
      simp only [hb, this]
      rw [if_pos (by omega), if_pos (by omega)]
      have hs : b - a = (b - (a + 1)) + 1 := by omega
      rw [hs, List.getElem?_cons_succ]

theorem Memory.find_append (m m' : Memory) (b : Nat) :
    Memory.find (m ++ m') b = (Memory.find m b).or (Memory.find m' b) := by
  induction m with
  | nil => rfl
  | cons c m ih =>
    simp only [Memory.find, List.cons_append] at ih ⊢
    rw [List.lookup_cons, List.lookup_cons, ih]
    cases b == c.1 <;> simp

/-- Filtering on the offset keeps an entry that passes and hides one that does not. -/
theorem Memory.find_filter (m : Memory) (p : Nat → Bool) (b : Nat) :
    Memory.find (m.filter fun c => p c.1) b = if p b then Memory.find m b else none := by
  induction m with
  | nil => simp [Memory.find]
  | cons c m ih =>
    simp only [Memory.find] at ih ⊢
    by_cases hc : p c.1 = true
    · rw [List.filter_cons_of_pos (by simpa using hc), List.lookup_cons, List.lookup_cons, ih]
      by_cases hb : b = c.1
      · subst hb; simp [hc]
      · have hb' : (b == c.1) = false := by simpa using hb
        simp [hb']
    · rw [List.filter_cons_of_neg (by simpa using hc), ih, List.lookup_cons]
      by_cases hb : b = c.1
      · subst hb; simp [hc]
      · have hb' : (b == c.1) = false := by simpa using hb
        simp [hb']

/-- A read after a write: inside the written bytes the byte written, outside what was there. -/
theorem Memory.find_splice (m : Memory) (a b : Nat) (bs : List Byte) :
    (m.splice a bs).find b = if a ≤ b ∧ b < a + bs.length then bs[b - a]? else m.find b := by
  have h1 := Memory.find_filter m (fun x => decide (x < a)) b
  have h2 := Memory.find_filter m (fun x => decide (a + bs.length ≤ x)) b
  rw [Memory.splice, Memory.find_append, Memory.find_append, Memory.find_cellsFrom, h1, h2]
  by_cases hlo : b < a
  · have : ¬ a ≤ b := by omega
    simp only [hlo, this, decide_true, if_true, if_false, false_and]
    have : ¬ a + bs.length ≤ b := by omega
    simp [this]
  · have hle : a ≤ b := by omega
    by_cases hhi : b < a + bs.length
    · have : ¬ a + bs.length ≤ b := by omega
      simp [hlo, hle, hhi, this]
    · have hge : a + bs.length ≤ b := by omega
      have hn : bs[b - a]? = none := List.getElem?_eq_none (by omega)
      simp [hlo, hhi, hge, hn]

/-- Every memory operation keeps the canonical form. -/
theorem Memory.wf_splice {size : Nat} {m : Memory} {a : Nat} {bs : List Byte} (hm : Memory.wf size m)
    (hb : bs = [] ∨ a + bs.length ≤ size) : Memory.wf size (m.splice a bs) := by
  obtain ⟨hp, hs⟩ := hm
  refine ⟨?_, ?_⟩
  · rw [Memory.splice, List.pairwise_append, List.pairwise_append]
    refine ⟨hp.filter _, ⟨Memory.cellsFrom_pairwise a bs, hp.filter _, ?_⟩, ?_⟩
    · intro c hc d hd
      have h1 := (Memory.mem_cellsFrom hc).2
      have h2 := (List.mem_filter.mp hd).2
      simp only [decide_eq_true_eq] at h2
      omega
    · intro c hc d hd
      have h1 := (List.mem_filter.mp hc).2
      simp only [decide_eq_true_eq] at h1
      rcases List.mem_append.mp hd with hd | hd
      · have := (Memory.mem_cellsFrom hd).1; omega
      · have h2 := (List.mem_filter.mp hd).2
        simp only [decide_eq_true_eq] at h2
        omega
  · intro c hc
    rcases List.mem_append.mp hc with hc | hc
    · exact hs c (List.mem_of_mem_filter hc)
    · rcases List.mem_append.mp hc with hc | hc
      · rcases hb with rfl | hb
        · simp [Memory.cellsFrom] at hc
        · have := (Memory.mem_cellsFrom hc).2; omega
      · exact hs c (List.mem_of_mem_filter hc)

/-- The empty memory is in canonical form. -/
theorem Memory.wf_nil (size : Nat) : Memory.wf size [] := by simp [Memory.wf]

/-- A byte after a write (20_memory.md R66). -/
theorem State.readByte_writeBytes (s : State) (a b : Nat) (bs : List Byte) :
    (s.writeBytes a bs).readByte b =
      if h : a ≤ b ∧ b < a + bs.length then bs[b - a]'(by omega) else s.readByte b := by
  unfold State.readByte
  rw [State.writeBytes_dmem, State.writeBytes_epoch, Memory.find_splice]
  by_cases h : a ≤ b ∧ b < a + bs.length
  · rw [if_pos h, dif_pos h, List.getElem?_eq_getElem (by omega)]; rfl
  · rw [if_neg h, dif_neg h]

/-- A write leaves every byte outside it alone. -/
theorem State.readByte_writeBytes_outside {s : State} {a b : Nat} {bs : List Byte}
    (h : b < a ∨ a + bs.length ≤ b) : (s.writeBytes a bs).readByte b = s.readByte b := by
  rw [State.readByte_writeBytes, dif_neg (by omega)]

/-- A byte after a region has become unspecified: a fresh free value inside it, what was there outside. -/
theorem State.readByte_unspecify (s : State) (a n b : Nat) :
    (s.unspecify a n).readByte b =
      if a ≤ b ∧ b < a + n then Config.freeByte s.draws b else s.readByte b := by
  unfold State.readByte
  rw [State.unspecify_dmem, State.unspecify_epoch, Memory.find_splice, List.length_map, List.length_range]
  by_cases h : a ≤ b ∧ b < a + n
  · rw [if_pos h, if_pos h, List.getElem?_map, List.getElem?_range (by omega)]
    simp [show a + (b - a) = b by omega]
  · rw [if_neg h, if_neg h]

/-- The length of a region. -/
@[simp] theorem State.region_length (s : State) (a n : Nat) : (s.region a n).length = n := by
  simp [State.region]

/-- A region is decided by its bytes. -/
theorem State.region_congr {s t : State} {a n : Nat}
    (h : ∀ b, a ≤ b → b < a + n → s.readByte b = t.readByte b) : s.region a n = t.region a n := by
  refine List.map_congr_left fun i hi => h _ (by omega) ?_
  have := List.mem_range.mp hi
  omega

theorem State.writeBytes_wf {s : State} {a : Nat} {bs : List Byte} (hs : Memory.wf s.params.dmemSize s.dmem)
    (hb : bs = [] ∨ a + bs.length ≤ s.params.dmemSize) :
    Memory.wf s.params.dmemSize (s.writeBytes a bs).dmem := Memory.wf_splice hs hb

theorem State.unspecify_wf {s : State} {a n : Nat} (hs : Memory.wf s.params.dmemSize s.dmem)
    (hb : n = 0 ∨ a + n ≤ s.params.dmemSize) : Memory.wf s.params.dmemSize (s.unspecify a n).dmem := by
  refine Memory.wf_splice hs ?_
  rcases hb with rfl | hb
  · exact .inl rfl
  · exact .inr (by simpa using hb)

end Sys2Proof.Machine
end

