-- ==== Sys2Proof/Laws/Ops.lean ====
section
/-! SUPPORT. Laws/Ops.lean: for each shared operation, everything it can do, said once; proofs cite these instead of
unfolding the operation. -/

namespace Sys2Proof.Machine

/-! ### Numbers and bytes -/

@[simp] theorem leBytes_length (n v : Nat) : (leBytes n v).length = n := by
  induction n generalizing v with
  | zero => rfl
  | succ n ih => simp [leBytes, ih]

/-- The number of the bytes of a number is its low part. -/
theorem leValue_leBytes (n v : Nat) : leValue (leBytes n v) = v % 256 ^ n := by
  induction n generalizing v with
  | zero => simp [leBytes, leValue, Nat.mod_one]
  | succ n ih =>
    have h : 256 ^ (n + 1) = 256 * 256 ^ n := Nat.pow_succ'
    rw [leBytes, leValue, ih, BitVec.toNat_ofNat, h]
    exact (Nat.mod_mul (x := v) (a := 256) (b := 256 ^ n)).symm

theorem leValue_lt (bs : List Byte) : leValue bs < 256 ^ bs.length := by
  induction bs with
  | nil => simp [leValue]
  | cons b bs ih =>
    have hb : b.toNat < 256 := b.isLt
    rw [leValue, List.length_cons, Nat.pow_succ']
    omega

theorem readBits_lt (byteAt : Nat → Byte) (p w : Nat) : readBits byteAt p w < 2 ^ w := by
  induction w with
  | zero => simp [readBits]
  | succ i ih =>
    have hb : (streamBit byteAt (p + i)).toNat ≤ 1 := Bool.toNat_le _
    rw [readBits, Nat.pow_succ]
    have : (streamBit byteAt (p + i)).toNat * 2 ^ i ≤ 1 * 2 ^ i := Nat.mul_le_mul_right _ hb
    omega

/-! ### NBITS -/

theorem openWidth_eq_some {n w : BitVec 5} :
    openWidth n = some w ↔ n.toNat ≤ 16 ∧ w = if n = 0 then 8 else n := by
  unfold openWidth openNbitsOk
  by_cases h : n.toNat ≤ 16
  · simp only [h, decide_true, Bool.not_true, Bool.false_eq_true, if_false, true_and, Option.some.injEq]
    exact eq_comm
  · simp [h]

theorem setwWidth_eq_some {n w : BitVec 5} :
    setwWidth n = some w ↔ (1 ≤ n.toNat ∧ n.toNat ≤ 16) ∧ w = n := by
  unfold setwWidth setwNbitsOk
  by_cases h : 1 ≤ n.toNat ∧ n.toNat ≤ 16
  · simp only [h, Bool.and_eq_true, decide_eq_true_eq, if_true, true_and, Option.some.injEq, and_self]
    exact eq_comm
  · simp only [Bool.and_eq_true, decide_eq_true_eq, h, if_false, false_and, reduceCtorEq]

theorem lzwMaxBits_eq_some {n : BitVec 5} {m : Nat} :
    lzwMaxBits n = some m ↔
      (n.toNat = 0 ∨ (9 ≤ n.toNat ∧ n.toNat ≤ 16)) ∧ m = if n = 0 then 16 else n.toNat := by
  unfold lzwMaxBits lzwNbitsOk
  by_cases h : n.toNat = 0 ∨ (9 ≤ n.toNat ∧ n.toNat ≤ 16)
  · have : (n.toNat == 0 || (decide (9 ≤ n.toNat) && decide (n.toNat ≤ 16))) = true := by simpa using h
    simp only [this, h, Bool.not_true, Bool.false_eq_true, if_false, true_and, Option.some.injEq]
    exact eq_comm
  · have : (n.toNat == 0 || (decide (9 ≤ n.toNat) && decide (n.toNat ≤ 16))) = false := by
      simpa [not_or, not_and] using h
    simp [this, h]

/-- A width NBITS names for an open is legal. -/
theorem openWidth_range {n w : BitVec 5} (h : openWidth n = some w) : 1 ≤ w.toNat ∧ w.toNat ≤ 16 := by
  obtain ⟨hn, rfl⟩ := openWidth_eq_some.mp h
  split
  · decide
  · rename_i h0
    refine ⟨Nat.one_le_iff_ne_zero.mpr fun hz => h0 ?_, hn⟩
    exact BitVec.eq_of_toNat_eq (by simpa using hz)

/-! ### The buffer-transform template -/

/-- Everything `transformInto` can do: a data error, an output too long, or a success (40_command_cycle.md R107). -/
theorem State.transformInto_cases (s : State) (F : List Byte → Result) (base cap : Nat) :
    (∃ e, F (s.region s.latch.srcAddr.toNat s.latch.srcLen.toNat) = .err e ∧
        s.transformInto F base cap = (s.unspecify base cap).raise e) ∨
      (∃ y, F (s.region s.latch.srcAddr.toNat s.latch.srcLen.toNat) = .ok y ∧ cap < y.length ∧
        s.transformInto F base cap = (s.unspecify base cap).raise .outputOverflow) ∨
      (∃ y, F (s.region s.latch.srcAddr.toNat s.latch.srcLen.toNat) = .ok y ∧ y.length ≤ cap ∧
        s.transformInto F base cap =
          State.complete { s.writeBytes base y with resultLen := BitVec.ofNat 32 y.length }) := by
  unfold State.transformInto
  cases h : F (s.region s.latch.srcAddr.toNat s.latch.srcLen.toNat) with
  | err e => exact .inl ⟨e, rfl, rfl⟩
  | ok y =>
    by_cases hc : cap < y.length
    · exact .inr (.inl ⟨y, rfl, hc, by simp [hc]⟩)
    · exact .inr (.inr ⟨y, rfl, Nat.le_of_not_lt hc, by simp [hc]⟩)

theorem State.validRegion_iff (s : State) (a n : Word) :
    s.validRegion a n = true ↔ a.toNat + n.toNat ≤ s.params.dmemSize := by
  simp [State.validRegion, State.inDmem]

/-- Everything `transform` can do: a bad region, an overlap, or the end of the template on valid regions that do not
overlap (40_command_cycle.md R105 to R107). -/
theorem State.transform_cases (s : State) (F : List Byte → Result) :
    ((s.validRegion s.latch.srcAddr s.latch.srcLen = false ∨ s.validRegion s.latch.dstAddr s.latch.dstCap = false) ∧
        s.transform F = s.raise .badAddress) ∨
      (s.validRegion s.latch.srcAddr s.latch.srcLen = true ∧ s.validRegion s.latch.dstAddr s.latch.dstCap = true ∧
        s.latch.overlaps = true ∧ s.transform F = s.raise .bufferOverlap) ∨
      (s.validRegion s.latch.srcAddr s.latch.srcLen = true ∧ s.validRegion s.latch.dstAddr s.latch.dstCap = true ∧
        s.latch.overlaps = false ∧
        s.transform F = s.transformInto F s.latch.dstAddr.toNat s.latch.dstCap.toNat) := by
  unfold State.transform
  cases h1 : s.validRegion s.latch.srcAddr s.latch.srcLen
  · exact .inl ⟨.inl rfl, by simp⟩
  cases h2 : s.validRegion s.latch.dstAddr s.latch.dstCap
  · exact .inl ⟨.inr rfl, by simp⟩
  cases h3 : s.latch.overlaps
  · exact .inr (.inr ⟨rfl, rfl, rfl, by simp⟩)
  · exact .inr (.inl ⟨rfl, rfl, rfl, by simp⟩)

/-- Everything `transformInPlace` can do (45_mtf.md R212). -/
theorem State.transformInPlace_cases (s : State) (F : List Byte → Result) :
    (s.validRegion s.latch.srcAddr s.latch.srcLen = false ∧ s.transformInPlace F = s.raise .badAddress) ∨
      (s.validRegion s.latch.srcAddr s.latch.srcLen = true ∧
        s.transformInPlace F = s.transformInto F s.latch.srcAddr.toNat s.latch.srcLen.toNat) := by
  unfold State.transformInPlace
  cases h1 : s.validRegion s.latch.srcAddr s.latch.srcLen
  · exact .inl ⟨rfl, by simp⟩
  · exact .inr ⟨rfl, by simp⟩

/-! ### The register map -/

/-- The register at an offset of the map is that register. -/
theorem Reg.at?_offset (r : Reg) : Reg.at? r.offset = some r := by cases r <;> rfl

/-- There is a register at an offset exactly when the offset is one of the map. -/
theorem Reg.at?_eq_some {o : Nat} {r : Reg} : Reg.at? o = some r ↔ r.offset = o := by
  constructor
  · intro h
    simpa using List.find?_some h
  · rintro rfl
    exact Reg.at?_offset r

/-- A reserved offset has no register (10_state.md R34). -/
theorem Reg.at?_reserved {o : Nat} (h : 0x44 ≤ o) : Reg.at? o = none := by
  unfold Reg.at?
  rw [List.find?_eq_none]
  intro r _
  cases r <;> simp [Reg.offset] <;> omega

@[simp] theorem State.readOffset_reg (s : State) (r : Reg) : s.readOffset r.offset = s.readReg r := by
  rw [State.readOffset, Reg.at?_offset]

@[simp] theorem State.writeOffset_reg (s : State) (r : Reg) (v : Word) :
    s.writeOffset r.offset v = s.writeReg v r := by
  rw [State.writeOffset, Reg.at?_offset]

/-! ### Host accesses -/

/-- A register's bus address reaches the register. -/
theorem State.route_regAddr (s : State) (r : Reg) : s.route .word (s.regAddr r) = some (.register r.offset) := by
  unfold State.route State.regAddr Config.windowOffset
  cases r <;> simp [Reg.offset]

/-- What reaches a register offset: a 32-bit access at a multiple of 4 below the window (20_memory.md R60, R62). -/
theorem State.route_eq_register {s : State} {w : Width} {addr o : Nat} :
    s.route w addr = some (.register o) ↔
      w = .word ∧ addr = s.params.blockBase + o ∧ o < Config.windowOffset ∧ o % 4 = 0 := by
  unfold State.route
  dsimp only
  split_ifs with h1 h2 h3 h3 <;> simp only [Option.some.injEq, Target.register.injEq, reduceCtorEq, false_iff]
  · omega
  · exact ⟨fun h => ⟨h3.1, by omega, by omega, by omega⟩, fun h => by omega⟩
  · exact fun ⟨hw, ha, _, ho⟩ => h3 ⟨hw, by omega⟩
  · omega
  · omega

/-- What reaches a DMEM offset: a naturally aligned access inside the window (20_memory.md R60, R62). -/
theorem State.route_eq_dmem {s : State} {w : Width} {addr a : Nat} :
    s.route w addr = some (.dmem a) ↔
      addr = s.dmemAddr a ∧ a % w.bytes = 0 ∧ a + w.bytes ≤ s.params.dmemSize := by
  unfold State.route State.dmemAddr State.inDmem
  dsimp only
  have hsub : s.params.blockBase + Config.windowOffset + a - s.params.blockBase - Config.windowOffset = a := by omega
  split_ifs with h1 h2 h3 h3 <;> simp only [Option.some.injEq, Target.dmem.injEq, reduceCtorEq, false_iff]
  · omega
  · omega
  · omega
  · rw [decide_eq_true_eq] at h3
    exact ⟨fun h => h ▸ ⟨by omega, h3⟩, fun h => by omega⟩
  · rintro ⟨rfl, ha⟩
    rw [hsub, decide_eq_true_eq] at h3
    exact h3 ha

/-- What an access the block serves does: the platform is in order, the block is out of reset, and the access reaches
something (20_memory.md R63, R69). -/
theorem State.serve_eq_next {s t : State} {a : Access} (h : s.serve a = .next t) :
    s.params.deviceOrdered = true ∧ s.inReset = false ∧
      ∃ x, s.route a.width a.addr = some x ∧ s.serveAt a x = .next t := by
  unfold State.serve at h
  cases h1 : s.params.deviceOrdered
  · simp [h1] at h
  cases h2 : s.inReset
  · refine ⟨rfl, rfl, ?_⟩
    cases h3 : s.route a.width a.addr with
    | none => simp [h1, h2, h3] at h
    | some x => exact ⟨x, rfl, by simpa [h1, h2, h3] using h⟩
  · simp [h1, h2] at h

/-- An access that reaches something is served there (20_memory.md R63, R69). -/
theorem State.serve_of_route {s : State} {a : Access} {x : Target} (ho : s.params.deviceOrdered = true)
    (hr : s.inReset = false) (h : s.route a.width a.addr = some x) : s.serve a = s.serveAt a x := by
  simp [State.serve, ho, hr, h]

/-- What the host takes from a register read: the response and its record of reads, nothing else. -/
theorem HostAgent.gotRegister_eq (h : HostAgent) (o : Nat) (v : Word) :
    h.gotRegister o v = { h with response := v, reads := (h.gotRegister o v).reads } := rfl

/-- What the host takes from a DMEM read: the response and the bytes, nothing else. -/
theorem HostAgent.gotBytes_eq (h : HostAgent) (bs : List Byte) :
    h.gotBytes bs = { h with response := BitVec.ofNat 32 (leValue bs), bytes := h.bytes ++ bs } := rfl

/-- A register read of the host returns what the register reads (20_memory.md R66). -/
theorem State.serve_read_reg {s : State} (ho : s.params.deviceOrdered = true) (hr : s.inReset = false) (r : Reg) :
    s.serve (.read .word (s.regAddr r)) = .next { s with agent := s.agent.gotRegister r.offset (s.readReg r) } := by
  rw [State.serve_of_route (a := .read .word (s.regAddr r)) ho hr (s.route_regAddr r), State.serveAt, State.readOffset_reg]

/-- A register write of the host is the register's write effect. -/
theorem State.hostWrite_eq {s : State} (ho : s.params.deviceOrdered = true) (hr : s.inReset = false) (r : Reg)
    (v : Word) : s.hostWrite r v = .next (s.writeReg v r) := by
  simp [State.hostWrite, State.serve, ho, hr, Access.width, Access.addr, State.route_regAddr, State.serveAt]

/-! ### Abort and soft reset -/

/-- Everything `abort` can do: nothing, or leave an existing region unspecified (70_reset_and_hazards.md R252). -/
theorem State.abort_cases (s : State) :
    s.abort = s ∨
      ∃ a n, s.status.busy = true ∧ s.abortedRegion = some (a, n) ∧
        s.abort = s.unspecify a (min n (s.params.dmemSize - a)) := by
  unfold State.abort
  cases hb : s.status.busy
  · exact .inl (by simp)
  · cases hr : s.abortedRegion with
    | none => exact .inl (by simp)
    | some x => exact .inr ⟨x.1, x.2, rfl, rfl, by simp⟩

theorem State.abort_wf {s : State} (h : Memory.wf s.params.dmemSize s.dmem) :
    Memory.wf s.params.dmemSize s.abort.dmem := by
  rcases s.abort_cases with he | ⟨a, n, -, -, he⟩
  · rw [he]; exact h
  · rw [he]
    refine State.unspecify_wf h ?_
    omega

end Sys2Proof.Machine
end

