-- ==== Sys2Proof/Laws/HostProgram.lean ====
section
/-! SUPPORT. Laws/HostProgram.lean: what host expressions, jumps and the addresses of host statements come to, said once
(30_encoding.md R89), and a run cut into its steps. -/

namespace Sys2Proof.Machine

/-! ### Runs -/

/-- A run whose first step goes on is the run from there. -/
theorem run_succ_of_step {s t : State} (h : step s = .next t) (k : Nat) :
    Host.Core.run Sys2Proof.core (k + 1) s = Host.Core.run Sys2Proof.core k t := by
  have h' : Sys2Proof.core.step s = .next t := h
  simp only [Host.Core.run, h']

/-! ### Values -/

@[simp] theorem HostAgent.asInt_int (h : HostAgent) (p : List Nat) (n : Int) : h.asInt p (.int n) = n := rfl

@[simp] theorem HostAgent.asList_list (h : HostAgent) (p : List Nat) (xs : List Int) : h.asList p (.list xs) = xs := rfl

@[simp] theorem HostAgent.eval_const (h : HostAgent) (p : List Nat) (v : Value) : h.eval p (.const v) = v := rfl

@[simp] theorem HostAgent.evalInt_const (h : HostAgent) (p : List Nat) (n : Int) :
    h.evalInt p (.const (.int n)) = n := rfl

/-- A register the host has read is what the read returned. -/
theorem HostAgent.lastRead_eq {h : HostAgent} {r : Reg} {v : Word} (hr : h.reads.lookup r = some v) (p : List Nat) :
    h.lastRead p r = v := by simp [HostAgent.lastRead, hr]

/-- A variable that has been assigned is its value. -/
theorem HostAgent.eval_var {h : HostAgent} {x : Nat} {v : Value} (hx : h.vars.lookup x = some v) (p : List Nat) :
    h.eval p (.var x) = v := by simp [HostAgent.eval, hx]

/-- An integer that fits goes on the bus as it is. -/
theorem HostAgent.fit_natCast (h : HostAgent) (p : List Nat) {w n : Nat} (hn : n < 2 ^ w) :
    h.fit p w n = BitVec.ofNat w n := by
  have : (0 : Int) ≤ n ∧ (n : Int) < 2 ^ w := ⟨Int.natCast_nonneg n, by exact_mod_cast hn⟩
  rw [HostAgent.fit, if_pos this]
  exact BitVec.ofInt_natCast w n

theorem HostAgent.evalWord_const (h : HostAgent) (p : List Nat) {n : Nat} (hn : n < 2 ^ 32) :
    h.evalWord p (.const (.int n)) = BitVec.ofNat 32 n := h.fit_natCast _ hn

/-! ### Jumps -/

theorem HostAgent.mem_labels {h : HostAgent} {name k : Nat} :
    k ∈ h.labels name ↔ h.prog[k]? = some (.label name) := by
  simp only [HostAgent.labels, List.mem_filter, List.mem_range, beq_iff_eq, and_iff_right_iff_imp]
  intro hk
  exact (List.getElem?_eq_some_iff.mp hk).1

/-- Where a program has the label, a jump continues after one that has its name. -/
theorem HostAgent.jumpTarget_after_label {h : HostAgent} {name k : Nat} (hk : h.prog[k]? = some (.label name)) :
    ∃ j, h.prog[j]? = some (.label name) ∧ h.jumpTarget name = j + 1 := by
  have hm : k ∈ h.labels name := HostAgent.mem_labels.mpr hk
  unfold HostAgent.jumpTarget
  cases hl : h.labels name with
  | nil => simp [hl] at hm
  | cons a rest =>
    cases rest with
    | nil => exact ⟨a, HostAgent.mem_labels.mp (by simp [hl]), rfl⟩
    | cons b rest =>
      have hi : (Config.freeInt h.draws []).toNat % ((b :: rest).length + 1) < (a :: b :: rest).length :=
        Nat.mod_lt _ (Nat.succ_pos _)
      refine ⟨_, HostAgent.mem_labels.mp ?_, rfl⟩
      rw [hl, List.getD_eq_getElem _ _ hi]
      exact List.getElem_mem hi

/-- Where the label is the only one of its name, the jump continues after it (R89). -/
theorem HostAgent.jumpTarget_unique {h : HostAgent} {name k : Nat} (hk : h.prog[k]? = some (.label name))
    (hu : ∀ j, h.prog[j]? = some (.label name) → j = k) : h.jumpTarget name = k + 1 := by
  obtain ⟨j, hj, he⟩ := HostAgent.jumpTarget_after_label hk
  rw [he, hu j hj]

/-! ### Addresses -/

@[simp] theorem State.hostAddr_natCast (s : State) (a : Nat) : s.hostAddr a = s.dmemAddr a := by
  unfold State.hostAddr State.dmemAddr
  omega

/-- An offset below the window is a bus error for the 8-bit accesses of host statements (20_memory.md R60, R62). -/
theorem State.route_hostAddr_neg (s : State) {a : Int} (ha : a < 0) : s.route .byte (s.hostAddr a) = none := by
  unfold State.route State.hostAddr
  have : (s.params.blockBase + Config.windowOffset + a).toNat - s.params.blockBase < Config.windowOffset := by
    unfold Config.windowOffset
    omega
  simp [this]

/-- An aligned access inside the window reaches its DMEM offset (20_memory.md R60, R62). -/
theorem State.route_dmemAddr (s : State) {w : Width} {a : Nat} (ha : a % w.bytes = 0)
    (hi : a + w.bytes ≤ s.params.dmemSize) : s.route w (s.dmemAddr a) = some (.dmem a) :=
  State.route_eq_dmem.mpr ⟨rfl, ha, hi⟩

end Sys2Proof.Machine
end

