-- ==== Sys2Proof/Laws/PerInstr.lean ====
section
/-! SUPPORT. Laws/PerInstr.lean: statements about every command as a piece of text, one lemma per constructor. -/

/-- The word of a command is a legal shape of word: its two reserved fields are zero (30_encoding.md R80). -/
def Sys2Proof.Laws.EncodeReserved.Statement (i : Sys2Proof.Instr) : Prop :=
  Sys2Proof.rsv0Field (Sys2Proof.encode i) = 0 ∧ Sys2Proof.rsv1Field (Sys2Proof.encode i) = 0

namespace Sys2Proof.Laws.EncodeReserved

/-- The reserved fields of a word built from its fields are zero, whatever the fields. -/
theorem of_fields (op mark : Byte) (n : BitVec 5) (fx ip : Bool) :
    rsv0Field (encodeFields op mark n fx ip) = 0 ∧ rsv1Field (encodeFields op mark n fx ip) = 0 := by
  constructor <;> ext i hi <;>
    simp only [rsv0Field, rsv1Field, encodeFields, BitVec.getElem_extractLsb', BitVec.getLsbD_append] <;>
    (repeat' split) <;> first | omega | simp

theorem nop : Statement .nop := of_fields _ _ _ _ _
theorem bswOpen (n : BitVec 5) : Statement (.bswOpen n) := of_fields _ _ _ _ _
theorem bswSetw (n : BitVec 5) : Statement (.bswSetw n) := of_fields _ _ _ _ _
theorem bswPush : Statement .bswPush := of_fields _ _ _ _ _
theorem bswFinish : Statement .bswFinish := of_fields _ _ _ _ _
theorem bsrOpen (n : BitVec 5) : Statement (.bsrOpen n) := of_fields _ _ _ _ _
theorem bsrSetw (n : BitVec 5) : Statement (.bsrSetw n) := of_fields _ _ _ _ _
theorem bsrShift : Statement .bsrShift := of_fields _ _ _ _ _
theorem lzwEnc (n : BitVec 5) (fx : Bool) : Statement (.lzwEnc n fx) := of_fields _ _ _ _ _
theorem lzwDec (n : BitVec 5) (fx : Bool) : Statement (.lzwDec n fx) := of_fields _ _ _ _ _
theorem rleEnc : Statement .rleEnc := of_fields _ _ _ _ _
theorem rleDec : Statement .rleDec := of_fields _ _ _ _ _
theorem bwtFwd (m : Byte) : Statement (.bwtFwd m) := of_fields _ _ _ _ _
theorem bwtInv (m : Byte) : Statement (.bwtInv m) := of_fields _ _ _ _ _
theorem mtfEnc (ip : Bool) : Statement (.mtfEnc ip) := of_fields _ _ _ _ _
theorem mtfDec (ip : Bool) : Statement (.mtfDec ip) := of_fields _ _ _ _ _

end Sys2Proof.Laws.EncodeReserved
end

