-- ==== Sys2Proof/Tests/Slice0.lean ====
section
/-! SUPPORT. Tests/Slice0.lean: the model's own tests. Expected values are the spec's: the words of 30_encoding.md and
the vectors of 95_test_vectors.md, whose ids stand in the comments. The witnesses at the end show, for every statement
with hypotheses, a state and operands that meet them. -/

set_option Elab.async false

namespace Sys2Proof.Tests

open Sys2Proof Sys2Proof.Machine Sys2Proof.Claims

/-! ### Helpers -/

/-- Bytes from numbers. -/
def bytes (l : List Nat) : List Byte := l.map (BitVec.ofNat 8)

/-- The reset state with a command in flight: its latched operands, and DMEM bytes known from offset 0. -/
def flight (i : Instr) (src len dst cap data : Nat) (mem : List Nat := []) : State :=
  { State.reset with
    cmd := encode i
    latch := { word := encode i, srcAddr := BitVec.ofNat 32 src, srcLen := BitVec.ofNat 32 len,
               dstAddr := BitVec.ofNat 32 dst, dstCap := BitVec.ofNat 32 cap, data := BitVec.ofNat 32 data }
    status := { Status.reset with busy := true }
    dmem := Memory.cellsFrom 0 (bytes mem) }

/-- The same with an open writer: width, bits pushed, partial byte; its buffer begins at 0x40. -/
def flightW (i : Instr) (data width bits acc cap : Nat) : State :=
  { flight i 0 0 0 0 data with
    writer := { width := BitVec.ofNat 5 width, isOpen := true, acc := BitVec.ofNat 8 acc,
                bits := BitVec.ofNat 32 bits, base := 0x40, cap := BitVec.ofNat 32 cap } }

/-- The same with an open reader over the known bytes: width and cursor. -/
def flightR (i : Instr) (width pos : Nat) (mem : List Nat) : State :=
  { flight i 0 0 0 0 0 mem with
    reader := { width := BitVec.ofNat 5 width, isOpen := true, pos := BitVec.ofNat 32 pos, base := 0,
                len := BitVec.ofNat 32 mem.length } }

/-- The reset state with a host program. -/
def hosted (p : List Stmt) (order : List Agent := []) : State := { State.reset.withProgram p with order := order }

/-- A register after a step; none after a stop. -/
def regOf (o : StepOutcome) (r : Reg) : Option Nat :=
  match o with
  | .next t => some (t.readReg r).toNat
  | _ => none

/-- STATUS, RESULT_LEN and `n` DMEM bytes from `a` after a step; none after a stop. -/
def result (o : StepOutcome) (a n : Nat) : Option (Nat × Nat × List Nat) :=
  match o with
  | .next t => some (t.status.word.toNat, t.resultLen.toNat, (t.region a n).map BitVec.toNat)
  | _ => none

/-- The host's position after a step; none after a stop. -/
def hostPc : StepOutcome → Option Nat
  | .next t => some t.agent.pc
  | _ => none

/-- Whether a step stops with this fault. -/
def faults (o : StepOutcome) (f : Fault) : Bool :=
  match o with
  | .fault g => f == g
  | _ => false

/-! ### WellFormed: one ill-formed term for each check -/

theorem test_wf_open_17_refused : (Instr.bswOpen 17).wellFormed = false := by decide
theorem test_wf_bsr_open_31_refused : (Instr.bsrOpen 31).wellFormed = false := by decide
theorem test_wf_setw_0_refused : (Instr.bswSetw 0).wellFormed = false := by decide
theorem test_wf_setw_17_refused : (Instr.bsrSetw 17).wellFormed = false := by decide
theorem test_wf_lzw_8_refused : (Instr.lzwEnc 8 false).wellFormed = false := by decide
theorem test_wf_lzw_17_refused : (Instr.lzwDec 17 true).wellFormed = false := by decide
theorem test_wf_defaults_accepted :
    (Instr.bswOpen 0).wellFormed = true ∧ (Instr.lzwEnc 0 false).wellFormed = true ∧
      (Instr.bswSetw 16).wellFormed = true ∧ (Instr.lzwDec 9 true).wellFormed = true := by decide

/-! ### Decoding: words written out from R80 to R88 -/

theorem test_decode_nop : decode 0x00000000 = .ok .nop := by decide
theorem test_decode_bsw_open : decode 0x00100010 = .ok (.bswOpen 16) := by decide
theorem test_decode_bsw_setw : decode 0x00090011 = .ok (.bswSetw 9) := by decide
theorem test_decode_bsw_push : decode 0x00000012 = .ok .bswPush := by decide
theorem test_decode_bsw_finish : decode 0x00000013 = .ok .bswFinish := by decide
theorem test_decode_bsr_open : decode 0x00030018 = .ok (.bsrOpen 3) := by decide
theorem test_decode_bsr_setw : decode 0x00090019 = .ok (.bsrSetw 9) := by decide
theorem test_decode_bsr_shift : decode 0x0000001A = .ok .bsrShift := by decide
theorem test_decode_lzw_enc : decode 0x010C0020 = .ok (.lzwEnc 12 true) := by decide
theorem test_decode_lzw_dec : decode 0x00000021 = .ok (.lzwDec 0 false) := by decide
theorem test_decode_rle_enc : decode 0x00000030 = .ok .rleEnc := by decide
theorem test_decode_rle_dec : decode 0x00000031 = .ok .rleDec := by decide
theorem test_decode_bwt_fwd : decode 0x00002440 = .ok (.bwtFwd 36) := by decide
theorem test_decode_bwt_inv : decode 0x0000FF41 = .ok (.bwtInv 255) := by decide
theorem test_decode_mtf_enc : decode 0x02000050 = .ok (.mtfEnc true) := by decide
theorem test_decode_mtf_dec : decode 0x00000051 = .ok (.mtfDec false) := by decide

/-- L2-E2, L2-E8 to L2-E13: illegal words; L2-E6, L2-E7, L2-E16, L2-E17: options out of range. -/
theorem test_decode_illegal :
    decodeCommand 0x00000001 = .illegal ∧ decodeCommand 0x00200020 = .illegal ∧
      decodeCommand 0x04000050 = .illegal ∧ decodeCommand 0x00010050 = .illegal ∧
      decodeCommand 0x00000130 = .illegal ∧ decodeCommand 0x01000040 = .illegal ∧
      decodeCommand 0x02000030 = .illegal := by decide
theorem test_decode_bad_option :
    decodeCommand 0x00080020 = .badOption ∧ decodeCommand 0x00110021 = .badOption ∧
      decodeCommand 0x00000011 = .badOption ∧ decodeCommand 0x00110010 = .badOption := by decide

theorem test_encode_examples :
    encode (.lzwEnc 12 true) = 0x010C0020 ∧ encode (.bwtFwd 36) = 0x00002440 ∧
      encode (.mtfEnc true) = 0x02000050 ∧ encode (.bswSetw 9) = 0x00090011 := by decide

theorem test_asm_text : (Instr.lzwEnc 12 true).asmText = "lzw.enc maxbits=12 fixed" := by decide

theorem test_table_word : decodeTableWord 32 0x11 = some (.bswSetw 0) ∧ decodeTableWord 32 0x1 = none := by decide

/-! ### The transform functions -/

/-- L1-1, L1-4, L2-RL3. -/
theorem test_rle_enc :
    rleEncF (bytes [5, 5, 5, 7, 7]) = .ok (bytes [5, 3, 7, 2]) ∧
      rleEncF (List.replicate 256 9) = .ok (bytes [9, 255, 9, 1]) ∧
      rleEncF (bytes [1, 2, 1]) = .ok (bytes [1, 1, 2, 1, 1, 1]) := by decide +kernel

/-- L1-2, L2-RL5, L1-12. -/
theorem test_rle_dec :
    rleDecF (bytes [5, 3, 7, 2]) = .ok (bytes [5, 5, 5, 7, 7]) ∧ rleDecF (bytes [4, 0, 6, 1]) = .ok (bytes [6]) ∧
      rleDecF (bytes [1, 2, 3]) = .err .malformedInput := by decide

/-- L2-B1, L1-5, L1-6, L2-B6. -/
theorem test_bwt_fwd :
    bwtFwdF 0 (bytes [98, 97, 110, 97, 110, 97]) = .ok (bytes [110, 110, 98, 0, 97, 97, 97]) ∧
      bwtFwdF 0 (bytes [2, 1, 2, 1]) = .ok (bytes [2, 2, 0, 1, 1]) ∧
      bwtFwdF 0 (bytes [0, 1, 2]) = .err .markerCollision ∧
      bwtFwdF 255 (bytes [3, 1, 2]) = .ok (bytes [3, 1, 255, 2]) := by decide +kernel

/-- L2-B9, L2-B11 to L2-B15. -/
theorem test_bwt_inv :
    bwtInvF 0 (bytes [110, 110, 98, 0, 97, 97, 97]) = .ok (bytes [98, 97, 110, 97, 110, 97]) ∧
      bwtInvF 0 [] = .err .markerNotFound ∧ bwtInvF 0 (bytes [0, 0]) = .err .multipleMarkers ∧
      bwtInvF 0 (bytes [1, 0]) = .err .malformedInput ∧ bwtInvF 0 (bytes [3, 0, 1, 2]) = .ok (bytes [2, 3, 1]) ∧
      bwtInvF 0 (bytes [0, 5, 6]) = .ok (bytes [5, 5]) := by decide +kernel

/-- L1-7, L2-M2, L2-M4. -/
theorem test_mtf :
    mtfEncF (bytes [3, 3, 5, 3]) = .ok (bytes [3, 0, 5, 1]) ∧
      mtfEncF (bytes [255, 0, 255]) = .ok (bytes [255, 1, 1]) ∧
      mtfDecF (bytes [255, 255, 255]) = .ok (bytes [255, 254, 253]) := by decide +kernel

/-- L2-Z4 in both modes, L2-Z6. -/
theorem test_lzw_enc :
    lzwEncF 16 false (bytes [65, 66, 65, 66, 65, 66, 65]) = .ok (bytes [0x41, 0x42, 0x00, 0x0A, 0x04]) ∧
      lzwEncF 16 true (bytes [65, 66, 65, 66, 65, 66, 65]) =
        .ok (bytes [0x41, 0x00, 0x42, 0x00, 0x00, 0x01, 0x02, 0x01]) ∧
      lzwEncF 16 false (bytes [97, 97, 97, 97]) = .ok (bytes [0x61, 0x00, 0xC3, 0x00]) := by decide +kernel

/-- L2-Z6 (KwKwK), L2-Z10 to L2-Z13. -/
theorem test_lzw_dec :
    lzwDecF 16 false (bytes [0x61, 0x00, 0xC3, 0x00]) = .ok (bytes [97, 97, 97, 97]) ∧
      lzwDecF 16 true (bytes [0x00, 0x01]) = .err .invalidCode ∧
      lzwDecF 16 true (bytes [1, 2, 3]) = .err .malformedInput ∧
      lzwDecF 16 true (bytes [0x41, 0x00, 0xFF, 0x01]) = .ok (bytes [65, 65, 65]) ∧
      lzwDecF 16 false (bytes [0x61]) = .ok (bytes [97]) := by decide +kernel

/-! ### One step of each command -/

/-- L2-E1. -/
theorem test_step_nop : result (step (flight .nop 0 0 0 0 0)) 0 0 = some (0x2, 0, []) := by decide +kernel

/-- R123's example, less the reader's reset width. -/
theorem test_step_bsw_open :
    regOf (step (flight (.bswOpen 0) 0 0 0x100 16 0)) .stream = some 0x888 ∧
      regOf (step (flight (.bswOpen 0) 0 0 0x100 16 0)) .bswBase = some 0x100 := by decide +kernel
theorem test_step_bsw_open_bad_option :
    result (step (flight (.bswOpen 17) 0 0 0x100 16 0)) 0 0 = some (0x904, 0, []) := by decide +kernel

theorem test_step_bsw_setw : regOf (step (flightW (.bswSetw 9) 0 8 0 0 16)) .stream = some 0x889 := by decide +kernel

/-- L2-S7's second push: 9 bits of 0x042 after 8 bits. -/
theorem test_step_bsw_push :
    result (step (flightW .bswPush 0x042 9 8 0 3)) 0x41 1 = some (0x2, 0, [0x42]) ∧
      regOf (step (flightW .bswPush 0x042 9 8 0 3)) .bswBits = some 17 := by decide +kernel
/-- L2-S6. -/
theorem test_step_bsw_push_overflow :
    result (step (flightW .bswPush 1 8 8 0 1)) 0 0 = some (0xC04, 0, []) := by decide +kernel

/-- L2-S1: BSW_ACC = 0x15 at 125 bits, the last byte of the buffer. -/
theorem test_step_bsw_finish :
    result (step (flightW .bswFinish 0 9 125 0x15 16)) 0x4F 1 = some (0x2, 16, [0x15]) := by decide +kernel
/-- L2-S10. -/
theorem test_step_bsw_finish_closed : result (step (flight .bswFinish 0 0 0 0 0)) 0 0 = some (0xD04, 0, []) := by
  decide +kernel

/-- R130's example. -/
theorem test_step_bsr_open :
    regOf (step (flight (.bsrOpen 0) 0x100 5 0 0 0)) .stream = some 0x8808 ∧
      regOf (step (flight (.bsrOpen 0) 0x100 5 0 0 0)) .bsrLen = some 5 := by decide +kernel

theorem test_step_bsr_setw :
    regOf (step (flightR (.bsrSetw 9) 8 8 [0x41, 0x42, 0x00])) .stream = some 0x8908 := by decide +kernel

/-- L2-S8: the 9-bit code, then 7 bits remain. -/
theorem test_step_bsr_shift :
    regOf (step (flightR .bsrShift 9 8 [0x41, 0x42, 0x00])) .data = some 0x042 ∧
      regOf (step (flightR .bsrShift 9 8 [0x41, 0x42, 0x00])) .bsrPos = some 17 := by decide +kernel
theorem test_step_bsr_shift_exhausted :
    regOf (step (flightR .bsrShift 9 17 [0x41, 0x42, 0x00])) .data = some 0xFFFFFFFF ∧
      regOf (step (flightR .bsrShift 9 17 [0x41, 0x42, 0x00])) .status = some 0xA := by decide +kernel

/-- L2-Z4 as a command. -/
theorem test_step_lzw_enc :
    result (step (flight (.lzwEnc 0 false) 0 7 0x100 16 0 [65, 66, 65, 66, 65, 66, 65])) 0x100 5 =
      some (0x2, 5, [0x41, 0x42, 0x00, 0x0A, 0x04]) := by decide +kernel
/-- L2-E19: the bad option comes before the bad address. -/
theorem test_step_lzw_dec_bad_option :
    result (step (flight (.lzwDec 8 false) 0xFFFFFFFF 2 0 0 0)) 0 0 = some (0x904, 0, []) := by decide +kernel
theorem test_step_lzw_dec :
    result (step (flight (.lzwDec 12 true) 0 4 0x100 16 0 [0x41, 0x00, 0xFF, 0x01])) 0x100 3 =
      some (0x2, 3, [65, 65, 65]) := by decide +kernel

/-- L2-CY6: adjacent regions do not overlap. -/
theorem test_step_rle_enc :
    result (step (flight .rleEnc 0 3 3 16 0 [0, 1, 2])) 3 6 = some (0x2, 6, [0, 1, 1, 1, 2, 1]) := by decide +kernel
/-- L2-CY5. -/
theorem test_step_rle_enc_overlap :
    result (step (flight .rleEnc 0 3 2 16 0 [0, 1, 2])) 0 3 = some (0xB04, 0, [0, 1, 2]) := by decide +kernel
/-- L2-CY1. -/
theorem test_step_rle_enc_bad_address :
    result (step (flight .rleEnc 0 3 65535 2 0 [0, 1, 2])) 0 0 = some (0xA04, 0, []) := by decide +kernel

/-- L2-RL5. -/
theorem test_step_rle_dec :
    result (step (flight .rleDec 0 4 0x10 4 0 [4, 0, 6, 1])) 0x10 1 = some (0x2, 1, [6]) := by decide +kernel

/-- L2-B7. -/
theorem test_step_bwt_fwd :
    result (step (flight (.bwtFwd 3) 0 3 0x100 16 0 [0, 1, 2])) 0x100 4 = some (0x2, 4, [3, 2, 0, 1]) := by
  decide +kernel
/-- L1-6: the error code and the bytes outside the output region. -/
theorem test_step_bwt_fwd_collision :
    result (step (flight (.bwtFwd 0) 0 3 0x100 4 0 [0, 1, 2])) 0 3 = some (0x204, 0, [0, 1, 2]) := by decide +kernel

/-- L2-B14. -/
theorem test_step_bwt_inv :
    result (step (flight (.bwtInv 0) 0 4 0x100 16 0 [3, 0, 1, 2])) 0x100 3 = some (0x2, 3, [2, 3, 1]) := by
  decide +kernel

/-- L2-CY9, L2-CY10. -/
theorem test_step_mtf_enc_in_place :
    result (step (flight (.mtfEnc true) 0 4 0 4 0 [3, 3, 5, 3])) 0 4 = some (0x2, 4, [3, 0, 5, 1]) := by
  decide +kernel
theorem test_step_mtf_enc_overlap :
    result (step (flight (.mtfEnc false) 0 4 0 4 0 [3, 3, 5, 3])) 0 0 = some (0xB04, 0, []) := by decide +kernel

/-- L2-M6. -/
theorem test_step_mtf_dec :
    result (step (flight (.mtfDec false) 0 4 0x10 4 0 [3, 0, 5, 1])) 0x10 4 = some (0x2, 4, [3, 3, 5, 3]) := by
  decide +kernel

/-- A command word placed for the next step runs there. -/
theorem test_step_placed_word : regOf (step (State.reset.withFetchWord 32 0x40)) .status = some 0xC04 := by
  decide +kernel

/-! ### The host -/

/-- L2-CY13: the second of two CMD writes is dropped or accepted, as the order of events has it. -/
theorem test_host_cmd_dropped :
    regOf (step { flight .nop 0 0 0 0 0 with agent := { HostAgent.reset with prog := [.cmd .nop] }, order := [.host] })
      .status = some 0x11 := by decide +kernel

/-- L2-CY12: clearing ERR keeps ERRCODE. -/
theorem test_host_status_clear :
    regOf (step { hosted Stmt.clear with status := { Status.reset with err := true, errCode := 2 } }) .status =
      some 0x200 := by decide +kernel

/-- The soft reset of 95_test_vectors.md P2's end. -/
theorem test_host_soft_reset :
    regOf (step { hosted [Stmt.wrConst .ctrl 2] with reader := (flightR .nop 9 9 [1, 2]).reader }) .stream =
      some 0x808 := by decide +kernel

/-- R62: a byte access to a register is a bus error. -/
theorem test_host_bus_error :
    faults (step (hosted [.access (.read .byte 0)])) .busError = true := by decide +kernel

/-- U5. -/
theorem test_host_dmem_while_busy :
    faults (step { hosted [.access (.read .byte 0x10000)] [.host] with status := { Status.reset with busy := true } })
      .dmemWhileBusy = true := by decide +kernel

/-- U7. -/
theorem test_host_access_in_reset :
    faults (step { hosted [.rd .id] with inReset := true }) .accessDuringReset = true := by decide +kernel

/-- A 16-bit write stores its low byte at the lower offset (R61). -/
theorem test_host_half_write :
    result (step (hosted [.access (.write .half 0x10002 0xABCD)])) 2 2 = some (0, 0, [0xCD, 0xAB]) := by decide +kernel

/-- `if CMD.OP = 0x20 goto 0` after a read of CMD that returned the word 0x010C0020 of R88: the jump is taken. -/
theorem test_host_if_cmd_field :
    hostPc (step { State.reset with
      agent := { HostAgent.reset with
        prog := [.label 3, .label 0, .ifField .op (.const (.int 0x20)) 0], pc := 2, reads := [(.cmd, 0x010C0020)] } }) =
      some 2 := by decide +kernel

/-- The fields of CMD lie at the bits of R80. -/
theorem test_host_cmd_fields :
    ([Field.op, .mark, .nbits, .rsv0, .fixedWidth, .inPlace, .rsv1].map fun f => f.ofWord 0xFD6C2420) =
      [0x20, 0x24, 12, 3, 1, 0, 63] := by decide +kernel

/-- `run` with a host variable (R90): the operand register takes the variable's value. -/
theorem test_host_run_variable :
    regOf (step { State.reset with
      agent := { HostAgent.reset with
        prog := Stmt.run .rleEnc (.var 0) (.const (.int 3)) (.var 1) (.const (.int 16)), vars := [(0, .int 0x123)] } })
      .srcAddr = some 0x123 := by decide +kernel

/-- A jump without its label and a register nothing has read do not end a run (log 14). -/
theorem test_host_free_values_run :
    regOf (step (hosted [.goto 7])) .status = some 0 ∧
      regOf (step (hosted [.wr .srcLen (.reg .data)])) .srcAddr = some 0 := by decide +kernel

/-- A negative offset is below the window: a bus error at its access (R60). -/
theorem test_host_negative_offset :
    faults (Host.Core.run Sys2Proof.core 2 (hosted [.rmem (.const (.int (-1))) (.const (.int 1))])) .busError = true := by
  decide +kernel

/-! ### Witnesses of the statements' hypotheses -/

/-- Closes the invariant of a concrete state. -/
theorem inv_reset_witness : State.reset.Inv := by
  constructor <;> first | decide | (constructor <;> decide)

/-- A busy machine on the engine's turn: DecodeOf, StepRunsTheDecodedCommand, EngineStepAlwaysCompletes,
AcceptedCommandsComplete. -/
theorem inv_flight_witness : (flight .nop 0 0 0 0 0).Inv := by
  constructor <;> first | decide +kernel | (constructor <;> decide +kernel)

theorem witness_engine_turn :
    (flight .nop 0 0 0 0 0).status.busy = true ∧ decode (flight .nop 0 0 0 0 0).latch.word = .ok .nop ∧
      (flight .nop 0 0 0 0 0).order = [] ∧ (flight .nop 0 0 0 0 0).agent.todo = [] ∧
      (flight .nop 0 0 0 0 0).agent.prog.length ≤ (flight .nop 0 0 0 0 0).agent.pc := by decide +kernel

theorem witness_engine_listed_turn :
    ({ flight .nop 0 0 0 0 0 with order := [.engine, .host] } : State).order = .engine :: [.host] ∧
      ({ flight .nop 0 0 0 0 0 with order := [.host] } : State).order = .host :: [] := by decide +kernel

/-- EncodeOfDecodeIsTheWord, at a word with every field of its command in use. -/
theorem witness_decode_ok : decode 0x010C0020 = .ok (.lzwEnc 12 true) := by decide

/-- IllegalWordsCompleteWithIllegalCommand, each clause, at words where the clauses meet. -/
theorem witness_word_kinds :
    IllegalWord 0x00200011 ∧ (¬IllegalWord 0x00000011 ∧ BadNbits 0x00000011) ∧
      (¬IllegalWord 0x00100011 ∧ ¬BadNbits 0x00100011) ∧ (¬IllegalWord 0x00110021 ∧ BadNbits 0x00110021) := by
  simp [IllegalWord, BadNbits, bits, opcodes]

/-- The host's accesses are served: StatusWriteClearsOnes, CtrlAndReadOnlyRegisterWrites, OperandRegistersReadBack,
RegisterReadsReturnTheirFields, BusErrorsAreExactlyTheBadAccesses, and idle CMD writes. -/
theorem witness_serving_idle : Serving State.reset ∧ State.reset.status.busy = false ∧ bits 0 1 1 = 0 := by
  unfold Serving; decide

/-- Dropped CMD writes, forbidden accesses and the latch while busy. -/
theorem witness_serving_busy :
    Serving (flight .nop 0 0 0 0 0) ∧ (flight .nop 0 0 0 0 0).status.busy = true ∧
      (flight .nop 0 0 0 0 0).params.blockBase + 0x10000 ≤ (Access.read .byte 0x10000).addr := by
  unfold Serving; decide +kernel

theorem witness_in_reset :
    State.reset.hardReset.params.deviceOrdered = true ∧ State.reset.hardReset.inReset = true := by decide

/-- ReservedOffsetsAndFieldsReadZero at both ends of the range, and words that differ in reserved bits only. -/
theorem witness_reserved :
    (0x044 ≤ 0x044 ∧ 0x044 ≤ 0xFFFC ∧ 0x044 % 4 = 0) ∧ (0x044 ≤ 0xFFFC ∧ 0xFFFC ≤ 0xFFFC ∧ 0xFFFC % 4 = 0) ∧
      bits 0xFFFFFFFC 0 2 = bits 0 0 2 ∧ bits 0xFFFFFFE1 1 4 = bits 0 1 4 := by decide

/-- RegisterReadsReturnTheirFields: the first and the last offset of the map. -/
theorem witness_register_contents :
    (0x000, 0x43540701) ∈ registerContents State.reset ∧ (0x040, 0) ∈ registerContents State.reset ∧
      (registerContents State.reset).length = 17 := by decide

/-- HostReadsChangeNothing: a read that is served. -/
theorem witness_host_read : regOf (State.reset.serve (.read .word 0)) .id = some 0x43540701 := by decide +kernel

/-- HostAccessesLeaveTheLatchedCommand: an access served while busy, of either kind. -/
theorem witness_access_while_busy :
    regOf ((flight .nop 0 0 0 0 0).serve (.write .word 0x10 5)) .srcAddr = some 5 ∧
      regOf ((flight .nop 0 0 0 0 0).serve (.write .word 4 2)) .status = some 0 := by decide +kernel

/-- DmemAccessesAreLittleEndian at the last word of the window. -/
theorem witness_dmem_access :
    65532 % Width.word.bytes = 0 ∧ 65532 + Width.word.bytes ≤ State.reset.params.dmemSize := by decide

/-- SoftResetClearsRegistersAndKeepsMemory, idle and with a transform in flight. -/
theorem witness_soft_reset :
    Serving (flight .rleEnc 0 3 0x100 4 0) ∧ bits 2 1 1 = 1 ∧ (flight .rleEnc 0 3 0x100 4 0).status.busy = true ∧
      decode (flight .rleEnc 0 3 0x100 4 0).latch.word = .ok .rleEnc := by
  unfold Serving; decide +kernel

/-- CmdWriteFallsBeforeOrAfterCompletion: a CMD write about to arrive while a NOP is in flight. -/
theorem witness_cmd_race :
    let s : State :=
      { flight .nop 0 0 0 0 0 with
        agent := { HostAgent.reset with todo := [.write .word 0xC 0x30] }, order := [.engine, .host] }
    s.params.deviceOrdered = true ∧ s.status.busy = true ∧ s.agent.todo = [.write .word (s.regAddr .cmd) 0x30] := by
  decide +kernel

theorem inv_cmd_race_witness :
    ({ flight .nop 0 0 0 0 0 with
      agent := { HostAgent.reset with todo := [.write .word 0xC 0x30] }, order := [.engine, .host] } : State).Inv := by
  constructor <;> first | decide +kernel | (constructor <;> decide +kernel)

/-- CommandFailsWithItsFirstFailure: an error before any output, and a data error. -/
theorem witness_first_failure :
    firstFailure (checks (flight .rleEnc 0 3 2 16 0 [0, 1, 2]) .rleEnc) = some 11 ∧
      firstFailure (checks (flight (.bwtFwd 0) 0 3 0x100 4 0 [0, 1, 2]) (.bwtFwd 0)) = some 2 ∧
      firstFailure (checks (flight .bswPush 0 0 0 0 0) .bswPush) = some 13 := by decide +kernel

/-- CommandSucceedsWhenNoCheckFails, ErrorCodesPerCommand, CommandsChangeOnlyWhatTheirRulesName and
TransformsDependOnTheirSourceOnly: commands that succeed and one that fails. -/
theorem witness_no_failure :
    firstFailure (checks (flight .rleEnc 0 3 3 16 0 [0, 1, 2]) .rleEnc) = none ∧
      firstFailure (checks (flight .nop 0 0 0 0 0) .nop) = none ∧
      (transformOf .rleEnc).isSome = true := by decide +kernel
theorem inv_transform_witness : (flight .rleEnc 0 3 3 16 0 [0, 1, 2]).Inv := by
  constructor <;> first | decide +kernel | (constructor <;> decide +kernel)
theorem witness_command_fails :
    (flight .rleEnc 0 3 2 16 0 [0, 1, 2]).status.err = false ∧
      regOf (exec .rleEnc (flight .rleEnc 0 3 2 16 0 [0, 1, 2])) .status = some 0xB04 := by decide +kernel

/-- TransformsDependOnTheirSourceOnly: two memories that differ outside the source region. -/
theorem witness_two_memories :
    let s := flight .rleEnc 0 3 0x100 16 0 [0, 1, 2, 3]
    let s' := { s with dmem := Memory.cellsFrom 0 (bytes [0, 1, 2, 9]) }
    s.readByte 0 = s'.readByte 0 ∧ s.readByte 1 = s'.readByte 1 ∧ s.readByte 2 = s'.readByte 2 ∧
      s.readByte 3 ≠ s'.readByte 3 := by decide +kernel

/-- OpensStartAFreshStream at the boundary: an empty region at the end of DMEM, NBITS 16. -/
theorem witness_opens :
    (16 : BitVec 5).toNat ≤ 16 ∧
      (flight (.bswOpen 16) 65536 0 65536 0 0).latch.dstAddr.toNat +
        (flight (.bswOpen 16) 65536 0 65536 0 0).latch.dstCap.toNat ≤ 65536 ∧
      (flight (.bswOpen 16) 65536 0 65536 0 0).latch.srcAddr.toNat +
        (flight (.bswOpen 16) 65536 0 65536 0 0).latch.srcLen.toNat ≤ 65536 := by decide +kernel

/-- SetWidthChangesOnlyTheWidth. -/
theorem witness_open_streams :
    (flightW (.bswSetw 9) 0 8 0 0 16).writer.isOpen = true ∧ (flightR (.bsrSetw 9) 8 0 [1]).reader.isOpen = true ∧
      1 ≤ (9 : BitVec 5).toNat ∧ (9 : BitVec 5).toNat ≤ 16 := by decide +kernel

/-- PushAppendsTheCode with the buffer exactly full after the push, and FinishFlushesThePartialByte. -/
theorem witness_push :
    let s := flightW .bswPush 0x1FF 9 7 0x7F 2
    s.params.dmemSize ≤ 2 ^ 28 ∧ s.writer.isOpen = true ∧
      s.writer.bits.toNat + s.writer.width.toNat = 8 * s.writer.cap.toNat := by decide +kernel
theorem witness_writer_ok : (flightW .bswPush 0x1FF 9 7 0x7F 2).writer.Ok 65536 := by
  constructor <;> decide +kernel

/-- ShiftExtractsTheNextCode: exactly the width left, and one bit less. -/
theorem witness_shift :
    let s := flightR .bsrShift 9 7 [1, 2]
    let s' := flightR .bsrShift 9 8 [1, 2]
    s.reader.isOpen = true ∧ s.reader.pos.toNat + s.reader.width.toNat ≤ 8 * s.reader.len.toNat ∧
      s'.reader.isOpen = true ∧ 8 * s'.reader.len.toNat < s'.reader.pos.toNat + s'.reader.width.toNat := by
  decide +kernel
theorem witness_reader_ok : (flightR .bsrShift 9 7 [1, 2]).reader.Ok 65536 := by
  constructor <;> decide +kernel

/-- TransformsWriteTheirOutput: a destination exactly as long as the output, and in place. -/
theorem witness_transform :
    let s := flight .rleEnc 0 3 3 6 0 [0, 1, 2]
    badSource s = false ∧ badDest s = false ∧ overlap s = false ∧
      rleEncF (source s) = .ok (bytes [0, 1, 1, 1, 2, 1]) ∧ (bytes [0, 1, 1, 1, 2, 1]).length ≤ outCap s .rleEnc ∧
      isInPlace .rleEnc = false ∧ isInPlace (.mtfEnc true) = true := by decide +kernel

/-- MtfInPlaceOverwritesItsSource: a source that ends at the last byte of DMEM. -/
theorem witness_in_place : badSource (flight (.mtfEnc true) 65533 3 0 0 0) = false := by decide +kernel

/-- RleDecodesPairs (odd length), RotationIndexIsTheStableSort, BwtForwardShape, BwtRoundTrip. -/
theorem witness_bwt_input :
    (bytes [5]).length % 2 = 1 ∧ bytes [2, 1, 2, 1] ≠ [] ∧ (0 : Byte) ∉ bytes [2, 1, 2, 1] ∧
      (rotationIndex (bytes [2, 1, 2, 1]))[0]? = some 1 ∧ (rotationIndex (bytes [2, 1, 2, 1]))[1]? = some 3 := by
  decide +kernel

/-- MtfTableStaysAPermutation. -/
theorem witness_mtf_table : mtfTable.Perm mtfTable ∧ 255 < 256 := ⟨List.Perm.refl _, by decide⟩

/-- BwtInversePointerStaysInRange: two positions with one rank map value are one position. -/
theorem witness_bwt_pointer :
    5 < (bytes [110, 110, 98, 97, 97, 97]).length ∧
      lfStep (bytes [110, 110, 98, 97, 97, 97]) 5 = lfStep (bytes [110, 110, 98, 97, 97, 97]) 5 := by decide +kernel

/-- LzwCodesFollowTheWidthSchedule and LzwRoundTrip: maxBits at both ends, and an emitted code. -/
theorem witness_lzw :
    9 ≤ 9 ∧ 9 ≤ 16 ∧ 16 ≤ 16 ∧ (lzwCodes 9 false (bytes [97, 97, 97, 97]))[1]? = some (256, 9) ∧
      (lzwCodes 9 false (bytes [97, 97, 97, 97]))[0]? = some (97, 8) := by decide +kernel

/-- WriterBufferHoldsThePackedCodes: two codes whose widths change, in a buffer they just fit. -/
theorem witness_writer_codes :
    let s := flightW .nop 0 8 0 0 3
    let codes : List (Word × BitVec 5) := [(0x41, 8), (0x042, 9)]
    s.writer.isOpen = true ∧ s.writer.bits = 0 ∧ (∀ c ∈ codes, 1 ≤ c.2.toNat ∧ c.2.toNat ≤ 16) ∧
      totalWidth codes ≤ 8 * s.writer.cap.toNat :=
  ⟨rfl, rfl, by simp, by decide +kernel⟩
theorem witness_fresh_writer_ok : (flightW .nop 0 8 0 0 3).writer.Ok 65536 := by
  constructor <;> decide +kernel

/-- ReaderReturnsThePackedCodes: the buffer of L2-S7. -/
theorem witness_reader_codes :
    let s := flightR .nop 8 0 [0x41, 0x42, 0x00]
    let codes : List (Word × BitVec 5) := [(0x41, 8), (0x042, 9)]
    s.reader.isOpen = true ∧ s.reader.pos = 0 ∧
      (∀ c ∈ codes, 1 ≤ c.2.toNat ∧ c.2.toNat ≤ 16 ∧ c.1.toNat < 2 ^ c.2.toNat) ∧
      s.reader.len.toNat = (totalWidth codes + 7) / 8 ∧
      leValue (s.region s.reader.base.toNat s.reader.len.toNat) = packedValue codes :=
  ⟨rfl, rfl, by simp, by decide +kernel, by decide +kernel⟩
theorem witness_fresh_reader_ok : (flightR .nop 8 0 [0x41, 0x42, 0x00]).reader.Ok 65536 := by
  constructor <;> decide +kernel

/-- StepKeepsTheInvariant: the machine steps from reset. -/
theorem witness_step : regOf (step State.reset) .id = some 0x43540701 := by decide +kernel

/-- CommandThenWaitCompletes. -/
theorem witness_cmd_wait :
    let s := hosted [.cmd .nop, .wait]
    s.status.busy = false ∧ s.order = [] ∧ s.agent.todo = [] ∧ s.agent.prog[s.agent.pc]? = some (.cmd .nop) ∧
      s.agent.prog[s.agent.pc + 1]? = some .wait ∧ Instr.nop.wellFormed = true := by decide +kernel
theorem inv_cmd_wait_witness : (hosted [.cmd .nop, .wait]).Inv ∧ Serving (hosted [.cmd .nop, .wait]) := by
  refine ⟨?_, by unfold Serving; decide +kernel⟩
  constructor <;> first | decide +kernel | (constructor <;> decide +kernel)

/-- RmemReturnsTheRegion at the last two bytes of DMEM. -/
theorem witness_rmem :
    let s := hosted [.rmem (.const (.int 65534)) (.const (.int 2))]
    Serving s ∧ s.status.busy = false ∧ s.order = [] ∧ s.agent.todo = [] ∧
      s.agent.prog[s.agent.pc]? = some (.rmem (.const (.int 65534)) (.const (.int 2))) ∧
      65534 + 2 ≤ s.params.dmemSize := by
  unfold Serving; decide +kernel

/-- HostControlStatementsMakeNoAccess: an assignment, a statement that does not jump, and a jump to a label that is
there twice. -/
theorem witness_control :
    let s := hosted [.goto 1, .label 1, .label 1]
    let s' := hosted [.assign 0 (.const (.int (-1)))]
    s.status.busy = false ∧ s.order = [] ∧ s.agent.todo = [] ∧ s.agent.prog[s.agent.pc]? = some (.goto 1) ∧
      isControl (.goto 1) = true ∧ jumpsTo s.agent (.goto 1) = some 1 ∧ s.agent.prog[2]? = some (.label 1) ∧
      s'.agent.prog[s'.agent.pc]? = some (.assign 0 (.const (.int (-1)))) ∧
      jumpsTo s'.agent (.assign 0 (.const (.int (-1)))) = none := by decide +kernel

/-- WrWritesTheHostValue at the widest value. -/
theorem witness_wr_variable :
    let s := { State.reset with agent := { HostAgent.reset with prog := [.wr .ctrl (.var 0)],
                                                                vars := [(0, .int 0xFFFFFFFF)] } }
    Serving s ∧ s.status.busy = false ∧ s.order = [] ∧ s.agent.todo = [] ∧
      s.agent.prog[s.agent.pc]? = some (.wr .ctrl (.var 0)) ∧
      s.agent.vars.lookup 0 = some (.int (0xFFFFFFFF : Nat)) ∧ 0xFFFFFFFF < 2 ^ 32 := by
  unfold Serving; decide +kernel

end Sys2Proof.Tests
end

section
/-! PROOF. Proofs/Registers.lean: the bits of a word as numbers, STATUS, CTRL and STREAM as numbers, and the statements
about register fields, STATUS writes and the interrupt output (10_state.md R23 to R25, R31, R34, R42). -/

namespace Sys2Proof.Machine

open Sys2Proof.Claims

/-! ### Bits of a word -/

theorem testBit_bits (w : Word) (lo len i : Nat) :
    (bits w lo len).testBit i = (decide (i < len) && w.getLsbD (lo + i)) := by
  rw [bits, Nat.testBit_mod_two_pow, Nat.testBit_div_two_pow, BitVec.testBit_toNat, Nat.add_comm]

theorem bits_one (w : Word) (i : Nat) : bits w i 1 = (w.getLsbD i).toNat := by
  rw [bits, ← BitVec.testBit_toNat, Nat.toNat_testBit, Nat.pow_one]

theorem bits_one_eq_one_iff {w : Word} {i : Nat} : bits w i 1 = 1 ↔ w.getLsbD i = true := by
  rw [bits_one, Bool.toNat_eq_one]

/-- Words that agree on a range of bits agree on each bit of it. -/
theorem getLsbD_eq_of_bits_eq {v v' : Word} {lo len i : Nat} (h : bits v lo len = bits v' lo len) (hlo : lo ≤ i)
    (hi : i < lo + len) : v.getLsbD i = v'.getLsbD i := by
  have hbit := congrArg (Nat.testBit · (i - lo)) h
  simpa only [testBit_bits, Nat.add_sub_cancel' hlo, decide_eq_true (show i - lo < len by omega), Bool.true_and]
    using hbit

/-- Words put side by side are one number in a mixed radix. -/
theorem toNat_append_eq_add {m n : Nat} (x : BitVec m) (y : BitVec n) :
    (x ++ y).toNat = x.toNat * 2 ^ n + y.toNat := by
  rw [BitVec.toNat_append, ← Nat.shiftLeft_add_eq_or_of_lt y.isLt, Nat.shiftLeft_eq]

/-! ### CTRL, STATUS and STREAM as numbers -/

theorem State.toNat_ctrlWord (s : State) : s.ctrlWord.toNat = s.irqEn.toNat := by
  simp only [State.ctrlWord, toNat_append_eq_add, BitVec.toNat_ofBool, BitVec.toNat_ofNat]
  omega

theorem Status.toNat_word (t : Status) :
    t.word.toNat = t.busy.toNat + 2 * t.done.toNat + 4 * t.err.toNat + 8 * t.eos.toNat + 16 * t.cmdLost.toNat +
      2 ^ 8 * t.errCode.toNat := by
  simp only [Status.word, toNat_append_eq_add, BitVec.toNat_ofBool, BitVec.toNat_ofNat]
  omega

theorem State.toNat_streamWord (s : State) :
    s.streamWord.toNat = s.writer.width.toNat + 2 ^ 7 * s.writer.isOpen.toNat + 2 ^ 8 * s.reader.width.toNat +
      2 ^ 15 * s.reader.isOpen.toNat + 2 ^ 16 * s.writer.acc.toNat := by
  simp only [State.streamWord, toNat_append_eq_add, BitVec.toNat_ofBool, BitVec.toNat_ofNat]
  omega

/-! ### Fields the interrupt depends on -/

theorem State.bits_ctrl_irqEn (s : State) : bits (s.readReg .ctrl) 0 1 = s.irqEn.toNat := by
  have h := s.irqEn.toNat_lt
  rw [State.readReg, bits, s.toNat_ctrlWord]
  omega

theorem State.bits_status_done (s : State) : bits (s.readReg .status) 1 1 = s.status.done.toNat := by
  have hbusy := s.status.busy.toNat_lt
  have hdone := s.status.done.toNat_lt
  rw [State.readReg, bits, s.status.toNat_word]
  omega

theorem State.bits_status_err (s : State) : bits (s.readReg .status) 2 1 = s.status.err.toNat := by
  have hbusy := s.status.busy.toNat_lt
  have hdone := s.status.done.toNat_lt
  have herr := s.status.err.toNat_lt
  rw [State.readReg, bits, s.status.toNat_word]
  omega

/-! ### Reserved offsets and fields (10_state.md R34) -/

theorem State.readOffset_reserved (s : State) {o : Nat} (h : 0x44 ≤ o) : s.readOffset o = 0 := by
  rw [State.readOffset, Reg.at?_reserved h]

theorem State.writeOffset_reserved (s : State) {o : Nat} (h : 0x44 ≤ o) (v : Word) : s.writeOffset o v = s := by
  rw [State.writeOffset, Reg.at?_reserved h]

/-- The reserved bits of CTRL, and SRST with them, read 0 (10_state.md R23). -/
theorem State.bits_ctrl_reserved (s : State) : bits (s.readReg .ctrl) 1 31 = 0 := by
  have h := s.irqEn.toNat_lt
  rw [State.readReg, bits, s.toNat_ctrlWord]
  omega

/-- The reserved bits of STATUS read 0 (10_state.md R24). -/
theorem State.bits_status_reserved (s : State) :
    bits (s.readReg .status) 5 3 = 0 ∧ bits (s.readReg .status) 12 20 = 0 := by
  have hbusy := s.status.busy.toNat_lt
  have hdone := s.status.done.toNat_lt
  have herr := s.status.err.toNat_lt
  have heos := s.status.eos.toNat_lt
  have hlost := s.status.cmdLost.toNat_lt
  have hcode := s.status.errCode.isLt
  rw [State.readReg, bits, bits, s.status.toNat_word]
  omega

/-- The reserved bits of STREAM read 0 (10_state.md R31). -/
theorem State.bits_stream_reserved (s : State) :
    bits (s.readReg .stream) 5 2 = 0 ∧ bits (s.readReg .stream) 13 2 = 0 ∧ bits (s.readReg .stream) 24 8 = 0 := by
  have hww := s.writer.width.isLt
  have hwo := s.writer.isOpen.toNat_lt
  have hrw := s.reader.width.isLt
  have hro := s.reader.isOpen.toNat_lt
  have hacc := s.writer.acc.isLt
  rw [State.readReg, bits, bits, bits, s.toNat_streamWord]
  omega

/-- A CTRL write depends on IRQ_EN and SRST only (10_state.md R23). -/
theorem State.writeCtrl_congr (s : State) {v v' : Word} (h0 : v.getLsbD 0 = v'.getLsbD 0)
    (h1 : v.getLsbD 1 = v'.getLsbD 1) : s.writeCtrl v = s.writeCtrl v' := by
  rw [State.writeCtrl, State.writeCtrl, h0, h1]

/-- A STATUS write depends on the write-one-to-clear bits only (10_state.md R25). -/
theorem Status.clear_congr (t : Status) {v v' : Word} (h1 : v.getLsbD 1 = v'.getLsbD 1)
    (h2 : v.getLsbD 2 = v'.getLsbD 2) (h4 : v.getLsbD 4 = v'.getLsbD 4) : t.clear v = t.clear v' := by
  rw [Status.clear, Status.clear, h1, h2, h4]

/-! ### STATUS writes (10_state.md R25) -/

/-- A flag is kept unless a one is written to its bit. -/
theorem and_not_getLsbD_eq_ite (b : Bool) (v : Word) (i : Nat) :
    (b && !v.getLsbD i) = if bits v i 1 = 1 then false else b := by
  simp only [bits_one_eq_one_iff]
  cases v.getLsbD i <;> simp

theorem Status.clear_eq (v : Word) (t : Status) :
    t.clear v =
      { t with
        done := if bits v 1 1 = 1 then false else t.done
        err := if bits v 2 1 = 1 then false else t.err
        cmdLost := if bits v 4 1 = 1 then false else t.cmdLost } := by
  simp only [Status.clear, and_not_getLsbD_eq_ite]

end Sys2Proof.Machine

namespace Sys2Proof.Proofs

open Sys2Proof Sys2Proof.Machine Sys2Proof.Claims

/-- Settles O8: no register lies at or above 0x044, the words of CTRL, STATUS and STREAM have zeros at their reserved
bits, and a write looks at defined bits only. -/
theorem reservedOffsetsAndFieldsReadZero : Obligations.ReservedOffsetsAndFieldsReadZero := by
  intro s v v'
  obtain ⟨hstatus5, hstatus12⟩ := s.bits_status_reserved
  obtain ⟨hstream5, hstream13, hstream24⟩ := s.bits_stream_reserved
  refine ⟨fun o ho _ _ => ⟨s.readOffset_reserved ho, s.writeOffset_reserved ho v⟩, s.bits_ctrl_reserved, hstatus5,
    hstatus12, hstream5, hstream13, hstream24, fun h => ?ctrl, fun h => ?status⟩
  case ctrl =>
    exact s.writeCtrl_congr (getLsbD_eq_of_bits_eq h (by decide) (by decide))
      (getLsbD_eq_of_bits_eq h (by decide) (by decide))
  case status =>
    have hclear : s.status.clear v = s.status.clear v' :=
      s.status.clear_congr (getLsbD_eq_of_bits_eq h (by decide) (by decide))
        (getLsbD_eq_of_bits_eq h (by decide) (by decide)) (getLsbD_eq_of_bits_eq h (by decide) (by decide))
    rw [State.writeReg, State.writeReg, State.acknowledge, State.acknowledge, hclear]

/-- Settles O5: a served STATUS write is the acknowledgement, flag by flag. -/
theorem statusWriteClearsOnes : Obligations.StatusWriteClearsOnes := by
  rintro s v ⟨hordered, hreset⟩
  have hwrite : s.serve (.write .word (s.regAddr .status) v) = .next (s.acknowledge v) :=
    State.hostWrite_eq hordered hreset .status v
  rw [State.acknowledge, Status.clear_eq] at hwrite
  exact hwrite

/-- Settles O16: the three bits the host reads are IRQ_EN, DONE and ERR. -/
theorem irqIsEnabledCompletion : Obligations.IrqIsEnabledCompletion := by
  intro s
  rw [s.bits_ctrl_irqEn, s.bits_status_done, s.bits_status_err, Bool.toNat_eq_one, Bool.toNat_eq_one,
    Bool.toNat_eq_one, State.irq, Bool.and_eq_true, Bool.or_eq_true]

end Sys2Proof.Proofs
end

section
/-! PROOF. Proofs/Encoding.lean: the fields of a command word as numbers, which words the decoder accepts, and the
engine step of a word of each kind (30_encoding.md R83, R85 to R87). -/

namespace Sys2Proof.Machine

open Sys2Proof.Claims

/-! ### The fields of a command word as numbers (R80) -/

theorem toNat_extractLsb'_eq_bits (w : Word) (lo len : Nat) : (w.extractLsb' lo len).toNat = bits w lo len := by
  rw [BitVec.extractLsb'_toNat, Nat.shiftRight_eq_div_pow, bits]

theorem toNat_opField (w : Word) : (opField w).toNat = bits w 0 8 := toNat_extractLsb'_eq_bits w 0 8

theorem toNat_nbitsField (w : Word) : (nbitsField w).toNat = bits w 16 5 := toNat_extractLsb'_eq_bits w 16 5

/-- A field is zero as bits exactly when it is zero as a number. -/
theorem extractLsb'_eq_zero_iff (w : Word) (lo len : Nat) : w.extractLsb' lo len = 0 ↔ bits w lo len = 0 := by
  rw [← toNat_extractLsb'_eq_bits]
  exact BitVec.toNat_eq

theorem markField_eq_zero_iff (w : Word) : markField w = 0 ↔ bits w 8 8 = 0 := extractLsb'_eq_zero_iff w 8 8

theorem nbitsField_eq_zero_iff (w : Word) : nbitsField w = 0 ↔ bits w 16 5 = 0 := extractLsb'_eq_zero_iff w 16 5

theorem rsv0Field_eq_zero_iff (w : Word) : rsv0Field w = 0 ↔ bits w 21 3 = 0 := extractLsb'_eq_zero_iff w 21 3

theorem rsv1Field_eq_zero_iff (w : Word) : rsv1Field w = 0 ↔ bits w 26 6 = 0 := extractLsb'_eq_zero_iff w 26 6

theorem bits_one_eq_zero_iff {w : Word} {i : Nat} : bits w i 1 = 0 ↔ w.getLsbD i = false := by
  rw [bits_one, Bool.toNat_eq_zero]

theorem fixedField_eq_false_iff (w : Word) : fixedField w = false ↔ bits w 24 1 = 0 := bits_one_eq_zero_iff.symm

theorem inPlaceField_eq_false_iff (w : Word) : inPlaceField w = false ↔ bits w 25 1 = 0 := bits_one_eq_zero_iff.symm

/-! ### The rows of the opcode table (R81, R83, R85) -/

/-- The fields R85 marks "used", by the number of the opcode. -/
def usedFields (op : Nat) : FieldUse where
  mark := op ∈ [0x40, 0x41]
  nbits := op ∈ [0x10, 0x11, 0x18, 0x19, 0x20, 0x21]
  fixedWidth := op ∈ [0x20, 0x21]
  inPlace := op ∈ [0x50, 0x51]

theorem opcodeRow_of_not_mem {w : Word} (h : bits w 0 8 ∉ opcodes) : opcodeRow w = none := by
  rw [← toNat_opField] at h
  unfold opcodeRow
  split
  case h_17 => rfl
  all_goals
    rename_i hop
    simp [hop, opcodes] at h

/-- An opcode of the table has its row; the row marks the fields R85 does, and its command is ill formed exactly when
NBITS is out of the range R83 gives the opcode. -/
theorem opcodeRow_of_mem {w : Word} (h : bits w 0 8 ∈ opcodes) :
    ∃ i, opcodeRow w = some (usedFields (bits w 0 8), i) ∧ (i.wellFormed = false ↔ BadNbits w) := by
  rw [BadNbits, ← toNat_opField, ← toNat_nbitsField]
  rw [← toNat_opField] at h
  unfold opcodeRow
  split
  case h_17 =>
    simp_all [opcodes, BitVec.toNat_eq]
  all_goals
    rename_i hop
    rw [hop]
    refine ⟨_, rfl, ?_⟩
    simp [Instr.wellFormed, openNbitsOk, setwNbitsOk, lzwNbitsOk]
  all_goals omega

/-! ### Legal and illegal words (R86, R87) -/

/-- The grounds of R86 in terms of the decoder's fields. -/
theorem illegalWord_iff (w : Word) :
    IllegalWord w ↔
      bits w 0 8 ∉ opcodes ∨ (rsv0Field w ≠ 0 ∨ rsv1Field w ≠ 0) ∨
        unusedZero (usedFields (bits w 0 8)) w = false := by
  simp only [IllegalWord, unusedZero, usedFields, Bool.and_eq_false_iff, Bool.or_eq_false_iff, beq_eq_false_iff_ne,
    Bool.not_eq_eq_eq_not, Bool.not_false, decide_eq_false_iff_not, ne_eq, markField_eq_zero_iff,
    nbitsField_eq_zero_iff, rsv0Field_eq_zero_iff, rsv1Field_eq_zero_iff, ← fixedField_eq_false_iff,
    ← inPlaceField_eq_false_iff, Bool.not_eq_false]
  tauto

theorem decode_of_illegal {w : Word} (h : IllegalWord w) : ∃ r, decode w = .error r := by
  by_cases hop : bits w 0 8 ∈ opcodes
  · obtain ⟨i, hrow, -⟩ := opcodeRow_of_mem hop
    have hfield := ((illegalWord_iff w).mp h).resolve_left (not_not_intro hop)
    by_cases hrsv : rsv0Field w ≠ 0 ∨ rsv1Field w ≠ 0
    · exact ⟨.reservedBits, by simp only [decode, hrow, if_pos hrsv]⟩
    · exact ⟨.unusedField, by simp only [decode, hrow, if_neg hrsv, hfield.resolve_left hrsv]; rfl⟩
  · exact ⟨.unassignedOpcode, by rw [decode, opcodeRow_of_not_mem hop]⟩

theorem decode_of_legal {w : Word} (h : ¬IllegalWord w) :
    ∃ i, decode w = .ok i ∧ (i.wellFormed = false ↔ BadNbits w) := by
  rw [illegalWord_iff, not_or, not_or, not_not, Bool.not_eq_false] at h
  obtain ⟨hop, hrsv, hunused⟩ := h
  obtain ⟨i, hrow, hwf⟩ := opcodeRow_of_mem hop
  exact ⟨i, by simp only [decode, hrow, if_neg hrsv, if_pos hunused], hwf⟩

/-! ### The engine step (R86, R87) -/

theorem State.raise_illegalCommand (s : State) : s.raise .illegalCommand = failed 8 s := rfl

theorem State.raise_badOption (s : State) : s.raise .badOption = failed 9 s := rfl

theorem State.engineStep_of_ok {s : State} {i : Instr} (h : decode s.latch.word = .ok i) :
    s.engineStep = exec i s := by
  rw [State.engineStep, h]

theorem State.engineStep_of_error {s : State} {r : Reject} (h : decode s.latch.word = .error r) :
    s.engineStep = .next (s.raise .illegalCommand) := by
  rw [State.engineStep, h]

/-- A command whose NBITS is out of range fails with BAD_OPTION, before any other check (R83). -/
theorem exec_of_not_wellFormed {i : Instr} (h : i.wellFormed = false) (s : State) :
    exec i s = .next (s.raise .badOption) := by
  cases i with
  | bswOpen n | bsrOpen n =>
    have hn : openWidth n = none := by rw [openWidth, show openNbitsOk n = false from h]; rfl
    simp only [exec, execBswOpen, execBsrOpen, hn]
  | bswSetw n | bsrSetw n =>
    have hn : setwWidth n = none := by rw [setwWidth, show setwNbitsOk n = false from h]; rfl
    simp only [exec, execBswSetw, execBsrSetw, hn]
  | lzwEnc n | lzwDec n =>
    have hn : lzwMaxBits n = none := by rw [lzwMaxBits, show lzwNbitsOk n = false from h]; rfl
    simp only [exec, execLzwEnc, execLzwDec, hn]
  | _ => cases h

end Sys2Proof.Machine

namespace Sys2Proof.Proofs

open Sys2Proof Sys2Proof.Machine Sys2Proof.Claims

/-- Settles O3: the decoder rejects exactly the illegal words, and the command of a legal word is ill formed exactly
when its NBITS is out of range, which its meaning checks first. -/
theorem illegalWordsCompleteWithIllegalCommand : Obligations.IllegalWordsCompleteWithIllegalCommand := by
  refine fun s => ⟨fun hillegal => ?illegal, fun hlegal hbad => ?badOption, fun hlegal hgood => ?runs⟩
  case illegal =>
    obtain ⟨r, hdecode⟩ := decode_of_illegal hillegal
    rw [State.engineStep_of_error hdecode, State.raise_illegalCommand]
  case badOption =>
    obtain ⟨i, hdecode, hwf⟩ := decode_of_legal hlegal
    rw [State.engineStep_of_ok hdecode, exec_of_not_wellFormed (hwf.mpr hbad), State.raise_badOption]
  case runs =>
    obtain ⟨i, hdecode, hwf⟩ := decode_of_legal hlegal
    have hi : i.wellFormed = true := Bool.eq_true_of_not_eq_false (hgood ∘ hwf.mp)
    exact ⟨i, by rw [decodeCommand, hdecode]; exact if_pos hi, State.engineStep_of_ok hdecode⟩

end Sys2Proof.Proofs
end

section
/-! PROOF. Proofs/CommandCycle.lean: CMD writes, everything a command can do, and what it leaves unchanged
(40_command_cycle.md R101, R102, R104, R108, R109). -/

namespace Sys2Proof.Machine

open Sys2Proof.Claims

/-! ### CMD writes (R101, R102) -/

theorem State.issue_of_idle {s : State} (h : s.status.busy = false) (w : Word) : s.issue w = s.accept w := by
  simp [State.issue, h]

theorem State.issue_of_busy {s : State} (h : s.status.busy = true) (w : Word) :
    s.issue w = { s with status := { s.status with cmdLost := true } } := by
  simp [State.issue, h]

/-- A served write at CMD's bus address issues the word. -/
theorem State.serve_cmd_write {s : State} (h : Serving s) (w : Word) :
    s.serve (.write .word (s.params.blockBase + 0x00C) w) = .next (s.issue w) := by
  obtain ⟨hordered, hreset⟩ := h
  exact State.hostWrite_eq hordered hreset .cmd w

theorem State.bits_status_busy (s : State) : bits (s.readReg .status) 0 1 = s.status.busy.toNat := by
  have hbusy := s.status.busy.toNat_lt
  rw [State.readReg, bits, s.status.toNat_word]
  omega

/-! ### The bytes BSW_PUSH completes (41_bitstream.md R126) -/

/-- The loop completes a byte each time the stream position passes a multiple of 8. -/
theorem pushLoop_length (code B k i acc : Nat) : (pushLoop code B k i acc).1.length = ((B + i) % 8 + k) / 8 := by
  induction k generalizing i acc with
  | zero => simp [pushLoop]
  | succ k ih =>
    rw [pushLoop]
    dsimp only
    split
    · rw [List.length_cons, ih]; omega
    · rw [ih]; omega

/-- The completed bytes and the partial byte BSW_PUSH leaves, from the writer and the latched DATA. -/
def State.pushed (s : State) : List Byte × Nat :=
  pushLoop (s.latch.data.toNat % 2 ^ s.writer.width.toNat) s.writer.bits.toNat s.writer.width.toNat 0
    s.writer.acc.toNat

theorem State.pushed_length (s : State) :
    s.pushed.1.length = (s.writer.bits.toNat % 8 + s.writer.width.toNat) / 8 := pushLoop_length ..

/-- The padded byte BSW_FINISH writes; none where the stream ends on a byte boundary (41_bitstream.md R127). -/
def State.finishTail (s : State) : List Byte := if s.writer.bits.toNat % 8 = 0 then [] else [s.writer.acc]

/-! ### Everything a command can do -/

/-- `CommandEffect i s t`: command `i` may take `s` to `t`. It fails before any output, or fails with its output region
unspecified (R108), or succeeds with the changes its own rule names. -/
inductive CommandEffect : Instr → State → State → Prop
  | fails (i : Instr) (s : State) (e : Error) : CommandEffect i s (s.raise e)
  | nop (s : State) : CommandEffect .nop s s.complete
  | bswOpen {n w : BitVec 5} {s : State} (hwidth : openWidth n = some w)
      (hregion : s.validRegion s.latch.dstAddr s.latch.dstCap = true) :
      CommandEffect (.bswOpen n) s
        (State.complete { s with writer := ⟨w, true, 0, 0, s.latch.dstAddr, s.latch.dstCap⟩ })
  | bswSetw {n w : BitVec 5} {s : State} (hwidth : setwWidth n = some w) (hopen : s.writer.isOpen = true) :
      CommandEffect (.bswSetw n) s (State.complete { s with writer := { s.writer with width := w } })
  | bswPush {s : State} (hopen : s.writer.isOpen = true)
      (hfits : ceilDiv (s.writer.bits.toNat + s.writer.width.toNat) 8 ≤ s.writer.cap.toNat) :
      CommandEffect .bswPush s
        (State.complete
          { s.writeBytes (s.writer.base.toNat + s.writer.bits.toNat / 8) s.pushed.1 with
            writer :=
              { s.writer with
                bits := BitVec.ofNat 32 (s.writer.bits.toNat + s.writer.width.toNat)
                acc := BitVec.ofNat 8 s.pushed.2 } })
  | bswFinish {s : State} (hopen : s.writer.isOpen = true) :
      CommandEffect .bswFinish s
        (State.complete
          { s.writeBytes (s.writer.base.toNat + s.writer.bits.toNat / 8) s.finishTail with
            resultLen := BitVec.ofNat 32 (ceilDiv s.writer.bits.toNat 8)
            writer := { s.writer with acc := 0, isOpen := false } })
  | bsrOpen {n w : BitVec 5} {s : State} (hwidth : openWidth n = some w)
      (hregion : s.validRegion s.latch.srcAddr s.latch.srcLen = true) :
      CommandEffect (.bsrOpen n) s
        (State.complete
          { s with
            reader := ⟨w, true, 0, s.latch.srcAddr, s.latch.srcLen⟩
            status := { s.status with eos := false } })
  | bsrSetw {n w : BitVec 5} {s : State} (hwidth : setwWidth n = some w) (hopen : s.reader.isOpen = true) :
      CommandEffect (.bsrSetw n) s (State.complete { s with reader := { s.reader with width := w } })
  | bsrExhausted {s : State} (hopen : s.reader.isOpen = true)
      (hend : 8 * s.reader.len.toNat < s.reader.pos.toNat + s.reader.width.toNat) :
      CommandEffect .bsrShift s
        (State.complete { s with data := Config.exhausted, status := { s.status with eos := true } })
  | bsrShift {s : State} (hopen : s.reader.isOpen = true)
      (hmore : s.reader.pos.toNat + s.reader.width.toNat ≤ 8 * s.reader.len.toNat) :
      CommandEffect .bsrShift s
        (State.complete
          { s with
            data := BitVec.ofNat 32
              (readBits (fun j => s.readByte (s.reader.base.toNat + j)) s.reader.pos.toNat s.reader.width.toNat)
            reader := { s.reader with pos := BitVec.ofNat 32 (s.reader.pos.toNat + s.reader.width.toNat) }
            status := { s.status with eos := false } })
  | failsInOutput {i : Instr} {s : State} (hi : transformOf i ≠ none) (e : Error) :
      CommandEffect i s ((s.unspecify (outBase s i) (outCap s i)).raise e)
  | transforms {i : Instr} {s : State} {F : List Byte → Result} {y : List Byte} (hi : transformOf i = some F)
      (hy : F (source s) = .ok y) (hfits : y.length ≤ outCap s i) :
      CommandEffect i s
        (State.complete { s.writeBytes (outBase s i) y with resultLen := BitVec.ofNat 32 y.length })

theorem State.transformInto_effect (s : State) {i : Instr} {F : List Byte → Result} (hi : transformOf i = some F) :
    CommandEffect i s (s.transformInto F (outBase s i) (outCap s i)) := by
  have hsome : transformOf i ≠ none := by simp [hi]
  obtain ⟨e, -, heq⟩ | ⟨y, -, -, heq⟩ | ⟨y, hy, hfits, heq⟩ := s.transformInto_cases F (outBase s i) (outCap s i)
  · rw [heq]; exact .failsInOutput hsome e
  · rw [heq]; exact .failsInOutput hsome .outputOverflow
  · rw [heq]; exact .transforms hi hy hfits

theorem State.transform_effect (s : State) {i : Instr} {F : List Byte → Result} (hi : transformOf i = some F)
    (hplace : isInPlace i = false) : CommandEffect i s (s.transform F) := by
  have hinto := s.transformInto_effect hi
  rw [outBase, outCap, hplace] at hinto
  obtain ⟨-, heq⟩ | ⟨-, -, -, heq⟩ | ⟨-, -, -, heq⟩ := s.transform_cases F
  · rw [heq]; exact .fails ..
  · rw [heq]; exact .fails ..
  · rw [heq]; exact hinto

theorem State.transformInPlace_effect (s : State) {i : Instr} {F : List Byte → Result} (hi : transformOf i = some F)
    (hplace : isInPlace i = true) : CommandEffect i s (s.transformInPlace F) := by
  have hinto := s.transformInto_effect hi
  rw [outBase, outCap, hplace] at hinto
  obtain ⟨-, heq⟩ | ⟨-, heq⟩ := s.transformInPlace_cases F
  · rw [heq]; exact .fails ..
  · rw [heq]; exact hinto

/-- MTF takes either form of the template (45_mtf.md R212). -/
theorem State.mtf_effect (s : State) {i : Instr} {F : List Byte → Result} (hi : transformOf i = some F) :
    CommandEffect i s (if isInPlace i then s.transformInPlace F else s.transform F) := by
  cases hplace : isInPlace i with
  | true => exact s.transformInPlace_effect hi hplace
  | false => exact s.transform_effect hi hplace

theorem maxBitsOf_eq {n : BitVec 5} {m : Nat} (h : lzwMaxBits n = some m) : maxBitsOf n = m := by
  rw [(lzwMaxBits_eq_some.mp h).2, maxBitsOf]
  simp [BitVec.toNat_eq]

/-! ### Every completion is one of these effects -/

section

variable {s t : State}

theorem execBswOpen_effect {n : BitVec 5} (h : execBswOpen n s = .next t) : CommandEffect (.bswOpen n) s t := by
  unfold execBswOpen at h
  split at h
  case h_1 => cases h; exact .fails ..
  case h_2 w hwidth =>
    split_ifs at h with hregion
    · cases h; exact .fails ..
    · cases h; exact .bswOpen hwidth (by simpa using hregion)

theorem execBswSetw_effect {n : BitVec 5} (h : execBswSetw n s = .next t) : CommandEffect (.bswSetw n) s t := by
  unfold execBswSetw at h
  split at h
  case h_1 => cases h; exact .fails ..
  case h_2 w hwidth =>
    split_ifs at h with hopen
    · cases h; exact .fails ..
    · cases h; exact .bswSetw hwidth (by simpa using hopen)

theorem execBswPush_effect (h : execBswPush s = .next t) : CommandEffect .bswPush s t := by
  unfold execBswPush at h
  dsimp only at h
  split_ifs at h with hopen hfull
  · cases h; exact .fails ..
  · cases h; exact .fails ..
  · cases h; exact .bswPush (by simpa using hopen) (Nat.le_of_not_lt hfull)

theorem execBswFinish_effect (h : execBswFinish s = .next t) : CommandEffect .bswFinish s t := by
  unfold execBswFinish at h
  dsimp only at h
  rw [← State.finishTail] at h
  split_ifs at h with hopen
  · cases h; exact .fails ..
  · cases h; exact .bswFinish (by simpa using hopen)

theorem execBsrOpen_effect {n : BitVec 5} (h : execBsrOpen n s = .next t) : CommandEffect (.bsrOpen n) s t := by
  unfold execBsrOpen at h
  split at h
  case h_1 => cases h; exact .fails ..
  case h_2 w hwidth =>
    split_ifs at h with hregion
    · cases h; exact .fails ..
    · cases h; exact .bsrOpen hwidth (by simpa using hregion)

theorem execBsrSetw_effect {n : BitVec 5} (h : execBsrSetw n s = .next t) : CommandEffect (.bsrSetw n) s t := by
  unfold execBsrSetw at h
  split at h
  case h_1 => cases h; exact .fails ..
  case h_2 w hwidth =>
    split_ifs at h with hopen
    · cases h; exact .fails ..
    · cases h; exact .bsrSetw hwidth (by simpa using hopen)

theorem execBsrShift_effect (h : execBsrShift s = .next t) : CommandEffect .bsrShift s t := by
  unfold execBsrShift at h
  dsimp only at h
  split_ifs at h with hopen hend
  · cases h; exact .fails ..
  · cases h; exact .bsrExhausted (by simpa using hopen) hend
  · cases h; exact .bsrShift (by simpa using hopen) (Nat.le_of_not_lt hend)

theorem execLzwEnc_effect {n : BitVec 5} {fx : Bool} (h : execLzwEnc n fx s = .next t) :
    CommandEffect (.lzwEnc n fx) s t := by
  unfold execLzwEnc at h
  split at h
  case h_1 => cases h; exact .fails ..
  case h_2 maxBits hbits => cases h; exact s.transform_effect (by rw [transformOf, maxBitsOf_eq hbits]) rfl

theorem execLzwDec_effect {n : BitVec 5} {fx : Bool} (h : execLzwDec n fx s = .next t) :
    CommandEffect (.lzwDec n fx) s t := by
  unfold execLzwDec at h
  split at h
  case h_1 => cases h; exact .fails ..
  case h_2 maxBits hbits => cases h; exact s.transform_effect (by rw [transformOf, maxBitsOf_eq hbits]) rfl

/-- A command that completes does so by one of the effects. -/
theorem exec_effect {i : Instr} (h : exec i s = .next t) : CommandEffect i s t := by
  cases i with
  | nop => cases h; exact .nop s
  | bswOpen n => exact execBswOpen_effect h
  | bswSetw n => exact execBswSetw_effect h
  | bswPush => exact execBswPush_effect h
  | bswFinish => exact execBswFinish_effect h
  | bsrOpen n => exact execBsrOpen_effect h
  | bsrSetw n => exact execBsrSetw_effect h
  | bsrShift => exact execBsrShift_effect h
  | lzwEnc n fx => exact execLzwEnc_effect h
  | lzwDec n fx => exact execLzwDec_effect h
  | rleEnc | rleDec | bwtFwd _ | bwtInv _ => cases h; exact s.transform_effect rfl rfl
  | mtfEnc ip => cases h; exact s.mtf_effect (i := .mtfEnc ip) rfl
  | mtfDec ip => cases h; exact s.mtf_effect (i := .mtfDec ip) rfl

/-! ### What a command leaves unchanged (R109) -/

namespace CommandEffect

variable {i : Instr}

/-- Only these fields can change; of STATUS not CMD_LOST. -/
theorem eq_update (h : CommandEffect i s t) :
    t = { s with
      status := { t.status with cmdLost := s.status.cmdLost }, resultLen := t.resultLen, data := t.data,
      writer := t.writer, reader := t.reader, dmem := t.dmem, draws := t.draws } := by
  cases h <;> rfl

theorem data_eq (h : CommandEffect i s t) (hi : i ≠ .bsrShift) : t.data = s.data := by
  cases h with
  | bsrExhausted | bsrShift => contradiction
  | _ => rfl

theorem eos_eq (h : CommandEffect i s t) (hi : i ≠ .bsrShift) (hopen : ∀ n, i ≠ .bsrOpen n) :
    t.status.eos = s.status.eos := by
  cases h with
  | bsrExhausted | bsrShift => contradiction
  | bsrOpen => exact absurd rfl (hopen _)
  | _ => rfl

theorem writer_eq (h : CommandEffect i s t) (hi : i ∉ [Instr.bswPush, .bswFinish])
    (hwidth : ∀ n, i ≠ .bswOpen n ∧ i ≠ .bswSetw n) : t.writer = s.writer := by
  cases h with
  | bswPush | bswFinish => simp at hi
  | bswOpen => exact absurd rfl (hwidth _).1
  | bswSetw => exact absurd rfl (hwidth _).2
  | _ => rfl

theorem reader_eq (h : CommandEffect i s t) (hi : i ≠ .bsrShift)
    (hwidth : ∀ n, i ≠ .bsrOpen n ∧ i ≠ .bsrSetw n) : t.reader = s.reader := by
  cases h with
  | bsrExhausted | bsrShift => contradiction
  | bsrOpen => exact absurd rfl (hwidth _).1
  | bsrSetw => exact absurd rfl (hwidth _).2
  | _ => rfl

theorem writer_of_bswPush (h : CommandEffect .bswPush s t) :
    t.writer = { s.writer with bits := t.writer.bits, acc := t.writer.acc } := by
  cases h <;> rfl

theorem writer_of_bswFinish (h : CommandEffect .bswFinish s t) :
    t.writer = { s.writer with acc := t.writer.acc, isOpen := t.writer.isOpen } := by
  cases h <;> rfl

theorem writer_of_bswSetw {n : BitVec 5} (h : CommandEffect (.bswSetw n) s t) :
    t.writer = { s.writer with width := t.writer.width } := by
  cases h <;> rfl

theorem reader_of_bsrShift (h : CommandEffect .bsrShift s t) :
    t.reader = { s.reader with pos := t.reader.pos } := by
  cases h <;> rfl

theorem reader_of_bsrSetw {n : BitVec 5} (h : CommandEffect (.bsrSetw n) s t) :
    t.reader = { s.reader with width := t.reader.width } := by
  cases h <;> rfl

theorem resultLen_eq_or (h : CommandEffect i s t) (hi : transformOf i = none) (hfinish : i ≠ .bswFinish) :
    t.resultLen = s.resultLen ∨ (t.status.err = true ∧ t.resultLen = 0) := by
  cases h with
  | fails => exact .inr ⟨rfl, rfl⟩
  | bswFinish => contradiction
  | failsInOutput hsome => exact absurd hi hsome
  | transforms hsome => simp [hi] at hsome
  | _ => exact .inl rfl

theorem dmem_eq (h : CommandEffect i s t) (hi : transformOf i = none) (hwriter : i ∉ [Instr.bswPush, .bswFinish]) :
    t.dmem = s.dmem := by
  cases h with
  | bswPush | bswFinish => simp at hwriter
  | failsInOutput hsome => exact absurd hi hsome
  | transforms hsome => simp [hi] at hsome
  | _ => rfl

/-- BSW_PUSH writes whole bytes of the buffer, from the byte of the first new bit on (41_bitstream.md R126). -/
theorem readByte_of_bswPush (h : CommandEffect .bswPush s t) {a : Nat}
    (ha : a < s.writer.base.toNat + s.writer.bits.toNat / 8 ∨ s.writer.base.toNat + s.writer.cap.toNat ≤ a) :
    t.readByte a = s.readByte a := by
  cases h with
  | fails => rfl
  | bswPush _ hfits =>
    have hlen := s.pushed_length
    rw [ceilDiv] at hfits
    exact State.readByte_writeBytes_outside (by omega)
  | failsInOutput hsome => exact absurd rfl hsome
  | transforms hsome => cases hsome

/-- BSW_FINISH writes at most the byte that holds the last bits pushed, which lies in the buffer (41_bitstream.md R122,
R127). -/
theorem readByte_of_bswFinish (h : CommandEffect .bswFinish s t)
    (hbits : s.writer.bits.toNat ≤ 8 * s.writer.cap.toNat) {a : Nat}
    (ha : a < s.writer.base.toNat + s.writer.bits.toNat / 8 ∨ s.writer.base.toNat + s.writer.cap.toNat ≤ a) :
    t.readByte a = s.readByte a := by
  cases h with
  | fails => rfl
  | bswFinish =>
    refine State.readByte_writeBytes_outside (ha.imp_right fun hend => ?_)
    rw [State.finishTail]
    split <;> simp <;> omega
  | failsInOutput hsome => exact absurd rfl hsome
  | transforms hsome => cases hsome

/-- A transform touches no byte outside its output region (R107, R108). -/
theorem readByte_of_transform (h : CommandEffect i s t) (hi : transformOf i ≠ none) {a : Nat}
    (ha : a < outBase s i ∨ outBase s i + outCap s i ≤ a) : t.readByte a = s.readByte a := by
  cases h with
  | fails => rfl
  | failsInOutput =>
    have houtside := s.readByte_unspecify (outBase s i) (outCap s i) a
    rwa [if_neg (by omega)] at houtside
  | transforms _ _ hfits => exact State.readByte_writeBytes_outside (by omega)
  | _ => exact absurd rfl hi

end CommandEffect

end

end Sys2Proof.Machine

namespace Sys2Proof.Proofs

open Sys2Proof Sys2Proof.Machine Sys2Proof.Claims

/-- Settles O6: the write is the acceptance of the word, and the engine step of an illegal word is O3's. -/
theorem cmdWriteWhileIdleIsAccepted : Obligations.CmdWriteWhileIdleIsAccepted := by
  intro s w hserving hidle
  refine ⟨s.accept w, ?served, rfl, ?busyReads, fun hillegal => ?illegal⟩
  case served => rw [State.serve_cmd_write hserving, State.issue_of_idle hidle]
  case busyReads => rw [State.bits_status_busy]; rfl
  case illegal => exact (illegalWordsCompleteWithIllegalCommand (s.accept w)).1 hillegal

/-- Settles O7: the busy block drops the word and marks the loss. -/
theorem cmdWriteWhileBusyIsDropped : Obligations.CmdWriteWhileBusyIsDropped := by
  intro s w hserving hbusy
  rw [State.serve_cmd_write hserving, State.issue_of_busy hbusy]

/-- Settles O27: every effect a command can have is within what its rule names. -/
theorem commandsChangeOnlyWhatTheirRulesName : Obligations.CommandsChangeOnlyWhatTheirRulesName := by
  intro s t i hexec
  have h := exec_effect hexec
  refine ⟨?operands, ?rest, h.data_eq, h.writer_eq, h.reader_eq, ?push, ?finish, ?setwWriter, ?shift, ?setwReader,
    h.eos_eq, h.resultLen_eq_or, h.dmem_eq, ?writerMemory, fun hi a ha => h.readByte_of_transform hi ha⟩
  case operands => rw [h.eq_update]; exact ⟨rfl, rfl, rfl, rfl, rfl⟩
  case rest => rw [h.eq_update]; exact ⟨rfl, rfl, rfl, rfl, rfl, rfl, rfl, rfl⟩
  case push => rintro rfl; exact h.writer_of_bswPush
  case finish => rintro rfl; exact h.writer_of_bswFinish
  case setwWriter => rintro ⟨n, rfl⟩; exact h.writer_of_bswSetw
  case shift => rintro rfl; exact h.reader_of_bsrShift
  case setwReader => rintro ⟨n, rfl⟩; exact h.reader_of_bsrSetw
  case writerMemory =>
    intro hi hok a ha
    obtain rfl | rfl : i = .bswPush ∨ i = .bswFinish := by simpa using hi
    · exact h.readByte_of_bswPush ha
    · exact h.readByte_of_bswFinish hok.bits_le ha

end Sys2Proof.Proofs
end

section
/-! PROOF. Proofs/WordRoundTrip.lean: a command word from its fields and back, and the two round trips of the encoding
(30_encoding.md R80 to R88). -/

namespace Sys2Proof.Machine

open Sys2Proof.Claims

/-! ### The fields of a word built from fields (R80) -/

theorem bool_eq_of_toNat_eq : ∀ {a b : Bool}, a.toNat = b.toNat → a = b := by decide

section

variable (op mark : Byte) (n : BitVec 5) (fx ip : Bool)

theorem toNat_encodeFields :
    (encodeFields op mark n fx ip).toNat =
      op.toNat + 2 ^ 8 * mark.toNat + 2 ^ 16 * n.toNat + 2 ^ 24 * fx.toNat + 2 ^ 25 * ip.toNat := by
  simp only [encodeFields, toNat_append_eq_add, BitVec.toNat_ofBool, BitVec.toNat_ofNat]
  omega

/-- Each field of a word built from fields, as a number. -/
theorem bits_encodeFields :
    bits (encodeFields op mark n fx ip) 0 8 = op.toNat ∧ bits (encodeFields op mark n fx ip) 8 8 = mark.toNat ∧
      bits (encodeFields op mark n fx ip) 16 5 = n.toNat ∧ bits (encodeFields op mark n fx ip) 24 1 = fx.toNat ∧
      bits (encodeFields op mark n fx ip) 25 1 = ip.toNat := by
  have hop := op.isLt
  have hmark := mark.isLt
  have hn := n.isLt
  have hfx := fx.toNat_lt
  have hip := ip.toNat_lt
  simp only [bits, toNat_encodeFields]
  omega

@[simp] theorem opField_encodeFields : opField (encodeFields op mark n fx ip) = op := by
  obtain ⟨hop, -, -, -, -⟩ := bits_encodeFields op mark n fx ip
  exact BitVec.eq_of_toNat_eq ((toNat_opField _).trans hop)

@[simp] theorem markField_encodeFields : markField (encodeFields op mark n fx ip) = mark := by
  obtain ⟨-, hmark, -, -, -⟩ := bits_encodeFields op mark n fx ip
  exact BitVec.eq_of_toNat_eq ((toNat_extractLsb'_eq_bits _ 8 8).trans hmark)

@[simp] theorem nbitsField_encodeFields : nbitsField (encodeFields op mark n fx ip) = n := by
  obtain ⟨-, -, hn, -, -⟩ := bits_encodeFields op mark n fx ip
  exact BitVec.eq_of_toNat_eq ((toNat_nbitsField _).trans hn)

theorem toNat_fixedField (w : Word) : (fixedField w).toNat = bits w 24 1 := (bits_one w 24).symm

theorem toNat_inPlaceField (w : Word) : (inPlaceField w).toNat = bits w 25 1 := (bits_one w 25).symm

@[simp] theorem fixedField_encodeFields : fixedField (encodeFields op mark n fx ip) = fx := by
  obtain ⟨-, -, -, hfx, -⟩ := bits_encodeFields op mark n fx ip
  exact bool_eq_of_toNat_eq ((toNat_fixedField _).trans hfx)

@[simp] theorem inPlaceField_encodeFields : inPlaceField (encodeFields op mark n fx ip) = ip := by
  obtain ⟨-, -, -, -, hip⟩ := bits_encodeFields op mark n fx ip
  exact bool_eq_of_toNat_eq ((toNat_inPlaceField _).trans hip)

@[simp] theorem rsv0Field_encodeFields : rsv0Field (encodeFields op mark n fx ip) = 0 :=
  (Laws.EncodeReserved.of_fields op mark n fx ip).1

@[simp] theorem rsv1Field_encodeFields : rsv1Field (encodeFields op mark n fx ip) = 0 :=
  (Laws.EncodeReserved.of_fields op mark n fx ip).2

end

/-- A word whose reserved fields are zero is the word of its fields. -/
theorem encodeFields_of_fields {w : Word} (h0 : rsv0Field w = 0) (h1 : rsv1Field w = 0) :
    encodeFields (opField w) (markField w) (nbitsField w) (fixedField w) (inPlaceField w) = w := by
  rw [rsv0Field_eq_zero_iff] at h0
  rw [rsv1Field_eq_zero_iff] at h1
  refine BitVec.eq_of_toNat_eq ?_
  have hmark : (markField w).toNat = bits w 8 8 := toNat_extractLsb'_eq_bits w 8 8
  rw [toNat_encodeFields, toNat_opField, hmark, toNat_nbitsField, toNat_fixedField, toNat_inPlaceField]
  have hw := w.isLt
  simp only [bits] at *
  omega

/-! ### The rows of the opcode table (R81, R85) -/

/-- The decoder gives every command back from its word (R81). -/
theorem decode_encode (i : Instr) : decode (encode i) = .ok i := by
  cases i <;> simp [encode, decode, opcodeRow, unusedZero]

/-- The command of a row, where the word's unused fields are zero, has the word of the word's fields. -/
theorem encode_of_opcodeRow {w : Word} {u : FieldUse} {i : Instr} (hrow : opcodeRow w = some (u, i))
    (hunused : unusedZero u w = true) :
    encode i = encodeFields (opField w) (markField w) (nbitsField w) (fixedField w) (inPlaceField w) := by
  unfold opcodeRow at hrow
  split at hrow
  case h_17 => cases hrow
  all_goals
    rename_i hop
    cases hrow
    simp [unusedZero] at hunused
    simp [encode, hop, hunused]

theorem decode_eq_ok {w : Word} {i : Instr} (h : decode w = .ok i) :
    ∃ u, opcodeRow w = some (u, i) ∧ rsv0Field w = 0 ∧ rsv1Field w = 0 ∧ unusedZero u w = true := by
  unfold decode at h
  split at h
  case h_1 => cases h
  case h_2 u i' hrow =>
    split_ifs at h with hrsv hunused
    cases h
    rw [not_or, not_not, not_not] at hrsv
    exact ⟨u, hrow, hrsv.1, hrsv.2, hunused⟩

/-- A legal word is the word of the command it decodes to (R87). -/
theorem encode_of_decode {w : Word} {i : Instr} (h : decode w = .ok i) : encode i = w := by
  obtain ⟨u, hrow, h0, h1, hunused⟩ := decode_eq_ok h
  rw [encode_of_opcodeRow hrow hunused, encodeFields_of_fields h0 h1]

end Sys2Proof.Machine

namespace Sys2Proof.Proofs

open Sys2Proof Sys2Proof.Machine Sys2Proof.Claims

/-- Settles O1: the opcode of a command's word has the command's row, with the word's fields in it. -/
theorem decodeOfEncodeIsTheCommand : Obligations.DecodeOfEncodeIsTheCommand :=
  fun i => ⟨decode_encode i, by rw [decodeCommand, decode_encode]⟩

/-- Settles O2: a word without reserved bits is the sum of its fields, and its command keeps the ones in use. -/
theorem encodeOfDecodeIsTheWord : Obligations.EncodeOfDecodeIsTheWord := fun _ _ => encode_of_decode

/-- Settles O4: each word has the row its opcode names. -/
theorem exampleWordsDecode : Obligations.ExampleWordsDecode := by
  unfold Obligations.ExampleWordsDecode
  decide

end Sys2Proof.Proofs
end

section
/-! PROOF. Proofs/Rle.lean: the runs the RLE encoder's scan closes, the expansion of pairs, and the round trip
(43_rle.md R180 to R184). -/

namespace Sys2Proof.Machine

/-! ### The runs of the scan (R180, R181) -/

/-- The runs `rleScan` closes, with a run of `n` copies of `v` open. -/
def rlePairs (v : Byte) (n : Nat) : List Byte → List (Byte × Nat)
  | [] => [(v, n)]
  | c :: rest => if c = v ∧ n < 255 then rlePairs v (n + 1) rest else (v, n) :: rlePairs c 1 rest

/-- The scan writes each run as its value and its count. -/
theorem rleScan_eq_flatMap (v : Byte) (n : Nat) (x : List Byte) :
    rleScan v n x = (rlePairs v n x).flatMap fun p => [p.1, BitVec.ofNat 8 p.2] := by
  induction x generalizing v n with
  | nil => rfl
  | cons c rest ih =>
    rw [rleScan, rlePairs]
    split
    · exact ih v (n + 1)
    · rw [List.flatMap_cons, ih c 1]; rfl

/-- The runs expand to the open run and the bytes still to scan. -/
theorem rlePairs_expand (v : Byte) (n : Nat) (x : List Byte) :
    ((rlePairs v n x).flatMap fun p => List.replicate p.2 p.1) = List.replicate n v ++ x := by
  induction x generalizing v n with
  | nil => simp [rlePairs]
  | cons c rest ih =>
    rw [rlePairs]
    split
    case isTrue h => rw [ih, h.1, List.replicate_succ', List.append_assoc, List.singleton_append]
    case isFalse => rw [List.flatMap_cons, ih]; rfl

theorem rlePairs_count {v : Byte} {n : Nat} (h1 : 1 ≤ n) (h255 : n ≤ 255) (x : List Byte) :
    ∀ p ∈ rlePairs v n x, 1 ≤ p.2 ∧ p.2 ≤ 255 := by
  induction x generalizing v n with
  | nil => simpa [rlePairs] using ⟨h1, h255⟩
  | cons c rest ih =>
    rw [rlePairs]
    split
    case isTrue h => exact ih (Nat.le_add_left 1 n) h.2
    case isFalse => exact List.forall_mem_cons.mpr ⟨⟨h1, h255⟩, ih le_rfl (by decide)⟩

/-- The first run closed is the one that is open. -/
theorem rlePairs_head {v : Byte} {n : Nat} {x : List Byte} {p : Byte × Nat} (h : (rlePairs v n x)[0]? = some p) :
    p.1 = v := by
  induction x generalizing n with
  | nil => simp only [rlePairs, List.getElem?_cons_zero, Option.some.injEq] at h; rw [← h]
  | cons c rest ih =>
    rw [rlePairs] at h
    split at h
    · exact ih h
    · simp only [List.getElem?_cons_zero, Option.some.injEq] at h; rw [← h]

/-- A value is repeated only after a full count. -/
theorem rlePairs_maximal {v : Byte} {n : Nat} (h255 : n ≤ 255) (x : List Byte) {k : Nat} {p q : Byte × Nat}
    (hp : (rlePairs v n x)[k]? = some p) (hq : (rlePairs v n x)[k + 1]? = some q) (heq : p.1 = q.1) : p.2 = 255 := by
  induction x generalizing v n k with
  | nil => simp [rlePairs] at hq
  | cons c rest ih =>
    rw [rlePairs] at hp hq
    split at hp
    case isTrue h => exact ih h.2 hp (by rwa [if_pos h] at hq)
    case isFalse h =>
      rw [if_neg h, List.getElem?_cons_succ] at hq
      cases k with
      | succ k => exact ih (by decide) hp hq
      | zero =>
        have hc : q.1 = c := rlePairs_head hq
        simp only [List.getElem?_cons_zero, Option.some.injEq] at hp
        subst hp
        have hcv : c = v := hc.symm.trans heq.symm
        have hn : ¬n < 255 := fun hn => h ⟨hcv, hn⟩
        exact Nat.le_antisymm h255 (Nat.le_of_not_lt hn)

/-! ### The expansion of pairs (R182) -/

theorem rleExpand_flatMap (pairs : List (Byte × Byte)) :
    rleExpand (pairs.flatMap fun p => [p.1, p.2]) = pairs.flatMap fun p => List.replicate p.2.toNat p.1 := by
  induction pairs with
  | nil => rfl
  | cons p rest ih =>
    rw [List.flatMap_cons, List.flatMap_cons, ← ih]
    rfl

theorem rleDecF_flatMap (pairs : List (Byte × Byte)) :
    rleDecF (pairs.flatMap fun p => [p.1, p.2]) = .ok (pairs.flatMap fun p => List.replicate p.2.toNat p.1) := by
  have heven : (pairs.flatMap fun p => [p.1, p.2]).length % 2 = 0 := by simp [List.length_flatMap]
  rw [rleDecF, heven, rleExpand_flatMap]
  rfl

end Sys2Proof.Machine

namespace Sys2Proof.Proofs

open Sys2Proof Sys2Proof.Machine Sys2Proof.Claims

/-- Settles O38, with the runs the scan closes. -/
theorem rleEncodesMaximalRuns : Obligations.RleEncodesMaximalRuns := by
  intro x
  cases x with
  | nil => exact ⟨[], by simp [rleEncF]⟩
  | cons v rest =>
    refine ⟨rlePairs v 1 rest, ?_, rlePairs_expand v 1 rest, rlePairs_count le_rfl (by decide) rest,
      fun k p q => rlePairs_maximal (by decide) rest⟩
    rw [rleEncF, rleScan_eq_flatMap]

/-- Settles O39, by induction over the pairs. -/
theorem rleDecodesPairs : Obligations.RleDecodesPairs := by
  refine ⟨rleDecF_flatMap, fun x hodd => ?_⟩
  simp [rleDecF, hodd]

/-- Settles O40: the encoder's pairs expand to the input (O38), and the decoder expands pairs (O39). -/
theorem rleRoundTrip : Obligations.RleRoundTrip := by
  intro x
  obtain ⟨pairs, henc, hexpand, hcount, -⟩ := rleEncodesMaximalRuns x
  refine ⟨_, henc, ?_⟩
  have hdec := rleDecF_flatMap (pairs.map fun p => (p.1, BitVec.ofNat 8 p.2))
  rw [List.flatMap_map, List.flatMap_map] at hdec
  rw [hdec, ← hexpand, List.flatMap_congr fun p hp => ?_]
  have hfits : p.2 < 2 ^ 8 := Nat.lt_succ_of_le (hcount p hp).2
  rw [BitVec.toNat_ofNat, Nat.mod_eq_of_lt hfits]

end Sys2Proof.Proofs
end

section
/-! PROOF. Proofs/Mtf.lean: the symbol table of the move-to-front coder stays a permutation of the byte values, so that
either loop undoes the other (45_mtf.md R210 to R214). -/

namespace Sys2Proof.Machine

/-! ### The symbol table (R210, R213) -/

theorem mem_mtfTable (v : Byte) : v ∈ mtfTable :=
  List.mem_map.mpr ⟨v.toNat, List.mem_range.mpr v.isLt, BitVec.ofNat_toNat 8 v⟩

theorem mtfTable_nodup : mtfTable.Nodup := by
  refine List.nodup_range.map_on fun i hi j hj hij => ?_
  have hmod : i % 256 = j % 256 := congrArg BitVec.toNat hij
  rwa [Nat.mod_eq_of_lt (List.mem_range.mp hi), Nat.mod_eq_of_lt (List.mem_range.mp hj)] at hmod

theorem mtfTable_length : mtfTable.length = 256 := by simp [mtfTable]

/-- Moving an entry to the front only moves it. -/
theorem moveToFront_perm {T : List Byte} {i : Nat} (hi : i < T.length) : (moveToFront T i).Perm T := by
  rw [moveToFront, List.getD_eq_getElem _ _ hi, ← List.eraseIdx_eq_take_drop_succ]
  exact List.getElem_cons_eraseIdx_perm hi

theorem moveToFront_perm_mtfTable {T : List Byte} {i : Nat} (hT : T.Perm mtfTable) (hi : i < 256) :
    (moveToFront T i).Perm mtfTable :=
  (moveToFront_perm (by rwa [hT.length_eq, mtfTable_length])).trans hT

section

variable {T : List Byte}

theorem idxOf_lt_of_perm (hT : T.Perm mtfTable) (v : Byte) : T.idxOf v < 256 := by
  rw [← mtfTable_length, ← hT.length_eq]
  exact List.idxOf_lt_length_of_mem (hT.mem_iff.mpr (mem_mtfTable v))

/-- The index the encoder writes is the byte's index. -/
theorem toNat_ofNat_idxOf (hT : T.Perm mtfTable) (v : Byte) : (BitVec.ofNat 8 (T.idxOf v)).toNat = T.idxOf v := by
  rw [BitVec.toNat_ofNat, Nat.mod_eq_of_lt (idxOf_lt_of_perm hT v)]

/-- The entry at a byte's index is the byte. -/
theorem getD_idxOf (hT : T.Perm mtfTable) (v : Byte) : T.getD (T.idxOf v) 0 = v := by
  have hmem : T.idxOf v < T.length := List.idxOf_lt_length_of_mem (hT.mem_iff.mpr (mem_mtfTable v))
  rw [List.getD_eq_getElem _ _ hmem, List.getElem_idxOf]

/-- The index of the entry at an index is that index. -/
theorem idxOf_getD (hT : T.Perm mtfTable) (i : Byte) : T.idxOf (T.getD i.toNat 0) = i.toNat := by
  have hi : i.toNat < T.length := by rw [hT.length_eq, mtfTable_length]; exact i.isLt
  rw [List.getD_eq_getElem _ _ hi, (hT.nodup_iff.mpr mtfTable_nodup).idxOf_getElem]

end

/-! ### The two loops (R210, R211) -/

theorem mtfEncLoop_length (T x : List Byte) : (mtfEncLoop T x).length = x.length := by
  induction x generalizing T with
  | nil => rfl
  | cons v rest ih => rw [mtfEncLoop, List.length_cons, ih, List.length_cons]

theorem mtfDecLoop_length (T x : List Byte) : (mtfDecLoop T x).length = x.length := by
  induction x generalizing T with
  | nil => rfl
  | cons i rest ih => rw [mtfDecLoop, List.length_cons, ih, List.length_cons]

theorem mtfDecLoop_mtfEncLoop {T : List Byte} (hT : T.Perm mtfTable) (x : List Byte) :
    mtfDecLoop T (mtfEncLoop T x) = x := by
  induction x generalizing T with
  | nil => rfl
  | cons v rest ih =>
    rw [mtfEncLoop, mtfDecLoop, toNat_ofNat_idxOf hT, getD_idxOf hT,
      ih (moveToFront_perm_mtfTable hT (idxOf_lt_of_perm hT v))]

theorem mtfEncLoop_mtfDecLoop {T : List Byte} (hT : T.Perm mtfTable) (x : List Byte) :
    mtfEncLoop T (mtfDecLoop T x) = x := by
  induction x generalizing T with
  | nil => rfl
  | cons i rest ih =>
    rw [mtfDecLoop, mtfEncLoop, idxOf_getD hT, BitVec.ofNat_toNat, BitVec.setWidth_eq,
      ih (moveToFront_perm_mtfTable hT i.isLt)]

end Sys2Proof.Machine

namespace Sys2Proof.Proofs

open Sys2Proof Sys2Proof.Machine Sys2Proof.Claims

/-- Settles O42: moving an entry to the front permutes the table. -/
theorem mtfTableStaysAPermutation : Obligations.MtfTableStaysAPermutation :=
  ⟨mtfTable_nodup, mem_mtfTable, fun _ _ hT hi => moveToFront_perm_mtfTable hT hi⟩

/-- Settles O41: on a table that is a permutation of the byte values, index and entry determine each other. -/
theorem mtfRoundTrip : Obligations.MtfRoundTrip := by
  refine fun x => ⟨⟨_, rfl, mtfEncLoop_length mtfTable x, ?_⟩, ⟨_, rfl, mtfDecLoop_length mtfTable x, ?_⟩⟩
  · rw [mtfDecF, mtfDecLoop_mtfEncLoop (List.Perm.refl _)]
  · rw [mtfEncF, mtfEncLoop_mtfDecLoop (List.Perm.refl _)]

end Sys2Proof.Proofs
end

section
/-! PROOF. Proofs/Bwt.lean: the rotation index is the sort of the rotations, the pointer of the inverse moves along the
sorted rotations, and the round trip (44_bwt.md R190 to R198). -/

namespace Sys2Proof.Machine

open Sys2Proof.Claims

/-! ### Rotations (R191) -/

theorem rotation_eq_rotate {x : List Byte} {k : Nat} (hk : k ≤ x.length) : rotation x k = x.rotate k :=
  (List.rotate_eq_drop_append_take hk).symm

theorem rotation_length {x : List Byte} {k : Nat} (hk : k ≤ x.length) : (rotation x k).length = x.length := by
  rw [rotation_eq_rotate hk, List.length_rotate]

theorem getElem_rotation {x : List Byte} {k j : Nat} (hk : k ≤ x.length) (hj : j < x.length) :
    (rotation x k)[j]'(by rwa [rotation_length hk]) = rotByte x k j := by
  have hmod : (k + j) % x.length < x.length := Nat.mod_lt _ (Nat.zero_lt_of_lt hj)
  simp only [rotation_eq_rotate hk, List.getElem_rotate, rotByte, List.getD_eq_getElem _ _ hmod, Nat.add_comm j k]

/-- The byte before the start of a rotation is its last byte. -/
theorem lastColumnByte_eq_rotByte {x : List Byte} (hx : 0 < x.length) (k : Nat) :
    lastColumnByte x k = rotByte x k (x.length - 1) := by
  rw [lastColumnByte, rotByte, Nat.add_sub_assoc hx]

/-- The start one before `k`, wrapping. -/
def prevStart (x : List Byte) (k : Nat) : Nat := (k + x.length - 1) % x.length

theorem lastColumnByte_eq_getD (x : List Byte) (k : Nat) : lastColumnByte x k = x.getD (prevStart x k) 0 := rfl

theorem getLast?_rotation {x : List Byte} {k : Nat} (hk : k < x.length) :
    (rotation x k).getLast? = some (lastColumnByte x k) := by
  have hpos : 0 < x.length := Nat.zero_lt_of_lt hk
  have hlast : x.length - 1 < x.length := Nat.sub_lt hpos Nat.one_pos
  have hlen := rotation_length hk.le
  rw [List.getLast?_eq_getElem?, hlen, List.getElem?_eq_getElem (by rwa [hlen]), getElem_rotation hk.le hlast,
    lastColumnByte_eq_rotByte hpos]

theorem rotation_eq_dropLast_append {x : List Byte} {k : Nat} (hk : k < x.length) :
    rotation x k = (rotation x k).dropLast ++ [lastColumnByte x k] :=
  (List.dropLast_append_getLast? _ (getLast?_rotation hk)).symm

/-- Equal rotations have the same byte before them. -/
theorem lastColumnByte_congr {x : List Byte} {k k' : Nat} (hk : k < x.length) (hk' : k' < x.length)
    (h : rotation x k = rotation x k') : lastColumnByte x k = lastColumnByte x k' :=
  Option.some.inj (by rw [← getLast?_rotation hk, ← getLast?_rotation hk', h])

/-- One start earlier, the last byte of the rotation stands in front. -/
theorem rotation_prevStart {x : List Byte} {k : Nat} (hk : k < x.length) :
    rotation x (prevStart x k) = lastColumnByte x k :: (rotation x k).dropLast := by
  have hpos : 0 < x.length := Nat.zero_lt_of_lt hk
  have hprev : prevStart x k < x.length := Nat.mod_lt _ hpos
  have hlen := congrArg List.length (rotation_eq_dropLast_append hk)
  rw [rotation_length hk.le, List.length_append, List.length_singleton] at hlen
  calc rotation x (prevStart x k) = (rotation x k).rotate (x.length - 1) := by
        rw [rotation_eq_rotate hprev.le, rotation_eq_rotate hk.le, List.rotate_rotate, prevStart, List.rotate_mod,
          Nat.add_sub_assoc hpos]
    _ = ((rotation x k).dropLast ++ [lastColumnByte x k]).rotate (rotation x k).dropLast.length := by
        rw [← rotation_eq_dropLast_append hk]; congr 1; omega
    _ = lastColumnByte x k :: (rotation x k).dropLast := by rw [List.rotate_append_length_eq, List.singleton_append]

theorem rotation_prevStart_congr {x : List Byte} {k k' : Nat} (hk : k < x.length) (hk' : k' < x.length)
    (h : rotation x k = rotation x k') : rotation x (prevStart x k) = rotation x (prevStart x k') := by
  rw [rotation_prevStart hk, rotation_prevStart hk', lastColumnByte_congr hk hk' h, h]

/-! ### The order of the rotations (R191) -/

/-- A rotation as a list of numbers, so that the order of rotations is the library's order of lists. -/
def rotKey (x : List Byte) (k : Nat) : List Nat := (rotation x k).map BitVec.toNat

/-- A rotation with its start: the order of S (R191). -/
def startKey (x : List Byte) (k : Nat) : List Nat ×ₗ Nat := toLex (rotKey x k, k)

theorem bytesLt_iff (a b : List Byte) : bytesLt a b = true ↔ a.map BitVec.toNat < b.map BitVec.toNat := by
  induction a generalizing b with
  | nil => cases b <;> simp [bytesLt]
  | cons c a ih =>
    cases b with
    | nil => simp [bytesLt]
    | cons d b => simp [bytesLt, List.cons_lt_cons_iff, ih]

theorem rotKey_inj {x : List Byte} {k k' : Nat} : rotKey x k = rotKey x k' ↔ rotation x k = rotation x k' :=
  (List.map_injective_iff.mpr fun _ _ => BitVec.eq_of_toNat_eq).eq_iff

theorem startKey_lt_iff {x : List Byte} {k k' : Nat} :
    startKey x k < startKey x k' ↔ rotKey x k < rotKey x k' ∨ (rotKey x k = rotKey x k' ∧ k < k') :=
  Prod.Lex.toLex_lt_toLex

/-- The order of S by the bytes of the rotations. -/
theorem rotBefore_of_startKey_lt {x : List Byte} {k k' : Nat} (hk : k < x.length) (hk' : k' < x.length)
    (h : startKey x k < startKey x k') : RotBefore x k k' := by
  have hlen : (rotKey x k).length = x.length := by rw [rotKey, List.length_map, rotation_length hk.le]
  have hlen' : (rotKey x k').length = x.length := by rw [rotKey, List.length_map, rotation_length hk'.le]
  have hbyte : ∀ j (hj : j < x.length), (rotKey x k)[j] = (rotByte x k j).toNat := fun j hj => by
    simp only [rotKey, List.getElem_map, getElem_rotation hk.le hj]
  have hbyte' : ∀ j (hj : j < x.length), (rotKey x k')[j] = (rotByte x k' j).toNat := fun j hj => by
    simp only [rotKey, List.getElem_map, getElem_rotation hk'.le hj]
  rcases startKey_lt_iff.mp h with hlt | ⟨heq, hstart⟩
  · rcases List.lt_iff_exists.mp hlt with ⟨-, hshort⟩ | ⟨j, hj, _, hsame, hless⟩
    · omega
    · rw [hlen] at hj
      refine .inl ⟨j, hj, fun i hi => BitVec.eq_of_toNat_eq ?_, ?_⟩
      · rw [← hbyte i (hi.trans hj), ← hbyte' i (hi.trans hj), hsame i hi]
      · rwa [hbyte j hj, hbyte' j hj] at hless
  · refine .inr ⟨fun j hj => BitVec.eq_of_toNat_eq ?_, hstart⟩
    rw [← hbyte j hj, ← hbyte' j hj]
    simp only [heq]

/-! ### The sort (R191) -/

theorem insertRotation_perm (x : List Byte) (k : Nat) (l : List Nat) : (insertRotation x k l).Perm (k :: l) := by
  induction l with
  | nil => rfl
  | cons r rest ih =>
    rw [insertRotation]
    split
    · exact (ih.cons r).trans (List.Perm.swap k r rest)
    · rfl

/-- Putting an earlier start into a sorted list of later ones keeps it sorted. -/
theorem insertRotation_pairwise {x : List Byte} {k : Nat} {l : List Nat}
    (hl : l.Pairwise (startKey x · < startKey x ·)) (hk : ∀ r ∈ l, k < r) :
    (insertRotation x k l).Pairwise (startKey x · < startKey x ·) := by
  induction l with
  | nil => exact List.pairwise_singleton ..
  | cons r rest ih =>
    obtain ⟨hr, hrest⟩ := List.pairwise_cons.mp hl
    rw [insertRotation]
    split
    case isTrue hlt =>
      have hrk : startKey x r < startKey x k := startKey_lt_iff.mpr (.inl ((bytesLt_iff _ _).mp hlt))
      refine List.pairwise_cons.mpr ⟨fun a ha => ?_, ih hrest fun a ha => hk a (List.mem_cons_of_mem r ha)⟩
      rcases List.mem_cons.mp ((insertRotation_perm x k rest).mem_iff.mp ha) with rfl | ha
      · exact hrk
      · exact hr a ha
    case isFalse hge =>
      have hle : rotKey x k ≤ rotKey x r := not_lt.mp fun h => hge ((bytesLt_iff _ _).mpr h)
      have hkr : startKey x k < startKey x r :=
        startKey_lt_iff.mpr (hle.lt_or_eq.imp id fun h => ⟨h, hk r List.mem_cons_self⟩)
      exact List.pairwise_cons.mpr ⟨List.forall_mem_cons.mpr ⟨hkr, fun a ha => hkr.trans (hr a ha)⟩, hl⟩

theorem foldr_insertRotation_perm (x : List Byte) (l : List Nat) : (l.foldr (insertRotation x) []).Perm l := by
  induction l with
  | nil => rfl
  | cons k l ih => exact (insertRotation_perm x k _).trans (ih.cons k)

theorem foldr_insertRotation_pairwise (x : List Byte) {l : List Nat} (hl : l.Pairwise (· < ·)) :
    (l.foldr (insertRotation x) []).Pairwise (startKey x · < startKey x ·) := by
  induction l with
  | nil => exact List.Pairwise.nil
  | cons k l ih =>
    obtain ⟨hk, hl⟩ := List.pairwise_cons.mp hl
    exact insertRotation_pairwise (ih hl) fun r hr => hk r ((foldr_insertRotation_perm x l).mem_iff.mp hr)

theorem rotationIndex_perm (x : List Byte) : (rotationIndex x).Perm (List.range x.length) :=
  foldr_insertRotation_perm x _

theorem rotationIndex_pairwise (x : List Byte) : (rotationIndex x).Pairwise (startKey x · < startKey x ·) :=
  foldr_insertRotation_pairwise x List.pairwise_lt_range

@[simp] theorem rotationIndex_length (x : List Byte) : (rotationIndex x).length = x.length := by
  rw [(rotationIndex_perm x).length_eq, List.length_range]

theorem rotationIndex_nodup (x : List Byte) : (rotationIndex x).Nodup :=
  (rotationIndex_perm x).nodup_iff.mpr List.nodup_range

theorem mem_rotationIndex {x : List Byte} {k : Nat} : k ∈ rotationIndex x ↔ k < x.length := by
  rw [(rotationIndex_perm x).mem_iff, List.mem_range]

theorem rotationIndex_getElem_lt {x : List Byte} {r : Nat} (hr : r < (rotationIndex x).length) :
    (rotationIndex x)[r] < x.length := mem_rotationIndex.mp (List.getElem_mem hr)

/-! ### The last column and the output of the forward transform (R190, R193) -/

/-- The last column of the sorted rotations. -/
def lastColumn (x : List Byte) : List Byte := (rotationIndex x).map (lastColumnByte x)

@[simp] theorem lastColumn_length (x : List Byte) : (lastColumn x).length = x.length := by
  rw [lastColumn, List.length_map, rotationIndex_length]

theorem lastColumn_getElem {x : List Byte} {r : Nat} (hr : r < x.length) :
    (lastColumn x)[r]'(by simpa using hr) = lastColumnByte x ((rotationIndex x)[r]'(by simpa using hr)) := by
  simp only [lastColumn, List.getElem_map]

/-- The bytes before the starts 0, 1, ... are the input from its last byte on. -/
theorem map_lastColumnByte_range (x : List Byte) :
    (List.range x.length).map (lastColumnByte x) = x.rotate (x.length - 1) := by
  refine List.ext_getElem (by simp) fun j hj hj' => ?_
  simp only [List.length_map, List.length_range] at hj
  have hpos : 0 < x.length := Nat.zero_lt_of_lt hj
  rw [List.getElem_map, List.getElem_range, List.getElem_rotate, lastColumnByte,
    List.getD_eq_getElem _ _ (Nat.mod_lt _ hpos)]
  simp only [Nat.add_sub_assoc hpos]

theorem lastColumn_perm (x : List Byte) : (lastColumn x).Perm x := by
  refine ((rotationIndex_perm x).map (lastColumnByte x)).trans ?_
  rw [map_lastColumnByte_range]
  exact List.rotate_perm x _

/-- The row of rotation 0. -/
def identityRow (x : List Byte) : Nat := (rotationIndex x).idxOf 0

theorem identityRow_lt {x : List Byte} (hx : x ≠ []) : identityRow x < x.length := by
  rw [← rotationIndex_length x]
  exact List.idxOf_lt_length_of_mem (mem_rotationIndex.mpr (List.length_pos_of_ne_nil hx))

theorem rotationIndex_identityRow {x : List Byte} (hx : x ≠ []) : (rotationIndex x)[identityRow x]? = some 0 :=
  List.getElem?_idxOf (mem_rotationIndex.mpr (List.length_pos_of_ne_nil hx))

/-- A list with one more element at a position. -/
theorem erase_take_append_drop {c : List Byte} {mark : Byte} (hmark : mark ∉ c) (I : Nat) :
    (c.take I ++ [mark] ++ c.drop I).erase mark = c := by
  have htake : mark ∉ c.take I := fun h => hmark (List.mem_of_mem_take h)
  rw [List.append_assoc, List.erase_append_right _ htake, List.singleton_append, List.erase_cons_head,
    List.take_append_drop]

theorem count_take_append_drop {c : List Byte} {mark : Byte} (hmark : mark ∉ c) (I : Nat) :
    (c.take I ++ [mark] ++ c.drop I).count mark = 1 := by
  have htake : (c.take I).count mark = 0 := List.count_eq_zero.mpr fun h => hmark (List.mem_of_mem_take h)
  have hdrop : (c.drop I).count mark = 0 := List.count_eq_zero.mpr fun h => hmark (List.mem_of_mem_drop h)
  rw [List.count_append, List.count_append, htake, hdrop, List.count_singleton_self]

theorem bwtFwdF_eq {x : List Byte} {mark : Byte} (hmark : mark ∉ x) :
    bwtFwdF mark x =
      .ok ((lastColumn x).take (identityRow x) ++ [mark] ++ (lastColumn x).drop (identityRow x)) := by
  have hcontains : x.contains mark = false := by simpa using hmark
  rw [bwtFwdF, hcontains]
  rfl

/-! ### The pointer of the inverse (R195, R196) -/

section

variable {numbers : List Byte} {i j : Nat}

/-- The bytes below a value and those equal to it are not more than all bytes. -/
theorem countBelow_add_count_le (numbers : List Byte) (v : Byte) :
    countBelow numbers v + numbers.count v ≤ numbers.length := by
  induction numbers with
  | nil => simp [countBelow]
  | cons b rest ih =>
    simp only [countBelow] at ih ⊢
    rw [List.countP_cons, List.count_cons, List.length_cons]
    by_cases hb : b = v
    · simp [hb]; omega
    · have hne : (b == v) = false := by simpa using hb
      rw [hne]
      split <;> simp <;> omega

/-- The bytes below a greater value contain those below and equal to a smaller one. -/
theorem countBelow_add_count_le_countBelow (numbers : List Byte) {v w : Byte} (h : v.toNat < w.toNat) :
    countBelow numbers v + numbers.count v ≤ countBelow numbers w := by
  induction numbers with
  | nil => simp [countBelow]
  | cons b rest ih =>
    simp only [countBelow] at ih ⊢
    rw [List.countP_cons, List.count_cons, List.countP_cons]
    by_cases hb : b = v
    · subst hb; simp [h]; omega
    · have hne : (b == v) = false := by simpa using hb
      rw [hne]
      by_cases hv : b.toNat < v.toNat
      · simp [hv, hv.trans h]; omega
      · simp [hv]; omega

/-- The occurrences before a position are not all. -/
theorem rankBefore_lt_count (hi : i < numbers.length) : rankBefore numbers i < numbers.count (numbers.getD i 0) := by
  have hsplit := List.take_append_drop (i + 1) numbers
  have hcount := congrArg (List.count (numbers.getD i 0)) hsplit
  rw [List.take_succ_eq_append_getElem hi, List.count_append, List.count_append, List.getD_eq_getElem _ _ hi,
    List.count_singleton_self] at hcount
  rw [rankBefore, List.getD_eq_getElem _ _ hi]
  omega

theorem rankBefore_lt_rankBefore (hij : i < j) (hj : j < numbers.length)
    (heq : numbers.getD i 0 = numbers.getD j 0) : rankBefore numbers i < rankBefore numbers j := by
  have hi : i < (numbers.take j).length := by rw [List.length_take]; omega
  have hlt := rankBefore_lt_count hi
  have htake : (numbers.take j).take i = numbers.take i := by rw [List.take_take, Nat.min_eq_left hij.le]
  have hget : (numbers.take j).getD i 0 = numbers.getD i 0 := by
    rw [List.getD_eq_getElem _ _ hi, List.getElem_take, List.getD_eq_getElem]
  rw [rankBefore, htake, hget] at hlt
  rw [rankBefore, rankBefore, ← heq]
  exact hlt

theorem lfStep_lt_length (hi : i < numbers.length) : lfStep numbers i < numbers.length := by
  have hrank := rankBefore_lt_count hi
  have hall := countBelow_add_count_le numbers (numbers.getD i 0)
  rw [lfStep]
  omega

/-- The pointer map orders positions by their bytes. -/
theorem lfStep_lt_of_byte_lt (hi : i < numbers.length)
    (h : (numbers.getD i 0).toNat < (numbers.getD j 0).toNat) : lfStep numbers i < lfStep numbers j := by
  have hrank := rankBefore_lt_count hi
  have hbelow := countBelow_add_count_le_countBelow numbers h
  rw [lfStep, lfStep]
  omega

/-- The pointer map keeps the order of positions with one byte. -/
theorem lfStep_lt_of_byte_eq (hij : i < j) (hj : j < numbers.length)
    (heq : numbers.getD i 0 = numbers.getD j 0) : lfStep numbers i < lfStep numbers j := by
  have hrank := rankBefore_lt_rankBefore hij hj heq
  rw [lfStep, lfStep, heq]
  omega

theorem lfStep_inj (hi : i < numbers.length) (hj : j < numbers.length) (h : lfStep numbers i = lfStep numbers j) :
    i = j := by
  rcases Nat.lt_trichotomy (numbers.getD i 0).toNat (numbers.getD j 0).toNat with hlt | heq | hgt
  · exact absurd h (lfStep_lt_of_byte_lt hi hlt).ne
  · have hbyte := BitVec.eq_of_toNat_eq heq
    rcases Nat.lt_trichotomy i j with hij | hij | hij
    · exact absurd h (lfStep_lt_of_byte_eq hij hj hbyte).ne
    · exact hij
    · exact absurd h (lfStep_lt_of_byte_eq hij hi hbyte.symm).ne'
  · exact absurd h (lfStep_lt_of_byte_lt hj hgt).ne'

end

end Sys2Proof.Machine

namespace Sys2Proof.Proofs

open Sys2Proof Sys2Proof.Machine Sys2Proof.Claims

/-- Settles O43: each insertion keeps the list sorted by rotation and start. -/
theorem rotationIndexIsTheStableSort : Obligations.RotationIndexIsTheStableSort := by
  refine fun x => ⟨rotationIndex_perm x, fun r r' a b hrr' ha hb => ?_⟩
  obtain ⟨hr, rfl⟩ := List.getElem?_eq_some_iff.mp ha
  obtain ⟨hr', rfl⟩ := List.getElem?_eq_some_iff.mp hb
  exact rotBefore_of_startKey_lt (rotationIndex_getElem_lt hr) (rotationIndex_getElem_lt hr')
    (List.pairwise_iff_getElem.mp (rotationIndex_pairwise x) r r' hr hr' hrr')

/-- Settles O44: without the mark the output is the last column, which permutes the input. -/
theorem bwtForwardShape : Obligations.BwtForwardShape := by
  intro x mark hx hmark
  have hcol : mark ∉ lastColumn x := fun h => hmark ((lastColumn_perm x).mem_iff.mp h)
  have hrow := identityRow_lt hx
  have hpos : 0 < x.length := List.length_pos_of_ne_nil hx
  have htake : ((lastColumn x).take (identityRow x)).length = identityRow x := by
    rw [List.length_take, lastColumn_length]; omega
  have hzero : (rotationIndex x)[identityRow x]'(by simpa using hrow) = 0 :=
    (List.getElem?_eq_some_iff.mp (rotationIndex_identityRow hx)).2
  refine ⟨_, identityRow x, bwtFwdF_eq hmark, ?length, hrow, ?mark, count_take_append_drop hcol _, ?last, ?perm,
    rotationIndex_identityRow hx, fun r k hk => ?column⟩
  case length => simp; omega
  case mark => rw [List.append_assoc, List.getElem?_append_right htake.le, htake, Nat.sub_self]; rfl
  case last =>
    have hlast : lastColumnByte x 0 = x[x.length - 1] := by
      rw [lastColumnByte, Nat.zero_add, Nat.mod_eq_of_lt (by omega), List.getD_eq_getElem]
    rw [List.append_assoc, List.getElem?_append_right (by omega), htake, Nat.add_sub_cancel_left,
      List.singleton_append, List.getElem?_cons_succ, List.getElem?_drop, Nat.add_zero,
      List.getElem?_eq_getElem (by simpa using hrow), lastColumn_getElem hrow, hzero, hlast, List.getLast?_eq_getElem?,
      List.getElem?_eq_getElem]
  case perm => rw [erase_take_append_drop hcol]; exact lastColumn_perm x
  case column =>
    rw [erase_take_append_drop hcol, lastColumn, List.getElem?_map, hk, Option.map_some,
      lastColumnByte_eq_rotByte hpos]

/-- Settles O45: the map sorts positions by byte and then by place, and each position counts those before it. -/
theorem bwtInversePointerStaysInRange : Obligations.BwtInversePointerStaysInRange :=
  fun _ _ _ hi hj => ⟨lfStep_lt_length hi, lfStep_inj hi hj⟩

end Sys2Proof.Proofs
end

section
/-! PROOF. Proofs/BwtRoundTrip.lean: the rows of the sorted rotations, each with its last byte moved to the front, are the
same rows again, sorted by the pointer map; so the inverse walks the input backwards (44_bwt.md R195, R198). -/

namespace Sys2Proof.Machine

open Sys2Proof.Claims

/-! ### Rows in order -/

theorem natCons_le_natCons_iff {u v : Nat} {a b : List Nat} : u :: a ≤ v :: b ↔ u < v ∨ (u = v ∧ a ≤ b) := by
  rw [← not_lt, List.cons_lt_cons_iff, ← not_lt (a := b)]
  rcases Nat.lt_trichotomy u v with h | h | h
  · simp [h, h.not_gt, h.ne']
  · simp [h]
  · simp [h, h.not_gt, h.ne']

/-- Lists of numbers in order are in order without a part after the same number of entries. -/
theorem le_of_append_le {a b c d : List Nat} (hlen : a.length = b.length) (h : a ++ c ≤ b ++ d) : a ≤ b := by
  induction a generalizing b with
  | nil => rw [List.length_eq_zero_iff.mp hlen.symm]
  | cons u a ih =>
    cases b with
    | nil => cases hlen
    | cons v b =>
      rw [List.cons_append, List.cons_append, natCons_le_natCons_iff] at h
      exact natCons_le_natCons_iff.mpr (h.imp_right fun h => ⟨h.1, ih (Nat.succ.inj hlen) h.2⟩)

section

variable {x : List Byte}

/-- The start of the rotation in a row; a row that does not exist has none. -/
def rowStart (x : List Byte) (r : Nat) : Nat := (rotationIndex x).getD r 0

theorem rowStart_eq_getElem {r : Nat} (hr : r < x.length) :
    rowStart x r = (rotationIndex x)[r]'(by simpa using hr) := List.getD_eq_getElem ..

theorem rowStart_lt {r : Nat} (hr : r < x.length) : rowStart x r < x.length := by
  rw [rowStart_eq_getElem hr]
  exact rotationIndex_getElem_lt _

theorem rowStart_inj {r r' : Nat} (hr : r < x.length) (hr' : r' < x.length) (h : rowStart x r = rowStart x r') :
    r = r' := by
  rw [rowStart_eq_getElem hr, rowStart_eq_getElem hr'] at h
  exact (rotationIndex_nodup x).getElem_inj_iff.mp h

theorem rotKey_rowStart_mono {r r' : Nat} (hrr' : r ≤ r') (hr' : r' < x.length) :
    rotKey x (rowStart x r) ≤ rotKey x (rowStart x r') := by
  rcases hrr'.lt_or_eq with hlt | rfl
  · rw [rowStart_eq_getElem (hlt.trans hr'), rowStart_eq_getElem hr']
    have hpair := List.pairwise_iff_getElem.mp (rotationIndex_pairwise x) r r' (by simp; omega) (by simpa) hlt
    exact (startKey_lt_iff.mp hpair).elim le_of_lt fun h => h.1.le
  · rfl

theorem lastColumn_getD {r : Nat} (hr : r < x.length) : (lastColumn x).getD r 0 = lastColumnByte x (rowStart x r) := by
  rw [List.getD_eq_getElem _ _ (by simpa using hr), lastColumn_getElem hr, rowStart_eq_getElem hr]

/-- The start before a start lies in the input, and no two starts have the same one before them. -/
theorem prevStart_lt {k : Nat} (hk : k < x.length) : prevStart x k < x.length := Nat.mod_lt _ (Nat.zero_lt_of_lt hk)

theorem prevStart_eq {k : Nat} (hk : k < x.length) : prevStart x k = if k = 0 then x.length - 1 else k - 1 := by
  rw [prevStart]
  split
  case isTrue h => rw [h, Nat.zero_add, Nat.mod_eq_of_lt (by omega)]
  case isFalse h =>
    rw [show k + x.length - 1 = k - 1 + x.length by omega, Nat.add_mod_right, Nat.mod_eq_of_lt (by omega)]

theorem prevStart_inj {k k' : Nat} (hk : k < x.length) (hk' : k' < x.length) (h : prevStart x k = prevStart x k') :
    k = k' := by
  rw [prevStart_eq hk, prevStart_eq hk'] at h
  split_ifs at h <;> omega

theorem rotKey_prevStart {k : Nat} (hk : k < x.length) :
    rotKey x (prevStart x k) = (lastColumnByte x k).toNat :: (rotation x k).dropLast.map BitVec.toNat := by
  rw [rotKey, rotation_prevStart hk, List.map_cons]

/-- Rotations in order are in order after a step back, if their last bytes are equal. -/
theorem rotKey_prevStart_le_of_eq {k k' : Nat} (hk : k < x.length) (hk' : k' < x.length)
    (hbyte : lastColumnByte x k = lastColumnByte x k') (hle : rotKey x k ≤ rotKey x k') :
    rotKey x (prevStart x k) ≤ rotKey x (prevStart x k') := by
  rw [rotKey, rotKey, rotation_eq_dropLast_append hk, rotation_eq_dropLast_append hk', List.map_append,
    List.map_append] at hle
  have hlen : (((rotation x k).dropLast).map BitVec.toNat).length = (((rotation x k').dropLast).map BitVec.toNat).length := by
    simp [rotation_length hk.le, rotation_length hk'.le]
  rw [rotKey_prevStart hk, rotKey_prevStart hk', hbyte]
  exact natCons_le_natCons_iff.mpr (.inr ⟨rfl, le_of_append_le hlen hle⟩)

/-- Where the pointer map keeps an order of rows, the rows stepped back are in that order. -/
theorem rotKey_prevStart_mono {i j : Nat} (hi : i < x.length) (hj : j < x.length)
    (hle : lfStep (lastColumn x) i ≤ lfStep (lastColumn x) j) :
    rotKey x (prevStart x (rowStart x i)) ≤ rotKey x (prevStart x (rowStart x j)) := by
  have hki := rowStart_lt hi
  have hkj := rowStart_lt hj
  have hi' : i < (lastColumn x).length := by simpa using hi
  have hj' : j < (lastColumn x).length := by simpa using hj
  rcases Nat.lt_trichotomy ((lastColumn x).getD i 0).toNat ((lastColumn x).getD j 0).toNat with hlt | heq | hgt
  · rw [rotKey_prevStart hki, rotKey_prevStart hkj, ← lastColumn_getD hi, ← lastColumn_getD hj]
    exact natCons_le_natCons_iff.mpr (.inl hlt)
  · have hbyte := BitVec.eq_of_toNat_eq heq
    have hij : i ≤ j := by
      by_contra hji
      exact absurd hle (not_le.mpr (lfStep_lt_of_byte_eq (not_le.mp hji) hi' hbyte.symm))
    refine rotKey_prevStart_le_of_eq hki hkj ?_ (rotKey_rowStart_mono hij hj)
    rw [← lastColumn_getD hi, ← lastColumn_getD hj, hbyte]
  · exact absurd hle (not_le.mpr (lfStep_lt_of_byte_lt hj' hgt))

end

/-! ### The pointer map on the rows -/

/-- A map of the positions of `x` without repeats permutes them. -/
noncomputable def positionPerm (x : List Byte) (f : Nat → Nat) (hlt : ∀ i < x.length, f i < x.length)
    (hinj : ∀ i < x.length, ∀ j < x.length, f i = f j → i = j) : Equiv.Perm (Fin x.length) :=
  Equiv.ofBijective (fun i => ⟨f i, hlt i i.isLt⟩) <| Finite.injective_iff_bijective.mp fun i j h =>
    Fin.ext (hinj i i.isLt j j.isLt (Fin.mk.inj h))

@[simp] theorem positionPerm_apply (x : List Byte) (f : Nat → Nat) (hlt : ∀ i < x.length, f i < x.length)
    (hinj : ∀ i < x.length, ∀ j < x.length, f i = f j → i = j) (i : Fin x.length) :
    (positionPerm x f hlt hinj i : Nat) = f i := rfl

theorem lfStep_lastColumn_lt {x : List Byte} {i : Nat} (hi : i < x.length) :
    lfStep (lastColumn x) i < x.length := by
  simpa using lfStep_lt_length (numbers := lastColumn x) (i := i) (by simpa using hi)

/-- Rows to the starts of their rotations. -/
noncomputable def rowPerm (x : List Byte) : Equiv.Perm (Fin x.length) :=
  positionPerm x (rowStart x) (fun _ => rowStart_lt) fun _ hi _ hj => rowStart_inj hi hj

/-- Starts to the starts before them. -/
noncomputable def backPerm (x : List Byte) : Equiv.Perm (Fin x.length) :=
  positionPerm x (prevStart x) (fun _ => prevStart_lt) fun _ hi _ hj => prevStart_inj hi hj

/-- Rows to the rows the pointer leads to. -/
noncomputable def pointerPerm (x : List Byte) : Equiv.Perm (Fin x.length) :=
  positionPerm x (lfStep (lastColumn x)) (fun _ => lfStep_lastColumn_lt) fun _ hi _ hj =>
    lfStep_inj (by simpa using hi) (by simpa using hj)

/-- The rotations by their starts. -/
def startKeys (x : List Byte) (k : Fin x.length) : List Nat := rotKey x k

theorem startKeys_rowPerm_mono (x : List Byte) : Monotone (startKeys x ∘ rowPerm x) :=
  fun _ r' h => rotKey_rowStart_mono h r'.isLt

theorem startKeys_backPerm_mono (x : List Byte) :
    Monotone (startKeys x ∘ ((pointerPerm x).symm.trans ((rowPerm x).trans (backPerm x)))) := by
  intro r r' h
  have hle : pointerPerm x ((pointerPerm x).symm r) ≤ pointerPerm x ((pointerPerm x).symm r') := by simpa using h
  exact rotKey_prevStart_mono ((pointerPerm x).symm r).isLt ((pointerPerm x).symm r').isLt hle

/-- The pointer leads from a row to a row that holds the rotation one start earlier: stepped back and sorted, the rows
are the sorted rows, since there is one sorted order only. -/
theorem rotKey_rowStart_lfStep {x : List Byte} {i : Nat} (hi : i < x.length) :
    rotKey x (rowStart x (lfStep (lastColumn x) i)) = rotKey x (prevStart x (rowStart x i)) := by
  have hsame := congrFun (Tuple.unique_monotone (startKeys_rowPerm_mono x) (startKeys_backPerm_mono x))
    (pointerPerm x ⟨i, hi⟩)
  simpa [startKeys, rowPerm, backPerm, pointerPerm] using hsame

/-! ### The walk of the inverse (R195) -/

/-- From a row that holds the rotation at `n`, or rotation 0 for the whole input, the walk writes the first `n` bytes. -/
theorem bwtUnwind_lastColumn {x : List Byte} {n i : Nat} (out : List Byte) (hn : n ≤ x.length) (hi : i < x.length)
    (hrow : rotKey x (rowStart x i) = rotKey x (n % x.length)) :
    bwtUnwind (lastColumn x) n i out = x.take n ++ out := by
  induction n generalizing i out with
  | zero => rfl
  | succ n ih =>
    have hpos : 0 < x.length := Nat.zero_lt_of_lt hn
    have hstart : (n + 1) % x.length < x.length := Nat.mod_lt _ hpos
    have hprev : prevStart x ((n + 1) % x.length) = n := by
      rw [prevStart_eq hstart]
      rcases hn.lt_or_eq with hlt | heq
      · rw [Nat.mod_eq_of_lt hlt, if_neg n.succ_ne_zero, Nat.add_sub_cancel]
      · rw [heq, Nat.mod_self, if_pos rfl, ← heq, Nat.add_sub_cancel]
    have hrot := rotKey_inj.mp hrow
    have hki := rowStart_lt hi
    have hnext : rotKey x (rowStart x (lfStep (lastColumn x) i)) = rotKey x (n % x.length) := by
      rw [rotKey_rowStart_lfStep hi, rotKey_inj, rotation_prevStart_congr hki hstart hrot, hprev, Nat.mod_eq_of_lt hn]
    have hbyte : (lastColumn x).getD i 0 = x[n] := by
      rw [lastColumn_getD hi, lastColumnByte_congr hki hstart hrot, lastColumnByte_eq_getD, hprev,
        List.getD_eq_getElem]
    rw [bwtUnwind, ih _ (Nat.le_of_succ_le hn) (lfStep_lastColumn_lt hi) hnext, hbyte,
      List.take_succ_eq_append_getElem hn, List.append_assoc, List.singleton_append]

/-- The walk from the row of rotation 0 writes the input. -/
theorem bwtUnwind_identityRow (x : List Byte) :
    bwtUnwind (lastColumn x) (lastColumn x).length (identityRow x) [] = x := by
  rw [lastColumn_length]
  rcases eq_or_ne x [] with rfl | hx
  · rfl
  · have hrow := identityRow_lt hx
    have hstart : rowStart x (identityRow x) = 0 := by
      rw [rowStart, List.getD_eq_getElem?_getD, rotationIndex_identityRow hx, Option.getD_some]
    rw [bwtUnwind_lastColumn [] le_rfl hrow (by rw [hstart, Nat.mod_self]), List.append_nil, List.take_length]

/-! ### The mark (R197) -/

theorem idxOf_take_append_drop {c : List Byte} {mark : Byte} (hmark : mark ∉ c) {I : Nat} (hI : I ≤ c.length) :
    (c.take I ++ [mark] ++ c.drop I).idxOf mark = I := by
  have htake : mark ∉ c.take I := fun h => hmark (List.mem_of_mem_take h)
  rw [List.append_assoc, List.idxOf_append_of_notMem htake, List.singleton_append, List.idxOf_cons_self, Nat.add_zero,
    List.length_take, Nat.min_eq_left hI]

/-- On the bytes `c` with one mark at `I`, the inverse is the walk over `c` from `I`. -/
theorem bwtInvF_take_append_drop {c : List Byte} {mark : Byte} (hmark : mark ∉ c) {I : Nat} (hI : I ≤ c.length)
    (hend : c ≠ [] → I < c.length) :
    bwtInvF mark (c.take I ++ [mark] ++ c.drop I) = .ok (bwtUnwind c c.length I []) := by
  have hnumbers : (c.take I ++ [mark] ++ c.drop I).take I ++ (c.take I ++ [mark] ++ c.drop I).drop (I + 1) = c := by
    have hlen : (c.take I).length = I := List.length_take_of_le hI
    have hlen' : (c.take I ++ [mark]).length = I + 1 := by rw [List.length_append, hlen, List.length_singleton]
    rw [List.drop_left' hlen', List.append_assoc, List.take_left' hlen, List.take_append_drop]
  have hrow : ¬(1 ≤ c.length ∧ I = c.length) := fun h => (hend (List.ne_nil_of_length_pos h.1)).ne h.2
  rw [bwtInvF, count_take_append_drop hmark, idxOf_take_append_drop hmark hI]
  dsimp only
  rw [hnumbers, if_neg Nat.one_ne_zero, if_neg (lt_irrefl 1), if_neg hrow]

end Sys2Proof.Machine

namespace Sys2Proof.Proofs

open Sys2Proof Sys2Proof.Machine Sys2Proof.Claims

/-- Settles O46: the inverse takes the last column and the row of rotation 0 out of the output and walks back. -/
theorem bwtRoundTrip : Obligations.BwtRoundTrip := by
  intro x mark hmark
  have hcol : mark ∉ lastColumn x := fun h => hmark ((lastColumn_perm x).mem_iff.mp h)
  have hne : lastColumn x ≠ [] → x ≠ [] := fun h hx => h (List.eq_nil_of_length_eq_zero (by simp [hx]))
  have hrow : identityRow x ≤ (lastColumn x).length := by
    rw [lastColumn_length, ← rotationIndex_length x]
    exact List.idxOf_le_length
  refine ⟨_, bwtFwdF_eq hmark, ?_⟩
  rw [bwtInvF_take_append_drop hcol hrow fun h => by simpa using identityRow_lt (hne h), bwtUnwind_identityRow]

end Sys2Proof.Proofs
end

section
/-! PROOF. Proofs/Packing.lean: bytes as one little-endian number, the bits of a stream as bits of that number, and the
packed integer of codes (20_memory.md R61, 41_bitstream.md R121, R128, R132). -/

namespace Sys2Proof.Machine

/-! ### Bytes as a number -/

theorem leValue_append (a b : List Byte) : leValue (a ++ b) = leValue a + 256 ^ a.length * leValue b := by
  induction a with
  | nil => simp [leValue]
  | cons c a ih => rw [List.cons_append, leValue, ih, leValue, List.length_cons, Nat.pow_succ']; ring

/-- Bytes are determined by how many they are and by their number. -/
theorem leBytes_leValue (bs : List Byte) : leBytes bs.length (leValue bs) = bs := by
  induction bs with
  | nil => rfl
  | cons b bs ih =>
    have hb : b.toNat < 256 := b.isLt
    have hdiv : (b.toNat + 256 * leValue bs) / 256 = leValue bs := by omega
    have hmod : BitVec.ofNat 8 (b.toNat + 256 * leValue bs) = b := by
      apply BitVec.eq_of_toNat_eq
      rw [BitVec.toNat_ofNat]
      omega
    rw [List.length_cons, leValue, leBytes, hdiv, hmod, ih]

theorem leValue_inj {a b : List Byte} (hlen : a.length = b.length) (h : leValue a = leValue b) : a = b := by
  rw [← leBytes_leValue a, ← leBytes_leValue b, hlen, h]

theorem leBytes_getElem (n v : Nat) {i : Nat} (hi : i < n) :
    (leBytes n v)[i]'(by simpa using hi) = BitVec.ofNat 8 (v / 256 ^ i) := by
  induction n generalizing v i with
  | zero => omega
  | succ n ih =>
    cases i with
    | zero => simp [leBytes]
    | succ i =>
      simp only [leBytes, List.getElem_cons_succ]
      rw [ih (v / 256) (by omega), Nat.div_div_eq_div_mul, Nat.pow_succ']

/-- The number of bytes is the sum of the bytes at their places. -/
theorem leValue_eq_sum (bs : List Byte) :
    leValue bs = ((List.range bs.length).map fun i => (bs.getD i 0).toNat * 2 ^ (8 * i)).sum := by
  induction bs with
  | nil => rfl
  | cons b bs ih =>
    rw [leValue, ih, List.length_cons, List.range_succ_eq_map, List.map_cons, List.map_map, List.sum_cons,
      List.getD_cons_zero, Nat.mul_zero, Nat.pow_zero, Nat.mul_one, ← List.sum_map_mul_left]
    congr 2
    refine List.map_congr_left fun i _ => ?_
    rw [Function.comp_apply, List.getD_cons_succ, Nat.mul_succ, Nat.pow_add]
    ring

/-! ### Bits of a stream (41_bitstream.md R121, R132) -/

/-- Bit `p` of a stream is bit `p` of the number of its bytes. -/
theorem streamBit_eq_testBit (bs : List Byte) (p : Nat) : streamBit (fun j => bs.getD j 0) p = (leValue bs).testBit p := by
  induction bs generalizing p with
  | nil => simp [streamBit, leValue]
  | cons b bs ih =>
    have hvalue : leValue (b :: bs) = 2 ^ 8 * leValue bs + b.toNat := by rw [leValue]; omega
    rw [hvalue, Nat.testBit_two_pow_mul_add _ b.isLt]
    by_cases hp : p < 8
    · rw [if_pos hp, streamBit, Nat.div_eq_of_lt hp, Nat.mod_eq_of_lt hp]; rfl
    · rw [if_neg hp, ← ih, streamBit, streamBit, show p / 8 = (p - 8) / 8 + 1 by omega,
        show p % 8 = (p - 8) % 8 by omega, List.getD_cons_succ]

/-- The code at a position is cut out of the number of the bytes. -/
theorem readBits_eq (bs : List Byte) (p w : Nat) :
    readBits (fun j => bs.getD j 0) p w = leValue bs / 2 ^ p % 2 ^ w := by
  induction w with
  | zero => simp [readBits, Nat.mod_one]
  | succ i ih =>
    rw [readBits, ih, streamBit_eq_testBit, Nat.toNat_testBit, Nat.mod_pow_succ, Nat.div_div_eq_div_mul,
      ← Nat.pow_add, Nat.mul_comm]

/-- A code depends on the bytes it lies in only. -/
theorem readBits_congr {f g : Nat → Byte} {p w n : Nat} (hfg : ∀ j < n, f j = g j) (hw : p + w ≤ 8 * n) :
    readBits f p w = readBits g p w := by
  induction w with
  | zero => rfl
  | succ i ih =>
    rw [readBits, readBits, ih (by omega), streamBit, streamBit, hfg _ (by omega)]

/-! ### The packed integer (41_bitstream.md R128) -/

@[simp] theorem packBits_cons (c w : Nat) (codes : List (Nat × Nat)) :
    packBits ((c, w) :: codes) = w + packBits codes := by
  simp [packBits]

@[simp] theorem packBits_append (a b : List (Nat × Nat)) : packBits (a ++ b) = packBits a + packBits b := by
  simp [packBits]

theorem packInt_lt (codes : List (Nat × Nat)) : packInt codes < 2 ^ packBits codes := by
  induction codes with
  | nil => simp [packInt, packBits]
  | cons c codes ih =>
    obtain ⟨c, w⟩ := c
    have hc : c % 2 ^ w < 2 ^ w := Nat.mod_lt _ (Nat.two_pow_pos w)
    rw [packInt, packBits_cons, Nat.pow_add]
    calc c % 2 ^ w + 2 ^ w * packInt codes < 2 ^ w + 2 ^ w * packInt codes := Nat.add_lt_add_right hc _
      _ = 2 ^ w * (packInt codes + 1) := by ring
      _ ≤ 2 ^ w * 2 ^ packBits codes := Nat.mul_le_mul_left _ ih

theorem packInt_append (a b : List (Nat × Nat)) : packInt (a ++ b) = packInt a + 2 ^ packBits a * packInt b := by
  induction a with
  | nil => simp [packInt, packBits]
  | cons c a ih =>
    obtain ⟨c, w⟩ := c
    rw [List.cons_append, packInt, ih, packInt, packBits_cons, Nat.pow_add]
    ring

/-- After the codes before it, a code that fits its width stands in the packed integer. -/
theorem packInt_div_mod (a b : List (Nat × Nat)) {c w : Nat} (hc : c < 2 ^ w) :
    packInt (a ++ (c, w) :: b) / 2 ^ packBits a % 2 ^ w = c := by
  rw [packInt_append, Nat.add_mul_div_left _ _ (Nat.two_pow_pos _), Nat.div_eq_of_lt (packInt_lt a), Nat.zero_add,
    packInt, Nat.add_mul_mod_self_left, Nat.mod_mod, Nat.mod_eq_of_lt hc]

theorem le_ceilDiv_mul (n : Nat) : n ≤ 8 * ceilDiv n 8 := by
  rw [ceilDiv]
  omega

@[simp] theorem pack_length (codes : List (Nat × Nat)) : (pack codes).length = ceilDiv (packBits codes) 8 :=
  leBytes_length ..

theorem leValue_pack (codes : List (Nat × Nat)) : leValue (pack codes) = packInt codes := by
  rw [pack, leValue_leBytes, Nat.mod_eq_of_lt]
  calc packInt codes < 2 ^ packBits codes := packInt_lt codes
    _ ≤ 2 ^ (8 * ceilDiv (packBits codes) 8) := Nat.pow_le_pow_right Nat.two_pos (le_ceilDiv_mul _)
    _ = 256 ^ ceilDiv (packBits codes) 8 := Nat.pow_mul 2 8 _

/-- A stream over packed codes reads the next code (41_bitstream.md R135). -/
theorem readBits_pack (a b : List (Nat × Nat)) {c w : Nat} (hc : c < 2 ^ w) :
    readBits (fun j => (pack (a ++ (c, w) :: b)).getD j 0) (packBits a) w = c := by
  rw [readBits_eq, leValue_pack, packInt_div_mod a b hc]

end Sys2Proof.Machine
end

section
/-! PROOF. Proofs/LzwEncoder.lean: the width schedule of the LZW coder in closed form, and what the encoder keeps while it
reads its input (42_lzw.md R151 to R156). -/

namespace Sys2Proof.Machine

/-! ### The width schedule (R153, R155, R166) -/

/-- The width of code `k`. -/
def lzwWidth (maxBits k : Nat) : Nat := min maxBits (Nat.log2 (255 + k) + 1)

/-- The number of codes assigned once `k` codes have been emitted (R152). -/
def lzwNext (maxBits k : Nat) : Nat := min (256 + k) (2 ^ maxBits)

/-- The ceiling leaves room for the literal codes (R152). -/
theorem byteCodes_le_ceiling {maxBits : Nat} (h9 : 9 ≤ maxBits) : 256 ≤ 2 ^ maxBits :=
  show 2 ^ 8 ≤ 2 ^ maxBits from Nat.pow_le_pow_right Nat.two_pos (by omega)

theorem lzwNext_zero {maxBits : Nat} (h9 : 9 ≤ maxBits) : lzwNext maxBits 0 = 256 :=
  Nat.min_eq_left (byteCodes_le_ceiling h9)

theorem lzwWidth_zero {maxBits : Nat} (h9 : 9 ≤ maxBits) : lzwWidth maxBits 0 = 8 := by
  have hlog : Nat.log2 255 = 7 := by decide
  rw [lzwWidth, Nat.add_zero, hlog]
  omega

theorem log2_le_log2 {m n : Nat} (hm : m ≠ 0) (h : m ≤ n) : m.log2 ≤ n.log2 :=
  (Nat.le_log2 (by omega)).mpr ((Nat.log2_self_le hm).trans h)

theorem lzwWidth_mono {k k' : Nat} (maxBits : Nat) (h : k ≤ k') : lzwWidth maxBits k ≤ lzwWidth maxBits k' := by
  have hlog : Nat.log2 (255 + k) ≤ Nat.log2 (255 + k') := log2_le_log2 (by omega) (by omega)
  rw [lzwWidth, lzwWidth]
  omega

theorem eight_le_lzwWidth {maxBits : Nat} (h9 : 9 ≤ maxBits) (k : Nat) : 8 ≤ lzwWidth maxBits k := by
  rw [← lzwWidth_zero h9]
  exact lzwWidth_mono maxBits (Nat.zero_le k)

/-- Codes assigned so far fit the width of the next code. -/
theorem lt_two_pow_lzwWidth {maxBits k c : Nat} (hc : c < lzwNext maxBits k) : c < 2 ^ lzwWidth maxBits k := by
  rw [lzwNext, Nat.lt_min] at hc
  rw [lzwWidth]
  rcases Nat.le_total maxBits (Nat.log2 (255 + k) + 1) with h | h
  · rw [Nat.min_eq_left h]; exact hc.2
  · rw [Nat.min_eq_right h]
    have hlog : 255 + k < 2 ^ (Nat.log2 (255 + k) + 1) := Nat.lt_log2_self
    omega

/-- The width grows when the codes assigned reach a power of two below the ceiling. -/
theorem lzwWidth_succ (maxBits k : Nat) :
    lzwWidth maxBits (k + 1) =
      if lzwNext maxBits k = 2 ^ lzwWidth maxBits k ∧ lzwWidth maxBits k < maxBits then lzwWidth maxBits k + 1
      else lzwWidth maxBits k := by
  have hmono := log2_le_log2 (m := 255 + k) (n := 255 + (k + 1)) (by omega) (by omega)
  have hlog : 255 + k < 2 ^ (Nat.log2 (255 + k) + 1) := Nat.lt_log2_self
  rcases le_or_gt maxBits (Nat.log2 (255 + k) + 1) with hceil | hbelow
  · have hk : lzwWidth maxBits k = maxBits := Nat.min_eq_left hceil
    rw [hk, if_neg (fun h => h.2.false), lzwWidth]
    omega
  · have hk : lzwWidth maxBits k = Nat.log2 (255 + k) + 1 := Nat.min_eq_right hbelow.le
    have hpow : 2 ^ (Nat.log2 (255 + k) + 1) < 2 ^ maxBits := Nat.pow_lt_pow_right (by decide) hbelow
    have hnext : lzwNext maxBits k = 256 + k := by rw [lzwNext]; omega
    rw [hk, hnext]
    by_cases hfull : 256 + k = 2 ^ (Nat.log2 (255 + k) + 1)
    · have hlog' : Nat.log2 (255 + (k + 1)) = Nat.log2 (255 + k) + 1 := by
        rw [show 255 + (k + 1) = 256 + k by omega, hfull, Nat.log2_two_pow]
      rw [if_pos ⟨hfull, hbelow⟩, lzwWidth, hlog']
      omega
    · have hlog' : Nat.log2 (255 + (k + 1)) < Nat.log2 (255 + k) + 1 := (Nat.log2_lt (by omega)).mpr (by omega)
      rw [if_neg fun h => hfull h.1, lzwWidth]
      omega

/-- The schedule as the coder computes it. -/
theorem lzwWidth_succ_eq_widen (maxBits k : Nat) :
    (if !false && lzwNext maxBits k == 2 ^ lzwWidth maxBits k && decide (lzwWidth maxBits k < maxBits) then
      lzwWidth maxBits k + 1 else lzwWidth maxBits k) = lzwWidth maxBits (k + 1) := by
  rw [lzwWidth_succ]
  simp

theorem lzwNext_succ (maxBits k : Nat) :
    (if lzwNext maxBits k < 2 ^ maxBits then lzwNext maxBits k + 1 else lzwNext maxBits k) = lzwNext maxBits (k + 1) := by
  rw [lzwNext, lzwNext]
  split <;> omega

/-- The width the coder holds after `k` codes: fixed-width mode keeps the first (R156, R171). -/
def lzwHeldWidth (maxBits : Nat) (fixedWidth : Bool) (k : Nat) : Nat := if fixedWidth then 8 else lzwWidth maxBits k

theorem lzwHeldWidth_succ (maxBits : Nat) (fixedWidth : Bool) (k : Nat) :
    (if !fixedWidth && lzwNext maxBits k == 2 ^ lzwHeldWidth maxBits fixedWidth k &&
        decide (lzwHeldWidth maxBits fixedWidth k < maxBits) then
      lzwHeldWidth maxBits fixedWidth k + 1 else lzwHeldWidth maxBits fixedWidth k) =
        lzwHeldWidth maxBits fixedWidth (k + 1) := by
  cases fixedWidth with
  | true => rfl
  | false => exact lzwWidth_succ_eq_widen maxBits k

/-! ### What the encoder keeps (R151, R152) -/

theorem mem_of_lookup {α β : Type} [BEq α] [LawfulBEq α] {l : List (α × β)} {a : α} {b : β}
    (h : l.lookup a = some b) : (a, b) ∈ l := by
  obtain ⟨l₁, l₂, rfl, -⟩ := List.lookup_eq_some_iff.mp h
  simp

/-- The encoder when the next byte extends the phrase. -/
theorem LzwEnc.step_of_some {maxBits : Nat} {fixedWidth : Bool} {t : LzwEnc} {c : Byte} {q : Nat}
    (h : t.dict.lookup (t.phrase, c) = some q) : t.step maxBits fixedWidth c = { t with phrase := q } := by
  simp only [LzwEnc.step, h]

/-- The encoder when the next byte ends the phrase: in either case of the ceiling, by one description. -/
theorem LzwEnc.step_of_none {maxBits : Nat} {fixedWidth : Bool} {t : LzwEnc} {c : Byte}
    (h : t.dict.lookup (t.phrase, c) = none) :
    t.step maxBits fixedWidth c =
      { dict := if t.next < 2 ^ maxBits then ((t.phrase, c), t.next) :: t.dict else t.dict
        phrase := c.toNat
        next := if t.next < 2 ^ maxBits then t.next + 1 else t.next
        width := if t.next < 2 ^ maxBits then
            if !fixedWidth && t.next == 2 ^ t.width && t.width < maxBits then t.width + 1 else t.width
          else t.width
        out := t.out ++ [(t.phrase, t.width)] } := by
  simp only [LzwEnc.step, h]
  split <;> rfl

/-- The counters of the encoder after the codes it has emitted, and those codes, each assigned when it was emitted. -/
structure LzwEnc.Ok (maxBits : Nat) (fixedWidth : Bool) (t : LzwEnc) : Prop where
  next : t.next = lzwNext maxBits t.out.length
  width : t.width = lzwHeldWidth maxBits fixedWidth t.out.length
  phrase : t.phrase < t.next
  dict : ∀ e ∈ t.dict, e.2 < t.next
  out : ∀ k c w : Nat, t.out[k]? = some (c, w) → w = lzwHeldWidth maxBits fixedWidth k ∧ c < lzwNext maxBits k

section

variable {maxBits : Nat} {fixedWidth : Bool} {t : LzwEnc}

theorem byte_lt_lzwNext (h9 : 9 ≤ maxBits) (c : Byte) (k : Nat) : c.toNat < lzwNext maxBits k := by
  have hc := c.isLt
  have hceil := byteCodes_le_ceiling h9
  rw [lzwNext]
  omega

/-- A held width at the ceiling does not grow. -/
theorem lzwHeldWidth_succ_of_ceiling {k : Nat} (h : ¬lzwNext maxBits k < 2 ^ maxBits) :
    lzwHeldWidth maxBits fixedWidth (k + 1) = lzwHeldWidth maxBits fixedWidth k := by
  rw [← lzwHeldWidth_succ]
  cases fixedWidth with
  | true => rfl
  | false =>
    have heq : lzwNext maxBits k = 2 ^ maxBits := by rw [lzwNext] at h ⊢; omega
    refine if_neg fun hgrow => ?_
    simp [lzwHeldWidth, heq] at hgrow
    omega

/-- The codes stay described when the open phrase is emitted. -/
theorem LzwEnc.Ok.out_append (h : t.Ok maxBits fixedWidth) {k c w : Nat}
    (hk : (t.out ++ [(t.phrase, t.width)])[k]? = some (c, w)) :
    w = lzwHeldWidth maxBits fixedWidth k ∧ c < lzwNext maxBits k := by
  rcases Nat.lt_trichotomy k t.out.length with hlt | rfl | hgt
  · exact h.out k c w (by rwa [List.getElem?_append_left hlt] at hk)
  · rw [List.getElem?_concat_length, Option.some.injEq, Prod.mk.injEq] at hk
    obtain ⟨rfl, rfl⟩ := hk
    exact ⟨h.width, h.next ▸ h.phrase⟩
  · rw [List.getElem?_eq_none (by simp; omega)] at hk
    cases hk

theorem LzwEnc.start_ok (h9 : 9 ≤ maxBits) (b : Byte) : (LzwEnc.start b).Ok maxBits fixedWidth where
  next := (lzwNext_zero h9).symm
  width := by cases fixedWidth <;> simp [LzwEnc.start, lzwHeldWidth, lzwWidth_zero h9]
  phrase := b.isLt
  dict := by simp [LzwEnc.start]
  out := by simp [LzwEnc.start]

theorem LzwEnc.Ok.step (h9 : 9 ≤ maxBits) (h : t.Ok maxBits fixedWidth) (c : Byte) :
    (t.step maxBits fixedWidth c).Ok maxBits fixedWidth := by
  cases hlook : t.dict.lookup (t.phrase, c) with
  | some q =>
    rw [LzwEnc.step_of_some hlook]
    exact { h with phrase := h.dict _ (mem_of_lookup hlook) }
  | none =>
    have hnext : (if t.next < 2 ^ maxBits then t.next + 1 else t.next) = lzwNext maxBits (t.out.length + 1) := by
      rw [h.next, lzwNext_succ]
    rw [LzwEnc.step_of_none hlook, hnext]
    refine ⟨by simp, ?width, byte_lt_lzwNext h9 c _, fun e he => ?dict, fun k c w => h.out_append⟩
    case width =>
      simp only [List.length_append, List.length_singleton, h.next, h.width, lzwHeldWidth_succ]
      split
      · rfl
      · exact (lzwHeldWidth_succ_of_ceiling ‹_›).symm
    case dict =>
      dsimp only at he ⊢
      rw [← hnext]
      split at he
      case isTrue hroom =>
        rw [if_pos hroom]
        rcases List.mem_cons.mp he with rfl | he
        · exact Nat.lt_succ_self _
        · exact (h.dict e he).trans (Nat.lt_succ_self _)
      case isFalse hfull => rw [if_neg hfull]; exact h.dict e he

theorem LzwEnc.Ok.foldl (h9 : 9 ≤ maxBits) (h : t.Ok maxBits fixedWidth) (x : List Byte) :
    (x.foldl (LzwEnc.step maxBits fixedWidth) t).Ok maxBits fixedWidth := by
  induction x generalizing t with
  | nil => exact h
  | cons c x ih => exact ih (h.step h9 c)

/-- Code `k` has the width of the schedule and was assigned before it was emitted. -/
theorem lzwCodes_getElem? (h9 : 9 ≤ maxBits) {x : List Byte} {k c w : Nat}
    (hk : (lzwCodes maxBits fixedWidth x)[k]? = some (c, w)) :
    w = lzwHeldWidth maxBits fixedWidth k ∧ c < lzwNext maxBits k := by
  cases x with
  | nil => cases hk
  | cons b rest => exact ((LzwEnc.start_ok h9 b).foldl h9 rest).out_append hk

end

/-! ### The modes emit the same codes (R156) -/

/-- The encoders of the two modes differ in widths only. -/
structure LzwEnc.SameCodes (t t' : LzwEnc) : Prop where
  dict : t.dict = t'.dict
  phrase : t.phrase = t'.phrase
  next : t.next = t'.next
  out : t.out.map Prod.fst = t'.out.map Prod.fst

theorem LzwEnc.SameCodes.step {maxBits : Nat} {f f' : Bool} {t t' : LzwEnc} (h : t.SameCodes t') (c : Byte) :
    (t.step maxBits f c).SameCodes (t'.step maxBits f' c) := by
  obtain ⟨hdict, hphrase, hnext, hout⟩ := h
  cases hlook : t.dict.lookup (t.phrase, c) with
  | some q =>
    rw [LzwEnc.step_of_some hlook, LzwEnc.step_of_some (hdict ▸ hphrase ▸ hlook)]
    exact ⟨hdict, rfl, hnext, hout⟩
  | none =>
    rw [LzwEnc.step_of_none hlook, LzwEnc.step_of_none (hdict ▸ hphrase ▸ hlook)]
    exact ⟨by simp only [hdict, hphrase, hnext], rfl, by simp only [hnext], by simp [hout, hphrase]⟩

theorem LzwEnc.SameCodes.foldl {maxBits : Nat} {f f' : Bool} {t t' : LzwEnc} (h : t.SameCodes t') (x : List Byte) :
    (x.foldl (LzwEnc.step maxBits f) t).SameCodes (x.foldl (LzwEnc.step maxBits f') t') := by
  induction x generalizing t t' with
  | nil => exact h
  | cons c x ih => exact ih (h.step c)

theorem lzwCodes_map_fst (maxBits : Nat) (f f' : Bool) (x : List Byte) :
    (lzwCodes maxBits f x).map Prod.fst = (lzwCodes maxBits f' x).map Prod.fst := by
  cases x with
  | nil => rfl
  | cons b rest =>
    have h := LzwEnc.SameCodes.foldl (maxBits := maxBits) (f := f) (f' := f')
      (⟨rfl, rfl, rfl, rfl⟩ : (LzwEnc.start b).SameCodes (LzwEnc.start b)) rest
    simp only [lzwCodes, List.map_append, h.out, List.map_cons, h.phrase, List.map_nil]

end Sys2Proof.Machine

namespace Sys2Proof.Proofs

open Sys2Proof Sys2Proof.Machine Sys2Proof.Claims

/-- Settles O47: the encoder's counters are functions of how many codes it has emitted. -/
theorem lzwCodesFollowTheWidthSchedule : Obligations.LzwCodesFollowTheWidthSchedule := by
  intro x maxBits h9 _
  refine ⟨fun k c w hk => ?_, lzwCodes_map_fst .., fun p hp => ?_⟩
  · obtain ⟨hw, hc⟩ := lzwCodes_getElem? h9 hk
    have hwidth : w = lzwWidth maxBits k := hw
    exact ⟨hwidth, hwidth ▸ lt_two_pow_lzwWidth hc⟩
  · obtain ⟨-, hc⟩ := lzwCodes_getElem? h9 hp
    rw [lzwNext] at hc
    omega

end Sys2Proof.Proofs
end

section
/-! PROOF. Proofs/LzwRoundTrip.lean: the LZW decoder reads back the encoder's codes at the encoder's widths and builds the
encoder's dictionary one code behind it (42_lzw.md R160 to R171). -/

namespace Sys2Proof.Machine

/-! ### Phrases of codes (R162, R163) -/

/-- The phrase of a literal or assigned code, with `dict` the phrases of codes 256, 257, ... -/
def phraseOf (dict : List (List Byte)) (c : Nat) : List Byte :=
  if c < 256 then [BitVec.ofNat 8 c] else dict.getD (c - 256) []

/-- One code after the first, apart from the width it was read with and the position after it. -/
def LzwDec.after (maxBits : Nat) (d : LzwDec) (c : Nat) : LzwDec := d.step maxBits 0 c 0

/-- What the decoder keeps: its counter counts its entries, and no phrase is empty. -/
structure LzwDec.Ok (maxBits : Nat) (d : LzwDec) : Prop where
  next : d.next = 256 + d.dict.length
  next_le : d.next ≤ 2 ^ maxBits
  old : d.oldPhrase ≠ []
  last : d.lastChar = d.oldPhrase.headD 0
  dict : ∀ e ∈ d.dict, e ≠ []

section

variable {maxBits c : Nat} {d : LzwDec}

theorem phraseOf_literal (dict : List (List Byte)) (b : Byte) : phraseOf dict b.toNat = [b] := by
  rw [phraseOf, if_pos b.isLt, BitVec.ofNat_toNat, BitVec.setWidth_eq]

theorem headD_append_of_ne_nil {p : List Byte} (h : p ≠ []) (q : List Byte) : (p ++ q).headD 0 = p.headD 0 := by
  obtain ⟨b, rest, rfl⟩ := List.exists_cons_of_ne_nil h
  rfl

/-- A code assigned in a dictionary keeps its phrase when the dictionary grows. -/
theorem phraseOf_append {dict : List (List Byte)} (more : List (List Byte)) (hc : c < 256 + dict.length) :
    phraseOf (dict ++ more) c = phraseOf dict c := by
  rw [phraseOf, phraseOf]
  split
  · rfl
  · rw [List.getD_append _ _ _ _ (by omega)]

theorem phraseOf_concat_length (dict : List (List Byte)) (p : List Byte) :
    phraseOf (dict ++ [p]) (256 + dict.length) = p := by
  rw [phraseOf, if_neg (by omega), List.getD_append_right _ _ _ _ (by omega)]
  simp

theorem phraseOf_ne_nil (hd : d.Ok maxBits) (hc : c < d.next) : phraseOf d.dict c ≠ [] := by
  rw [phraseOf]
  split
  · exact List.cons_ne_nil _ _
  · have hlt : c - 256 < d.dict.length := by have := hd.next; omega
    rw [List.getD_eq_getElem _ _ hlt]
    exact hd.dict _ (List.getElem_mem hlt)

/-- The decoder's phrase of an assigned code. -/
theorem LzwDec.resolve_of_lt (hc : c < d.next) : d.resolve c = phraseOf d.dict c := by
  rw [LzwDec.resolve, phraseOf, if_pos hc]

/-- The decoder's phrase of a code the encoder has just assigned (R163). -/
theorem LzwDec.resolve_of_le (hd : d.Ok maxBits) (hc : d.next ≤ c) : d.resolve c = d.oldPhrase ++ [d.lastChar] := by
  have hnext := hd.next
  rw [LzwDec.resolve, if_neg (by omega), if_neg (by omega)]

theorem LzwDec.resolve_ne_nil (hd : d.Ok maxBits) (c : Nat) : d.resolve c ≠ [] := by
  rcases lt_or_ge c d.next with hc | hc
  · rw [LzwDec.resolve_of_lt hc]; exact phraseOf_ne_nil hd hc
  · rw [LzwDec.resolve_of_le hd hc]; exact List.append_ne_nil_of_left_ne_nil hd.old _

/-- The entry a code makes the decoder add: the previous phrase and the first byte of this one (R165). -/
def LzwDec.grown (maxBits : Nat) (d : LzwDec) (b : Byte) : List (List Byte) :=
  if d.next < 2 ^ maxBits then d.dict ++ [d.oldPhrase ++ [b]] else d.dict

@[simp] theorem LzwDec.after_dict : (d.after maxBits c).dict = d.grown maxBits ((d.resolve c).headD 0) := rfl

@[simp] theorem LzwDec.after_next :
    (d.after maxBits c).next = if d.next < 2 ^ maxBits then d.next + 1 else d.next := rfl

@[simp] theorem LzwDec.after_oldPhrase : (d.after maxBits c).oldPhrase = d.resolve c := rfl

@[simp] theorem LzwDec.after_lastChar : (d.after maxBits c).lastChar = (d.resolve c).headD 0 := rfl

@[simp] theorem LzwDec.after_out : (d.after maxBits c).out = d.out ++ d.resolve c := rfl

theorem LzwDec.Ok.after (hd : d.Ok maxBits) (c : Nat) : (d.after maxBits c).Ok maxBits where
  next := by
    have hnext := hd.next
    rw [LzwDec.after_next, LzwDec.after_dict, LzwDec.grown]
    split
    · simp only [List.length_append, List.length_singleton]; omega
    · exact hnext
  next_le := by
    have hle := hd.next_le
    rw [LzwDec.after_next]
    split <;> omega
  old := LzwDec.resolve_ne_nil hd c
  last := rfl
  dict := by
    rw [LzwDec.after_dict, LzwDec.grown]
    split
    · exact List.forall_mem_append.mpr ⟨hd.dict, by simp⟩
    · exact hd.dict

/-- In the grown dictionary the decoder finds the phrase it resolves a code to, if that phrase has the first byte the
dictionary was grown with: for the code just added, by R163. -/
theorem LzwDec.resolve_eq_phraseOf_grown (hd : d.Ok maxBits) {b : Byte} (hc : c < (d.after maxBits 0).next)
    (hb : (phraseOf (d.grown maxBits b) c).headD 0 = b) : d.resolve c = phraseOf (d.grown maxBits b) c := by
  have hnext := hd.next
  rw [LzwDec.after_next] at hc
  rw [LzwDec.grown] at hb ⊢
  rcases lt_or_ge c d.next with hlt | hge
  · rw [LzwDec.resolve_of_lt hlt]
    split
    · rw [phraseOf_append _ (hnext ▸ hlt)]
    · rfl
  · split at hc
    case isFalse => omega
    case isTrue hroom =>
      have hlast : c = 256 + d.dict.length := by omega
      rw [if_pos hroom, hlast, phraseOf_concat_length, headD_append_of_ne_nil hd.old] at hb
      rw [if_pos hroom, LzwDec.resolve_of_le hd hge, hlast, phraseOf_concat_length, hd.last, hb]

end

/-! ### Encoder and decoder in step -/

/-- The decoder `d`, once it has read the encoder's open phrase as a code, against the encoder `t` that has read `seen`:
the same counter, a dictionary that explains every entry of the encoder's, and the input as output. -/
structure LzwSync (maxBits : Nat) (d : LzwDec) (t : LzwEnc) (seen : List Byte) : Prop where
  dec : d.Ok maxBits
  next : t.next = d.next
  phrase : t.phrase < t.next
  old : d.oldPhrase = phraseOf d.dict t.phrase
  dict : ∀ e ∈ t.dict, e.1.1 < t.next ∧ e.2 < t.next ∧ phraseOf d.dict e.2 = phraseOf d.dict e.1.1 ++ [e.1.2]
  out : d.out = seen

section

variable {maxBits : Nat} {fixedWidth : Bool} {d : LzwDec} {t : LzwEnc} {seen : List Byte}

/-- The encoder extends its phrase: the decoder would have read the longer phrase's code instead. -/
theorem LzwSync.extend (hd : d.Ok maxBits) (h : LzwSync maxBits (d.after maxBits t.phrase) t seen) {c : Byte} {q : Nat}
    (hlook : t.dict.lookup (t.phrase, c) = some q) :
    LzwSync maxBits (d.after maxBits q) { t with phrase := q } (seen ++ [c]) := by
  obtain ⟨-, hq, hphrase⟩ := h.dict _ (mem_of_lookup hlook)
  have hold : phraseOf (d.after maxBits t.phrase).dict q = d.resolve t.phrase ++ [c] := by rw [hphrase, ← h.old]; rfl
  have hhead : (phraseOf (d.after maxBits t.phrase).dict q).headD 0 = (d.resolve t.phrase).headD 0 := by
    rw [hold, headD_append_of_ne_nil (LzwDec.resolve_ne_nil hd _)]
  have hresolve : d.resolve q = phraseOf (d.after maxBits t.phrase).dict q :=
    LzwDec.resolve_eq_phraseOf_grown hd (h.next ▸ hq) hhead
  have hdict : (d.after maxBits q).dict = (d.after maxBits t.phrase).dict := by
    rw [LzwDec.after_dict, hresolve, hhead, LzwDec.after_dict]
  refine ⟨hd.after q, h.next, hq, ?_, ?_, ?_⟩
  · rw [LzwDec.after_oldPhrase, hresolve, hdict]
  · rw [hdict]; exact h.dict
  · rw [LzwDec.after_out, hresolve, hold, ← h.out, LzwDec.after_out, List.append_assoc]

/-- The encoder emits its phrase: the decoder has read it, and reads the byte that ended it as the next code. -/
theorem LzwSync.emit (h : LzwSync maxBits d t seen) {c : Byte} (hlook : t.dict.lookup (t.phrase, c) = none) :
    LzwSync maxBits (d.after maxBits c.toNat) (t.step maxBits fixedWidth c) (seen ++ [c]) := by
  have hlen := h.dec.next
  have hc := c.isLt
  have hlit : c.toNat < d.next := by omega
  have hresolve : d.resolve c.toNat = [c] := by rw [LzwDec.resolve_of_lt hlit, phraseOf_literal]
  have hkeep : ∀ p < d.next, phraseOf (d.grown maxBits c) p = phraseOf d.dict p := fun p hp => by
    rw [LzwDec.grown]
    split
    · exact phraseOf_append _ (hlen ▸ hp)
    · rfl
  have hentries : ∀ e ∈ t.dict, e.1.1 < d.next ∧ e.2 < d.next ∧
      phraseOf (d.grown maxBits c) e.2 = phraseOf (d.grown maxBits c) e.1.1 ++ [e.1.2] := fun e he => by
    obtain ⟨hp, hq, heq⟩ := h.dict e he
    rw [h.next] at hp hq
    exact ⟨hp, hq, by rw [hkeep _ hp, hkeep _ hq, heq]⟩
  rw [LzwEnc.step_of_none hlook, h.next]
  refine ⟨h.dec.after _, rfl, ?phrase, ?old, ?entries, ?out⟩
  case phrase => dsimp only; split <;> omega
  case old => rw [LzwDec.after_oldPhrase, hresolve, phraseOf_literal]
  case out => rw [LzwDec.after_out, hresolve, h.out]
  case entries =>
    rw [LzwDec.after_dict, hresolve, List.headD_cons]
    dsimp only
    split
    case isFalse => exact hentries
    case isTrue hroom =>
      intro e he
      rcases List.mem_cons.mp he with rfl | he
      · have hp : t.phrase < d.next := h.next ▸ h.phrase
        refine ⟨hp.trans (Nat.lt_succ_self _), Nat.lt_succ_self _, ?_⟩
        dsimp only
        rw [hkeep _ hp, ← h.old, LzwDec.grown, if_pos hroom, hlen, phraseOf_concat_length]
      · obtain ⟨hp, hq, heq⟩ := hentries e he
        exact ⟨hp.trans (Nat.lt_succ_self _), hq.trans (Nat.lt_succ_self _), heq⟩

end

/-! ### The decoder over a list of codes -/

/-- The decoder after a first code (R164). -/
def LzwDec.first (c : Nat) : LzwDec :=
  { dict := [], next := 256, width := 8, oldPhrase := [BitVec.ofNat 8 c], lastChar := BitVec.ofNat 8 c,
    out := [BitVec.ofNat 8 c], pos := 0 }

/-- The decoder after a list of codes; of no code, after code 0. -/
def lzwDecoded (maxBits : Nat) : List Nat → LzwDec
  | [] => LzwDec.first 0
  | c :: codes => codes.foldl (LzwDec.after maxBits) (LzwDec.first c)

section

variable {maxBits : Nat} {fixedWidth : Bool}

theorem lzwDecoded_concat {codes : List Nat} (h : codes ≠ []) (c : Nat) :
    lzwDecoded maxBits (codes ++ [c]) = (lzwDecoded maxBits codes).after maxBits c := by
  obtain ⟨c₀, rest, rfl⟩ := List.exists_cons_of_ne_nil h
  rw [List.cons_append, lzwDecoded, List.foldl_append, lzwDecoded]
  rfl

theorem LzwDec.first_ok (h9 : 9 ≤ maxBits) (c : Nat) : (LzwDec.first c).Ok maxBits where
  next := rfl
  next_le := byteCodes_le_ceiling h9
  old := List.cons_ne_nil _ _
  last := rfl
  dict := by simp [LzwDec.first]

theorem lzwDecoded_ok (h9 : 9 ≤ maxBits) (codes : List Nat) : (lzwDecoded maxBits codes).Ok maxBits := by
  induction codes using List.reverseRecOn with
  | nil => exact LzwDec.first_ok h9 0
  | append_singleton codes c ih =>
    rcases eq_or_ne codes [] with rfl | hne
    · exact LzwDec.first_ok h9 c
    · rw [lzwDecoded_concat hne]; exact ih.after c

/-- The codes emitted so far and the open phrase. -/
def LzwEnc.codes (t : LzwEnc) : List Nat := t.out.map Prod.fst ++ [t.phrase]

theorem LzwEnc.start_sync (h9 : 9 ≤ maxBits) (b : Byte) :
    LzwSync maxBits (lzwDecoded maxBits (LzwEnc.start b).codes) (LzwEnc.start b) [b] := by
  have hb : BitVec.ofNat 8 b.toNat = b := by rw [BitVec.ofNat_toNat, BitVec.setWidth_eq]
  refine ⟨lzwDecoded_ok h9 _, rfl, b.isLt, (phraseOf_literal _ b).symm ▸ congrArg (fun x => [x]) hb, ?_,
    congrArg (fun x => [x]) hb⟩
  simp [LzwEnc.start]

/-- Before the first code no phrase is longer than a byte, so none can be extended. -/
theorem LzwSync.lookup_eq_none_of_out_nil {t : LzwEnc} {seen : List Byte}
    (h : LzwSync maxBits (lzwDecoded maxBits t.codes) t seen) (hout : t.out = []) (k : Nat × Byte) :
    t.dict.lookup k = none := by
  by_contra hne
  obtain ⟨q, hq⟩ := Option.ne_none_iff_exists'.mp hne
  obtain ⟨hlt, hlt', heq⟩ := h.dict _ (mem_of_lookup hq)
  have hfirst : lzwDecoded maxBits t.codes = LzwDec.first t.phrase := by rw [LzwEnc.codes, hout]; rfl
  have hnext : t.next = 256 := by rw [h.next, hfirst]; rfl
  rw [phraseOf, phraseOf, if_pos (hnext ▸ hlt'), if_pos (hnext ▸ hlt)] at heq
  exact absurd (congrArg List.length heq) (by simp)

theorem LzwSync.step (h9 : 9 ≤ maxBits) {t : LzwEnc} {seen : List Byte}
    (h : LzwSync maxBits (lzwDecoded maxBits t.codes) t seen) (c : Byte) :
    LzwSync maxBits (lzwDecoded maxBits (t.step maxBits fixedWidth c).codes) (t.step maxBits fixedWidth c)
      (seen ++ [c]) := by
  cases hlook : t.dict.lookup (t.phrase, c) with
  | none =>
    have hcodes : (t.step maxBits fixedWidth c).codes = t.codes ++ [c.toNat] := by
      simp [LzwEnc.step_of_none hlook, LzwEnc.codes]
    rw [hcodes, lzwDecoded_concat (by simp [LzwEnc.codes])]
    exact h.emit hlook
  | some q =>
    have hne : t.out.map Prod.fst ≠ [] := fun hnil => by
      rw [h.lookup_eq_none_of_out_nil (List.map_eq_nil_iff.mp hnil)] at hlook
      cases hlook
    rw [LzwEnc.codes, lzwDecoded_concat hne] at h
    rw [LzwEnc.step_of_some hlook, LzwEnc.codes, lzwDecoded_concat hne]
    exact h.extend (lzwDecoded_ok h9 _) hlook

theorem LzwSync.foldl (h9 : 9 ≤ maxBits) {t : LzwEnc} {seen : List Byte}
    (h : LzwSync maxBits (lzwDecoded maxBits t.codes) t seen) (x : List Byte) :
    LzwSync maxBits (lzwDecoded maxBits (x.foldl (LzwEnc.step maxBits fixedWidth) t).codes)
      (x.foldl (LzwEnc.step maxBits fixedWidth) t) (seen ++ x) := by
  induction x generalizing t seen with
  | nil => rwa [List.append_nil]
  | cons c x ih =>
    rw [← List.singleton_append, ← List.append_assoc]
    exact ih (h.step h9 c)

/-- The decoder's output on the encoder's codes is the input. -/
theorem lzwDecoded_lzwCodes (h9 : 9 ≤ maxBits) {x : List Byte} (hx : x ≠ []) :
    (lzwDecoded maxBits ((lzwCodes maxBits fixedWidth x).map Prod.fst)).out = x := by
  obtain ⟨b, rest, rfl⟩ := List.exists_cons_of_ne_nil hx
  have h := ((LzwEnc.start_sync h9 b).foldl (fixedWidth := fixedWidth) h9 rest).out
  rw [LzwEnc.codes] at h
  rw [lzwCodes, List.map_append]
  exact h

end

/-! ### Codes on the bus (R161, R170, R171) -/

/-- The width a code is written with. -/
def lzwBusWidth (maxBits : Nat) (fixedWidth : Bool) (k : Nat) : Nat := if fixedWidth then 16 else lzwWidth maxBits k

/-- The codes of a stream have the widths the decoder reads them with, and fit them. -/
def LzwScheduled (maxBits : Nat) (fixedWidth : Bool) (codes : List (Nat × Nat)) : Prop :=
  ∀ k c w : Nat, codes[k]? = some (c, w) → w = lzwBusWidth maxBits fixedWidth k ∧ c < 2 ^ w

section

variable {maxBits : Nat} {fixedWidth : Bool}

theorem eight_le_lzwBusWidth (h9 : 9 ≤ maxBits) (k : Nat) : 8 ≤ lzwBusWidth maxBits fixedWidth k := by
  rw [lzwBusWidth]
  split
  · decide
  · exact eight_le_lzwWidth h9 k

theorem eight_mul_length_le_packBits (h9 : 9 ≤ maxBits) {codes : List (Nat × Nat)}
    (h : LzwScheduled maxBits fixedWidth codes) : 8 * codes.length ≤ packBits codes := by
  rw [packBits, Nat.mul_comm, ← smul_eq_mul, ← List.length_map (f := Prod.snd)]
  refine List.card_nsmul_le_sum _ _ fun w hw => ?_
  obtain ⟨⟨c, w⟩, hmem, rfl⟩ := List.mem_map.mp hw
  obtain ⟨k, hk⟩ := List.getElem?_of_mem hmem
  rw [(h k c w hk).1]
  exact eight_le_lzwBusWidth h9 k

/-- The decoder reads the next code of packed codes with the code's own width. -/
theorem getCode_pack (a b : List (Nat × Nat)) {c w held : Nat} (hc : c < 2 ^ w)
    (hw : (if fixedWidth then 16 else held) = w) :
    getCode fixedWidth (pack (a ++ (c, w) :: b)) held (packBits a) = some (c, packBits (a ++ [(c, w)])) := by
  have hlen := le_ceilDiv_mul (packBits (a ++ (c, w) :: b))
  have hbits : packBits (a ++ [(c, w)]) = packBits a + w := by simp [packBits]
  rw [packBits_append, packBits_cons] at hlen
  rw [getCode, hw, pack_length, packBits_append, packBits_cons, if_neg (by omega), readBits_pack a b hc, hbits]

/-- After the last code fewer bits are left than a code takes. -/
theorem getCode_pack_end (codes : List (Nat × Nat)) {held : Nat} (hheld : 8 ≤ if fixedWidth then 16 else held) :
    getCode fixedWidth (pack codes) held (packBits codes) = none := by
  rw [getCode, pack_length, ceilDiv]
  refine if_pos ?_
  omega

/-- The width the decoder reads code `k + 1` with (R166). -/
theorem LzwDec.widen_eq {d : LzwDec} {k : Nat} (hnext : d.next = lzwNext maxBits k) (pos : Nat) :
    LzwDec.widen maxBits fixedWidth { d with width := lzwHeldWidth maxBits fixedWidth k, pos := pos } =
      lzwHeldWidth maxBits fixedWidth (k + 1) := by
  rw [LzwDec.widen, hnext]
  exact lzwHeldWidth_succ maxBits fixedWidth k

theorem ite_lzwHeldWidth (k : Nat) :
    (if fixedWidth then 16 else lzwHeldWidth maxBits fixedWidth k) = lzwBusWidth maxBits fixedWidth k := by
  cases fixedWidth <;> rfl

/-- The decoder's loop on packed codes, `k + 1` of them read, is the decoder over the codes to come. -/
theorem lzwDecLoop_pack (h9 : 9 ≤ maxBits) {a b : List (Nat × Nat)} {k fuel : Nat} {d : LzwDec}
    (ha : a.length = k + 1) (hsched : LzwScheduled maxBits fixedWidth (a ++ b)) (hnext : d.next = lzwNext maxBits k)
    (hfuel : b.length ≤ fuel) :
    lzwDecLoop maxBits fixedWidth (pack (a ++ b)) fuel
        { d with width := lzwHeldWidth maxBits fixedWidth k, pos := packBits a } =
      ((b.map Prod.fst).foldl (LzwDec.after maxBits) d).out := by
  induction b generalizing a k fuel d with
  | nil =>
    cases fuel with
    | zero => rfl
    | succ fuel =>
      rw [List.append_nil, lzwDecLoop, LzwDec.widen_eq hnext, getCode_pack_end]
      · rfl
      · rw [ite_lzwHeldWidth]; exact eight_le_lzwBusWidth h9 _
  | cons c b ih =>
    obtain ⟨c, w⟩ := c
    obtain ⟨fuel, rfl⟩ : ∃ f, fuel = f + 1 := ⟨fuel - 1, by simp at hfuel; omega⟩
    have hkey : (a ++ (c, w) :: b)[k + 1]? = some (c, w) := by
      rw [← ha, List.getElem?_append_right le_rfl, Nat.sub_self, List.getElem?_cons_zero]
    obtain ⟨hw, hc⟩ := hsched (k + 1) c w hkey
    have hread : getCode fixedWidth (pack (a ++ (c, w) :: b)) (lzwHeldWidth maxBits fixedWidth (k + 1)) (packBits a) =
        some (c, packBits (a ++ [(c, w)])) := getCode_pack a b hc (by rw [ite_lzwHeldWidth, hw])
    rw [lzwDecLoop, LzwDec.widen_eq hnext]
    simp only [hread]
    rw [List.append_cons] at hsched ⊢
    have hnext' : (d.after maxBits c).next = lzwNext maxBits (k + 1) := by
      rw [LzwDec.after_next, hnext, lzwNext_succ]
    exact ih (d := d.after maxBits c) (by simp [ha]) hsched hnext' (by simpa using hfuel)

/-- The decoder on packed codes, the first a byte, is the decoder over the codes. -/
theorem lzwDecF_pack (h9 : 9 ≤ maxBits) {codes : List (Nat × Nat)} (hsched : LzwScheduled maxBits fixedWidth codes)
    (hfirst : ∀ c w, codes[0]? = some (c, w) → c < 256) (hne : codes ≠ [])
    (heven : fixedWidth = true → (pack codes).length % 2 = 0) :
    lzwDecF maxBits fixedWidth (pack codes) = .ok (lzwDecoded maxBits (codes.map Prod.fst)).out := by
  obtain ⟨⟨c, w⟩, rest, rfl⟩ := List.exists_cons_of_ne_nil hne
  obtain ⟨hw, hc⟩ := hsched 0 c w rfl
  have hlen : (fixedWidth && (pack ((c, w) :: rest)).length % 2 != 0) = false := by
    cases hf : fixedWidth with
    | false => rfl
    | true => rw [heven hf]; rfl
  have hheld : lzwHeldWidth maxBits fixedWidth 0 = 8 := by cases fixedWidth <;> simp [lzwHeldWidth, lzwWidth_zero h9]
  have hread : getCode fixedWidth (pack ((c, w) :: rest)) 8 0 = some (c, packBits [(c, w)]) := by
    refine getCode_pack [] rest hc ?_
    rw [hw, ← hheld, ite_lzwHeldWidth]
  have hfuel : rest.length ≤ (pack ((c, w) :: rest)).length + 1 := by
    have hbits := eight_mul_length_le_packBits h9 hsched
    have hceil := le_ceilDiv_mul (packBits ((c, w) :: rest))
    rw [pack_length]
    rw [List.length_cons] at hbits
    omega
  have hloop := lzwDecLoop_pack h9 (a := [(c, w)]) (b := rest) (k := 0) (d := LzwDec.first c) rfl hsched
    (lzwNext_zero h9).symm hfuel
  rw [hheld] at hloop
  rw [lzwDecF, hlen]
  simp only [hread, Bool.false_eq_true, if_false, if_neg (Nat.not_le_of_lt (hfirst c w rfl))]
  exact congrArg Result.ok hloop

/-! ### The encoder's output as packed codes (R154, R171) -/

/-- The encoder's codes with the widths they are written with. -/
def lzwBusCodes (maxBits : Nat) (fixedWidth : Bool) (x : List Byte) : List (Nat × Nat) :=
  if fixedWidth then (lzwCodes maxBits true x).map fun c => (c.1, 16) else lzwCodes maxBits false x

theorem packBits_map_16 (codes : List Nat) : packBits (codes.map fun c => (c, 16)) = 16 * codes.length := by
  simp [packBits, Function.comp_def, Nat.mul_comm]

theorem fixedBytes_length (codes : List Nat) : (fixedBytes codes).length = 2 * codes.length := by
  simp [fixedBytes, List.length_flatMap, Nat.mul_comm]

theorem leValue_fixedBytes (codes : List Nat) : leValue (fixedBytes codes) = packInt (codes.map fun c => (c, 16)) := by
  induction codes with
  | nil => rfl
  | cons c codes ih =>
    rw [fixedBytes, List.flatMap_cons, leValue_append, leValue_leBytes, leBytes_length, ← fixedBytes, ih]
    rfl

/-- The 16-bit words of fixed-width mode are packed codes of width 16. -/
theorem fixedBytes_eq_pack (codes : List Nat) : fixedBytes codes = pack (codes.map fun c => (c, 16)) := by
  refine leValue_inj ?_ (by rw [leValue_fixedBytes, leValue_pack])
  rw [fixedBytes_length, pack_length, packBits_map_16, ceilDiv]
  omega

theorem lzwBusCodes_true (x : List Byte) :
    lzwBusCodes maxBits true x = ((lzwCodes maxBits true x).map Prod.fst).map fun c => (c, 16) := by
  rw [List.map_map]
  rfl

theorem lzwEncF_eq_pack (x : List Byte) :
    lzwEncF maxBits fixedWidth x = .ok (pack (lzwBusCodes maxBits fixedWidth x)) := by
  cases fixedWidth with
  | false => rfl
  | true => rw [lzwBusCodes_true, ← fixedBytes_eq_pack]; rfl

theorem lzwBusCodes_map_fst (x : List Byte) :
    (lzwBusCodes maxBits fixedWidth x).map Prod.fst = (lzwCodes maxBits fixedWidth x).map Prod.fst := by
  cases fixedWidth with
  | false => rfl
  | true => rw [lzwBusCodes_true, List.map_map]; exact List.map_id _

theorem lzwBusCodes_getElem? (h9 : 9 ≤ maxBits) {x : List Byte} {k c w : Nat}
    (hk : (lzwBusCodes maxBits fixedWidth x)[k]? = some (c, w)) :
    w = lzwBusWidth maxBits fixedWidth k ∧ c < lzwNext maxBits k := by
  cases fixedWidth with
  | false => exact lzwCodes_getElem? h9 hk
  | true =>
    rw [lzwBusCodes, if_pos rfl, List.getElem?_map, Option.map_eq_some_iff] at hk
    obtain ⟨⟨c', w'⟩, hcode, heq⟩ := hk
    cases heq
    exact ⟨rfl, (lzwCodes_getElem? h9 hcode).2⟩

theorem lzwBusCodes_scheduled (h9 : 9 ≤ maxBits) (h16 : maxBits ≤ 16) (x : List Byte) :
    LzwScheduled maxBits fixedWidth (lzwBusCodes maxBits fixedWidth x) := by
  intro k c w hk
  obtain ⟨hw, hc⟩ := lzwBusCodes_getElem? h9 hk
  refine ⟨hw, ?_⟩
  rw [hw, lzwBusWidth]
  split
  · have hpow : 2 ^ maxBits ≤ 2 ^ 16 := Nat.pow_le_pow_right Nat.two_pos h16
    exact (hc.trans_le (Nat.min_le_right _ _)).trans_le hpow
  · exact lt_two_pow_lzwWidth hc

theorem pack_lzwBusCodes_even (x : List Byte) : (pack (lzwBusCodes maxBits true x)).length % 2 = 0 := by
  rw [lzwBusCodes_true, ← fixedBytes_eq_pack, fixedBytes_length, Nat.mul_mod_right]

end

end Sys2Proof.Machine

namespace Sys2Proof.Proofs

open Sys2Proof Sys2Proof.Machine Sys2Proof.Claims

/-- Settles O48: the decoder reads the encoder's codes off the stream, and keeps in step with it code by code. -/
theorem lzwRoundTrip : Obligations.LzwRoundTrip := by
  intro x maxBits fixedWidth h9 h16
  refine ⟨_, lzwEncF_eq_pack x, ?_⟩
  rcases eq_or_ne x [] with rfl | hx
  · cases fixedWidth <;> simp [lzwDecF, getCode, lzwBusCodes, lzwCodes, pack, packBits, ceilDiv, leBytes]
  · have hfirst : ∀ c w, (lzwBusCodes maxBits fixedWidth x)[0]? = some (c, w) → c < 256 := fun c w hk =>
      (lzwBusCodes_getElem? h9 hk).2.trans_le (Nat.min_le_left _ _)
    have hne : lzwBusCodes maxBits fixedWidth x ≠ [] := fun hnil => by
      obtain ⟨b, rest, rfl⟩ := List.exists_cons_of_ne_nil hx
      have hfst := lzwBusCodes_map_fst (maxBits := maxBits) (fixedWidth := fixedWidth) (b :: rest)
      simp [hnil, lzwCodes] at hfst
    rw [lzwDecF_pack h9 (lzwBusCodes_scheduled h9 h16 x) hfirst hne fun hf => hf ▸ pack_lzwBusCodes_even x,
      lzwBusCodes_map_fst, lzwDecoded_lzwCodes h9 hx]

end Sys2Proof.Proofs
end

section
/-! PROOF. Proofs/Commands.lean: every command is its checks in order and then what it does when they pass; what the data
checks of a transform say of its function (40_command_cycle.md R105 to R108, R111; 60_exceptions.md R222). -/

namespace Sys2Proof.Machine

open Sys2Proof.Claims

/-! ### The first failure (R111) -/

theorem firstFailure_append (l m : List (Bool × BitVec 4)) :
    firstFailure (l ++ m) = (firstFailure l).or (firstFailure m) := by
  induction l with
  | nil => rfl
  | cons p l ih =>
    obtain ⟨b, c⟩ := p
    cases b with
    | true => rfl
    | false => exact ih

theorem firstFailure_eq_none_iff {l : List (Bool × BitVec 4)} : firstFailure l = none ↔ ∀ p ∈ l, p.1 = false := by
  induction l with
  | nil => simp [firstFailure]
  | cons p l ih =>
    obtain ⟨b, c⟩ := p
    cases b <;> simp [firstFailure, ih]

theorem mem_of_firstFailure {l : List (Bool × BitVec 4)} {c : BitVec 4} (h : firstFailure l = some c) : (true, c) ∈ l := by
  induction l with
  | nil => cases h
  | cons p l ih =>
    obtain ⟨b, d⟩ := p
    cases b with
    | true => rw [firstFailure, if_pos rfl, Option.some.injEq] at h; rw [h]; exact List.mem_cons_self
    | false => exact List.mem_cons_of_mem _ (ih h)

/-- The failure of the first check that fails, which changes STATUS and RESULT_LEN only (R108 (a)), or what follows. -/
def guarded (l : List (Bool × BitVec 4)) (s : State) (o : StepOutcome) : StepOutcome :=
  match firstFailure l with
  | some c => .next (failed c s)
  | none => o

section

variable {s : State} {o : StepOutcome} {l : List (Bool × BitVec 4)}

@[simp] theorem guarded_nil : guarded [] s o = o := rfl

@[simp] theorem guarded_cons (b : Bool) (c : BitVec 4) :
    guarded ((b, c) :: l) s o = if b then .next (failed c s) else guarded l s o := by
  cases b <;> rfl

theorem guarded_of_some {c : BitVec 4} (h : firstFailure l = some c) : guarded l s o = .next (failed c s) := by
  rw [guarded, h]

theorem guarded_of_none (h : firstFailure l = none) : guarded l s o = o := by
  rw [guarded, h]

end

/-! ### Checks before and after the source is read -/

/-- The checks of a command before a transform reads its source: all of them for any other command. -/
def preChecks (s : State) : Instr → List (Bool × BitVec 4)
  | .lzwEnc n _ | .lzwDec n _ => check (n.toNat ≠ 0 ∧ (n.toNat < 9 ∨ 16 < n.toNat)) 9 :: regionChecks s
  | .rleEnc | .rleDec | .bwtFwd _ | .bwtInv _ => regionChecks s
  | .mtfEnc ip | .mtfDec ip => if ip then [(badSource s, 10)] else regionChecks s
  | i => checks s i

/-- The checks of a transform on its source's bytes and its output's length. -/
def dataChecks (s : State) : Instr → List (Bool × BitVec 4)
  | .lzwEnc n fx => [check (s.latch.dstCap.toNat < outLength (lzwEncF (maxBitsOf n) fx (source s))) 12]
  | .lzwDec n fx =>
    [check (fx = true ∧ (source s).length % 2 = 1) 1,
     check (fx = true ∧ 2 ≤ (source s).length ∧ (source s)[1]? ≠ some 0) 14,
     check (s.latch.dstCap.toNat < outLength (lzwDecF (maxBitsOf n) fx (source s))) 12]
  | .rleEnc => [check (s.latch.dstCap.toNat < outLength (rleEncF (source s))) 12]
  | .rleDec =>
    [check ((source s).length % 2 = 1) 1, check (s.latch.dstCap.toNat < outLength (rleDecF (source s))) 12]
  | .bwtFwd m => [check (m ∈ source s) 2, check (s.latch.dstCap.toNat < (source s).length + 1) 12]
  | .bwtInv m =>
    [check ((source s).count m = 0) 3, check (1 < (source s).count m) 4,
     check (2 ≤ (source s).length ∧ (source s).getLast? = some m) 1,
     check (s.latch.dstCap.toNat < (source s).length - 1) 12]
  | .mtfEnc ip | .mtfDec ip => if ip then [] else [check (s.latch.dstCap.toNat < (source s).length) 12]
  | _ => []

theorem checks_eq_append (s : State) (i : Instr) : checks s i = preChecks s i ++ dataChecks s i := by
  cases i with
  | mtfEnc ip | mtfDec ip => cases ip <;> rfl
  | _ => rfl

/-! ### What a command does when its checks pass -/

/-- The state BSW_PUSH leaves in an open writer with room. -/
def State.afterPush (s : State) : State :=
  State.complete
    { s.writeBytes (s.writer.base.toNat + s.writer.bits.toNat / 8) s.pushed.1 with
      writer :=
        { s.writer with
          bits := BitVec.ofNat 32 (s.writer.bits.toNat + s.writer.width.toNat)
          acc := BitVec.ofNat 8 s.pushed.2 } }

/-- The state BSW_FINISH leaves when the writer was open. -/
def State.afterFinish (s : State) : State :=
  State.complete
    { s.writeBytes (s.writer.base.toNat + s.writer.bits.toNat / 8) s.finishTail with
      resultLen := BitVec.ofNat 32 (ceilDiv s.writer.bits.toNat 8)
      writer := { s.writer with acc := 0, isOpen := false } }

/-- The state BSR_SHIFT leaves when the buffer holds another code, the code as the engine reads it. -/
def State.afterRead (s : State) : State :=
  State.complete
    { s with
      data := BitVec.ofNat 32
        (readBits (fun j => s.readByte (s.reader.base.toNat + j)) s.reader.pos.toNat s.reader.width.toNat)
      reader := { s.reader with pos := BitVec.ofNat 32 (s.reader.pos.toNat + s.reader.width.toNat) }
      status := { s.status with eos := false } }

/-- What a command does when the checks before reading its source pass. -/
def State.unguarded (s : State) : Instr → StepOutcome
  | .nop => .next s.complete
  | .bswOpen n =>
    .next (State.complete
      { s with writer := ⟨if n.toNat = 0 then 8 else n, true, 0, 0, s.latch.dstAddr, s.latch.dstCap⟩ })
  | .bswSetw n => .next (State.complete { s with writer := { s.writer with width := n } })
  | .bswPush =>
    if !s.inDmem (s.writer.base.toNat + s.writer.bits.toNat / 8) s.pushed.1.length then .fault .engineOutsideDmem
    else .next s.afterPush
  | .bswFinish =>
    if !s.inDmem (s.writer.base.toNat + s.writer.bits.toNat / 8) s.finishTail.length then .fault .engineOutsideDmem
    else .next s.afterFinish
  | .bsrOpen n =>
    .next (State.complete
      { s with
        reader := ⟨if n.toNat = 0 then 8 else n, true, 0, s.latch.srcAddr, s.latch.srcLen⟩
        status := { s.status with eos := false } })
  | .bsrSetw n => .next (State.complete { s with reader := { s.reader with width := n } })
  | .bsrShift =>
    if 8 * s.reader.len.toNat < s.reader.pos.toNat + s.reader.width.toNat then
      .next (State.complete { s with data := Config.exhausted, status := { s.status with eos := true } })
    else if !s.inDmem s.reader.base.toNat (ceilDiv (s.reader.pos.toNat + s.reader.width.toNat) 8) then
      .fault .engineOutsideDmem
    else .next s.afterRead
  | .lzwEnc n fx =>
    .next (s.transformInto (lzwEncF (maxBitsOf n) fx) s.latch.dstAddr.toNat s.latch.dstCap.toNat)
  | .lzwDec n fx =>
    .next (s.transformInto (lzwDecF (maxBitsOf n) fx) s.latch.dstAddr.toNat s.latch.dstCap.toNat)
  | .rleEnc => .next (s.transformInto rleEncF s.latch.dstAddr.toNat s.latch.dstCap.toNat)
  | .rleDec => .next (s.transformInto rleDecF s.latch.dstAddr.toNat s.latch.dstCap.toNat)
  | .bwtFwd m => .next (s.transformInto (bwtFwdF m) s.latch.dstAddr.toNat s.latch.dstCap.toNat)
  | .bwtInv m => .next (s.transformInto (bwtInvF m) s.latch.dstAddr.toNat s.latch.dstCap.toNat)
  | .mtfEnc ip => .next (s.transformInto mtfEncF (outBase s (.mtfEnc ip)) (outCap s (.mtfEnc ip)))
  | .mtfDec ip => .next (s.transformInto mtfDecF (outBase s (.mtfDec ip)) (outCap s (.mtfDec ip)))

theorem State.unguarded_transform (s : State) {i : Instr} {F : List Byte → Result} (hi : transformOf i = some F) :
    s.unguarded i = .next (s.transformInto F (outBase s i) (outCap s i)) := by
  cases i <;> cases hi <;> rfl

/-! ### Every command is its checks and then its work -/

section

variable (s : State)

theorem State.validRegion_src_eq : s.validRegion s.latch.srcAddr s.latch.srcLen = !badSource s := by
  rw [Bool.eq_iff_iff, s.validRegion_iff]
  simp [badSource]

theorem State.validRegion_dst_eq : s.validRegion s.latch.dstAddr s.latch.dstCap = !badDest s := by
  rw [Bool.eq_iff_iff, s.validRegion_iff]
  simp [badDest]

theorem State.transform_eq_guarded (F : List Byte → Result) :
    .next (s.transform F) =
      guarded (regionChecks s) s (.next (s.transformInto F s.latch.dstAddr.toNat s.latch.dstCap.toNat)) := by
  rw [State.transform, s.validRegion_src_eq, s.validRegion_dst_eq, Bool.not_not, Bool.not_not, regionChecks,
    guarded_cons, guarded_cons, guarded_cons, guarded_nil, apply_ite Host.Outcome.next, apply_ite Host.Outcome.next,
    apply_ite Host.Outcome.next]
  rfl

theorem State.transformInPlace_eq_guarded (F : List Byte → Result) :
    .next (s.transformInPlace F) =
      guarded [(badSource s, 10)] s (.next (s.transformInto F s.latch.srcAddr.toNat s.latch.srcLen.toNat)) := by
  rw [State.transformInPlace, s.validRegion_src_eq, Bool.not_not, guarded_cons, guarded_nil,
    apply_ite Host.Outcome.next]
  rfl

theorem openWidth_of_le {n : BitVec 5} (hn : n.toNat ≤ 16) : openWidth n = some (if n.toNat = 0 then 8 else n) :=
  openWidth_eq_some.mpr ⟨hn, by simp [BitVec.toNat_eq]⟩

theorem openWidth_of_lt {n : BitVec 5} (hn : 16 < n.toNat) : openWidth n = none := by
  simp [openWidth, openNbitsOk, hn]

theorem setwWidth_of_range {n : BitVec 5} (h1 : 1 ≤ n.toNat) (h16 : n.toNat ≤ 16) : setwWidth n = some n :=
  setwWidth_eq_some.mpr ⟨⟨h1, h16⟩, rfl⟩

theorem setwWidth_of_not_range {n : BitVec 5} (h : n.toNat = 0 ∨ 16 < n.toNat) : setwWidth n = none := by
  rw [setwWidth, setwNbitsOk, if_neg]
  simp
  omega

theorem lzwMaxBits_eq (n : BitVec 5) :
    lzwMaxBits n = if n.toNat ≠ 0 ∧ (n.toNat < 9 ∨ 16 < n.toNat) then none else some (maxBitsOf n) := by
  split
  case isTrue h =>
    rw [Option.eq_none_iff_forall_ne_some]
    intro m hm
    have := (lzwMaxBits_eq_some.mp hm).1
    omega
  case isFalse h => exact lzwMaxBits_eq_some.mpr ⟨by omega, by simp [maxBitsOf, BitVec.toNat_eq]⟩

theorem execBswOpen_eq (n : BitVec 5) :
    execBswOpen n s = guarded (checks s (.bswOpen n)) s (s.unguarded (.bswOpen n)) := by
  rcases Nat.lt_or_ge 16 n.toNat with h | h
  · simp [execBswOpen, openWidth_of_lt h, checks, check, h, s.raise_badOption]
  · simp [execBswOpen, openWidth_of_le h, checks, check, Nat.not_lt_of_le h, s.validRegion_dst_eq]
    rfl

theorem execBsrOpen_eq (n : BitVec 5) :
    execBsrOpen n s = guarded (checks s (.bsrOpen n)) s (s.unguarded (.bsrOpen n)) := by
  rcases Nat.lt_or_ge 16 n.toNat with h | h
  · simp [execBsrOpen, openWidth_of_lt h, checks, check, h, s.raise_badOption]
  · simp [execBsrOpen, openWidth_of_le h, checks, check, Nat.not_lt_of_le h, s.validRegion_src_eq]
    rfl

theorem execBswSetw_eq (n : BitVec 5) :
    execBswSetw n s = guarded (checks s (.bswSetw n)) s (s.unguarded (.bswSetw n)) := by
  by_cases h : n.toNat = 0 ∨ 16 < n.toNat
  · simp [execBswSetw, setwWidth_of_not_range h, checks, check, h, s.raise_badOption]
  · have hw : setwWidth n = some n := setwWidth_of_range (by omega) (by omega)
    simp [execBswSetw, hw, checks, check, h]
    rfl

theorem execBsrSetw_eq (n : BitVec 5) :
    execBsrSetw n s = guarded (checks s (.bsrSetw n)) s (s.unguarded (.bsrSetw n)) := by
  by_cases h : n.toNat = 0 ∨ 16 < n.toNat
  · simp [execBsrSetw, setwWidth_of_not_range h, checks, check, h, s.raise_badOption]
  · have hw : setwWidth n = some n := setwWidth_of_range (by omega) (by omega)
    simp [execBsrSetw, hw, checks, check, h]
    rfl

theorem ceilDiv_lt_iff {c b : Nat} : c < ceilDiv b 8 ↔ 8 * c < b := by
  rw [ceilDiv]
  omega

theorem execBswPush_eq : execBswPush s = guarded (checks s .bswPush) s (s.unguarded .bswPush) := by
  have hexec : execBswPush s =
      if !s.writer.isOpen then .next (failed 13 s)
      else if s.writer.cap.toNat < ceilDiv (s.writer.bits.toNat + s.writer.width.toNat) 8 then .next (failed 12 s)
      else if !s.inDmem (s.writer.base.toNat + s.writer.bits.toNat / 8) s.pushed.1.length then
        .fault .engineOutsideDmem
      else .next s.afterPush := rfl
  simp only [hexec, ceilDiv_lt_iff, checks, check, guarded_cons, guarded_nil, decide_eq_true_eq]
  rfl

theorem execBswFinish_eq : execBswFinish s = guarded (checks s .bswFinish) s (s.unguarded .bswFinish) := by
  have hexec : execBswFinish s =
      if !s.writer.isOpen then .next (failed 13 s)
      else if !s.inDmem (s.writer.base.toNat + s.writer.bits.toNat / 8) s.finishTail.length then
        .fault .engineOutsideDmem
      else .next s.afterFinish := rfl
  simp only [hexec, checks, guarded_cons, guarded_nil]
  rfl

theorem execBsrShift_eq : execBsrShift s = guarded (checks s .bsrShift) s (s.unguarded .bsrShift) := by
  have hexec : execBsrShift s =
      if !s.reader.isOpen then .next (failed 13 s)
      else if 8 * s.reader.len.toNat < s.reader.pos.toNat + s.reader.width.toNat then
        .next (State.complete { s with data := Config.exhausted, status := { s.status with eos := true } })
      else if !s.inDmem s.reader.base.toNat (ceilDiv (s.reader.pos.toNat + s.reader.width.toNat) 8) then
        .fault .engineOutsideDmem
      else .next s.afterRead := rfl
  simp only [hexec, checks, guarded_cons, guarded_nil]
  rfl

/-- The two LZW commands check NBITS and then run the template. -/
theorem lzw_eq_guarded (n : BitVec 5) (F : Nat → List Byte → Result) :
    (match lzwMaxBits n with
      | none => .next (s.raise .badOption)
      | some maxBits => .next (s.transform (F maxBits)) : StepOutcome) =
      guarded (check (n.toNat ≠ 0 ∧ (n.toNat < 9 ∨ 16 < n.toNat)) 9 :: regionChecks s) s
        (.next (s.transformInto (F (maxBitsOf n)) s.latch.dstAddr.toNat s.latch.dstCap.toNat)) := by
  rw [lzwMaxBits_eq, check, guarded_cons, ← s.transform_eq_guarded]
  by_cases h : n.toNat ≠ 0 ∧ (n.toNat < 9 ∨ 16 < n.toNat)
  · rw [if_pos h, if_pos (decide_eq_true h), ← s.raise_badOption]
  · rw [if_neg h, if_neg (by simpa using h)]

/-- A command answers its first failure among the checks made before its source is read, or does its work. -/
theorem exec_eq_guarded (i : Instr) : exec i s = guarded (preChecks s i) s (s.unguarded i) := by
  cases i with
  | nop => rfl
  | bswOpen n => exact execBswOpen_eq s n
  | bswSetw n => exact execBswSetw_eq s n
  | bswPush => exact execBswPush_eq s
  | bswFinish => exact execBswFinish_eq s
  | bsrOpen n => exact execBsrOpen_eq s n
  | bsrSetw n => exact execBsrSetw_eq s n
  | bsrShift => exact execBsrShift_eq s
  | lzwEnc n fx => exact lzw_eq_guarded s n (lzwEncF · fx)
  | lzwDec n fx => exact lzw_eq_guarded s n (lzwDecF · fx)
  | rleEnc | rleDec | bwtFwd _ | bwtInv _ => exact s.transform_eq_guarded _
  | mtfEnc ip | mtfDec ip =>
    cases ip with
    | false => exact s.transform_eq_guarded _
    | true => exact s.transformInPlace_eq_guarded _

variable {s} in
theorem exec_of_passed {i : Instr} (h : firstFailure (preChecks s i) = none) : exec i s = s.unguarded i := by
  rw [exec_eq_guarded, guarded_of_none h]

end

end Sys2Proof.Machine
end

section
/-! PROOF. Proofs/Streams.lean: one completion of each stream command by arithmetic: opens, width changes, pushes, the
flush and shifts (41_bitstream.md R123 to R132). -/

namespace Sys2Proof.Machine

open Sys2Proof.Claims

/-! ### Opens and width changes (R123, R125, R130, R131) -/

section

variable {s : State} {n : BitVec 5}

theorem exec_bswOpen (hn : n.toNat ≤ 16)
    (hregion : s.latch.dstAddr.toNat + s.latch.dstCap.toNat ≤ s.params.dmemSize) :
    exec (.bswOpen n) s = s.unguarded (.bswOpen n) :=
  exec_of_passed (by simp [preChecks, checks, check, firstFailure, badDest, hn.not_gt, hregion.not_gt])

theorem exec_bsrOpen (hn : n.toNat ≤ 16)
    (hregion : s.latch.srcAddr.toNat + s.latch.srcLen.toNat ≤ s.params.dmemSize) :
    exec (.bsrOpen n) s = s.unguarded (.bsrOpen n) :=
  exec_of_passed (by simp [preChecks, checks, check, firstFailure, badSource, hn.not_gt, hregion.not_gt])

theorem exec_bswSetw (h1 : 1 ≤ n.toNat) (h16 : n.toNat ≤ 16) (hopen : s.writer.isOpen = true) :
    exec (.bswSetw n) s = .next (State.complete { s with writer := { s.writer with width := n } }) :=
  exec_of_passed (by simp [preChecks, checks, check, firstFailure, hopen, h16, Nat.ne_of_gt h1])

theorem exec_bsrSetw (h1 : 1 ≤ n.toNat) (h16 : n.toNat ≤ 16) (hopen : s.reader.isOpen = true) :
    exec (.bsrSetw n) s = .next (State.complete { s with reader := { s.reader with width := n } }) :=
  exec_of_passed (by simp [preChecks, checks, check, firstFailure, hopen, h16, Nat.ne_of_gt h1])

end

/-! ### The loop of BSW_PUSH as arithmetic (R126) -/

/-- The completed bytes and the partial byte are one number: the partial byte before, and the code above it. -/
theorem pushLoop_value {code B k i acc : Nat} (hacc : acc < 2 ^ ((B + i) % 8)) :
    leValue (pushLoop code B k i acc).1 + 256 ^ (pushLoop code B k i acc).1.length * (pushLoop code B k i acc).2 =
        acc + code / 2 ^ i % 2 ^ k * 2 ^ ((B + i) % 8) ∧
      (pushLoop code B k i acc).2 < 2 ^ ((B + i + k) % 8) := by
  induction k generalizing i acc with
  | zero => simpa [pushLoop, leValue, Nat.mod_one] using hacc
  | succ k ih =>
    have hcode : code / 2 ^ i % 2 ^ (k + 1) = (code.testBit i).toNat + 2 * (code / 2 ^ (i + 1) % 2 ^ k) := by
      rw [Nat.pow_succ', Nat.mod_mul, Nat.div_div_eq_div_mul, ← Nat.pow_succ, Nat.toNat_testBit]
    have hbit := Nat.mul_le_mul_right (2 ^ ((B + i) % 8)) (code.testBit i).toNat_le
    rw [pushLoop]
    dsimp only
    split
    case isTrue hfull =>
      have hstart : (B + (i + 1)) % 8 = 0 := by omega
      obtain ⟨hvalue, hrest⟩ := ih (i := i + 1) (acc := 0) (Nat.two_pow_pos _)
      rw [hstart, Nat.pow_zero, Nat.mul_one, Nat.zero_add] at hvalue
      rw [hfull] at hacc hbit ⊢
      have hbyte : (BitVec.ofNat 8 (acc + (code.testBit i).toNat * 2 ^ 7)).toNat =
          acc + (code.testBit i).toNat * 2 ^ 7 := by
        rw [BitVec.toNat_ofNat, Nat.mod_eq_of_lt (by omega)]
      refine ⟨?_, by rwa [show B + i + (k + 1) = B + (i + 1) + k by omega]⟩
      rw [leValue, hbyte, List.length_cons, hcode, Nat.pow_succ', ← hvalue]
      ring
    case isFalse hpart =>
      have hstart : (B + (i + 1)) % 8 = (B + i) % 8 + 1 := by omega
      have hacc' : acc + (code.testBit i).toNat * 2 ^ ((B + i) % 8) < 2 ^ ((B + (i + 1)) % 8) := by
        rw [hstart, Nat.pow_succ]; omega
      obtain ⟨hvalue, hrest⟩ := ih (i := i + 1) hacc'
      refine ⟨?_, by rwa [show B + i + (k + 1) = B + (i + 1) + k by omega]⟩
      rw [hvalue, hcode, hstart, Nat.pow_succ]
      ring

/-- Bytes and a rest that make up a number are its low bytes and what is above them. -/
theorem leBytes_of_value {bs : List Byte} {r v : Nat} (h : leValue bs + 256 ^ bs.length * r = v) :
    bs = leBytes bs.length v ∧ r = v / 256 ^ bs.length := by
  have hlt := leValue_lt bs
  have hpos : 0 < 256 ^ bs.length := Nat.pow_pos (by decide)
  subst h
  refine ⟨leValue_inj (by simp) ?_, ?_⟩
  · rw [leValue_leBytes, Nat.add_mul_mod_self_left, Nat.mod_eq_of_lt hlt]
  · rw [Nat.add_mul_div_left _ _ hpos, Nat.div_eq_of_lt hlt, Nat.zero_add]

/-- The partial byte and the code BSW_PUSH puts above it, as one number. -/
def State.pushValue (s : State) : Nat :=
  s.writer.acc.toNat + s.latch.data.toNat % 2 ^ s.writer.width.toNat * 2 ^ (s.writer.bits.toNat % 8)

/-- How many bytes BSW_PUSH completes. -/
def State.pushCount (s : State) : Nat :=
  (s.writer.bits.toNat + s.writer.width.toNat) / 8 - s.writer.bits.toNat / 8

section

variable {s : State}

theorem State.pushed_length_eq_pushCount (s : State) : s.pushed.1.length = s.pushCount := by
  rw [State.pushed_length, State.pushCount]
  omega

theorem State.pushed_value (hacc : s.writer.acc.toNat < 2 ^ (s.writer.bits.toNat % 8)) :
    leValue s.pushed.1 + 256 ^ s.pushCount * s.pushed.2 = s.pushValue ∧
      s.pushed.2 < 2 ^ ((s.writer.bits.toNat + s.writer.width.toNat) % 8) := by
  rw [← s.pushed_length_eq_pushCount]
  have h := pushLoop_value (code := s.latch.data.toNat % 2 ^ s.writer.width.toNat) (B := s.writer.bits.toNat)
    (k := s.writer.width.toNat) (i := 0) hacc
  rwa [Nat.pow_zero, Nat.div_one, Nat.mod_mod] at h

theorem State.pushed_eq (hacc : s.writer.acc.toNat < 2 ^ (s.writer.bits.toNat % 8)) :
    s.pushed.1 = leBytes s.pushCount s.pushValue ∧ s.pushed.2 = s.pushValue / 256 ^ s.pushCount := by
  have h := (State.pushed_value hacc).1
  rw [← s.pushed_length_eq_pushCount] at h ⊢
  exact leBytes_of_value h

/-! ### Pushes and the flush (R126, R127) -/

theorem exec_bswPush (hopen : s.writer.isOpen = true)
    (hregion : s.writer.base.toNat + s.writer.cap.toNat ≤ s.params.dmemSize)
    (hroom : s.writer.bits.toNat + s.writer.width.toNat ≤ 8 * s.writer.cap.toNat) :
    exec .bswPush s = .next s.afterPush := by
  have hdmem : s.inDmem (s.writer.base.toNat + s.writer.bits.toNat / 8) s.pushed.1.length = true := by
    rw [State.inDmem, s.pushed_length, decide_eq_true_eq]; omega
  rw [exec_of_passed (by simp [preChecks, checks, check, firstFailure, hopen, hroom]), State.unguarded, hdmem]
  rfl

theorem State.finishTail_length (s : State) :
    s.finishTail.length = if s.writer.bits.toNat % 8 = 0 then 0 else 1 := by
  rw [State.finishTail]
  split <;> rfl

theorem exec_bswFinish (hopen : s.writer.isOpen = true)
    (hregion : s.writer.base.toNat + s.writer.cap.toNat ≤ s.params.dmemSize)
    (hbits : s.writer.bits.toNat ≤ 8 * s.writer.cap.toNat) : exec .bswFinish s = .next s.afterFinish := by
  have hdmem : s.inDmem (s.writer.base.toNat + s.writer.bits.toNat / 8) s.finishTail.length = true := by
    rw [State.inDmem, s.finishTail_length, decide_eq_true_eq]
    split <;> omega
  rw [exec_of_passed (by simp [preChecks, checks, firstFailure, hopen]), State.unguarded, hdmem]
  rfl

theorem State.readByte_afterPush_outside {b : Nat}
    (h : b < s.writer.base.toNat + s.writer.bits.toNat / 8 ∨
      s.writer.base.toNat + s.writer.bits.toNat / 8 + s.pushCount ≤ b) : s.afterPush.readByte b = s.readByte b :=
  State.readByte_writeBytes_outside (by rwa [s.pushed_length_eq_pushCount])

theorem State.readByte_afterPush_inside {j : Nat} (hj : j < s.pushCount) :
    s.afterPush.readByte (s.writer.base.toNat + s.writer.bits.toNat / 8 + j) =
      s.pushed.1[j]'(by rwa [s.pushed_length_eq_pushCount]) := by
  have hread := State.readByte_writeBytes s (s.writer.base.toNat + s.writer.bits.toNat / 8)
    (s.writer.base.toNat + s.writer.bits.toNat / 8 + j) s.pushed.1
  rw [dif_pos (by rw [s.pushed_length_eq_pushCount]; omega)] at hread
  refine Eq.trans hread ?_
  simp only [Nat.add_sub_cancel_left]

theorem State.readByte_afterFinish (s : State) (b : Nat) :
    s.afterFinish.readByte b =
      if b = s.writer.base.toNat + s.writer.bits.toNat / 8 ∧ s.writer.bits.toNat % 8 ≠ 0 then s.writer.acc
      else s.readByte b := by
  have hread := State.readByte_writeBytes s (s.writer.base.toNat + s.writer.bits.toNat / 8) b s.finishTail
  have hlen := s.finishTail_length
  refine Eq.trans hread ?_
  by_cases hpart : s.writer.bits.toNat % 8 = 0
  · rw [if_pos hpart] at hlen
    rw [dif_neg (by omega), if_neg fun h => h.2 hpart]
  · rw [if_neg hpart] at hlen
    by_cases hb : b = s.writer.base.toNat + s.writer.bits.toNat / 8
    · rw [dif_pos (by omega), if_pos ⟨hb, hpart⟩]
      simp [State.finishTail, hpart]
    · rw [dif_neg (by omega), if_neg fun h => hb h.1]

theorem State.toNat_bits_afterPush (hsize : s.params.dmemSize ≤ 2 ^ 28)
    (hregion : s.writer.base.toNat + s.writer.cap.toNat ≤ s.params.dmemSize)
    (hroom : s.writer.bits.toNat + s.writer.width.toNat ≤ 8 * s.writer.cap.toNat) :
    s.afterPush.writer.bits.toNat = s.writer.bits.toNat + s.writer.width.toNat := by
  refine (BitVec.toNat_ofNat ..).trans (Nat.mod_eq_of_lt ?_)
  omega

theorem State.toNat_acc_afterPush (hacc : s.writer.acc.toNat < 2 ^ (s.writer.bits.toNat % 8)) :
    s.afterPush.writer.acc.toNat = s.pushed.2 := by
  refine (BitVec.toNat_ofNat ..).trans (Nat.mod_eq_of_lt ?_)
  have hlt : (s.writer.bits.toNat + s.writer.width.toNat) % 8 < 8 := Nat.mod_lt _ (by decide)
  exact (State.pushed_value hacc).2.trans (Nat.pow_lt_pow_right (by decide) hlt)

theorem State.toNat_resultLen_afterFinish (hsize : s.params.dmemSize ≤ 2 ^ 28) (hok : s.writer.Ok s.params.dmemSize) :
    s.afterFinish.resultLen.toNat = (s.writer.bits.toNat + 7) / 8 := by
  have hregion := hok.region
  have hbits := hok.bits_le
  refine (BitVec.toNat_ofNat ..).trans (Nat.mod_eq_of_lt ?_)
  rw [ceilDiv]
  omega

/-! ### Shifts (R132) -/

/-- The reader's buffer as DMEM holds it (R133). -/
def State.readerBuffer (s : State) : List Byte := s.region s.reader.base.toNat s.reader.len.toNat

theorem State.region_getD (s : State) {a n j : Nat} (hj : j < n) : (s.region a n).getD j 0 = s.readByte (a + j) := by
  rw [List.getD_eq_getElem _ _ (by simpa using hj)]
  simp [State.region]

theorem State.leValue_region (s : State) (a n : Nat) :
    leValue (s.region a n) = ((List.range n).map fun j => (s.readByte (a + j)).toNat * 2 ^ (8 * j)).sum := by
  rw [leValue_eq_sum, State.region_length]
  congr 1
  refine List.map_congr_left fun j hj => ?_
  rw [s.region_getD (List.mem_range.mp hj)]

/-- The state BSR_SHIFT leaves when the buffer holds another code. -/
def State.afterShift (s : State) : State :=
  State.complete
    { s with
      data := BitVec.ofNat 32 (leValue s.readerBuffer / 2 ^ s.reader.pos.toNat % 2 ^ s.reader.width.toNat)
      reader := { s.reader with pos := BitVec.ofNat 32 (s.reader.pos.toNat + s.reader.width.toNat) }
      status := { s.status with eos := false } }

theorem State.readBits_readerBuffer
    (hmore : s.reader.pos.toNat + s.reader.width.toNat ≤ 8 * s.reader.len.toNat) :
    readBits (fun j => s.readByte (s.reader.base.toNat + j)) s.reader.pos.toNat s.reader.width.toNat =
      leValue s.readerBuffer / 2 ^ s.reader.pos.toNat % 2 ^ s.reader.width.toNat := by
  rw [← readBits_eq]
  exact readBits_congr (fun j hj => (s.region_getD hj).symm) hmore

theorem exec_bsrShift (hopen : s.reader.isOpen = true)
    (hregion : s.reader.base.toNat + s.reader.len.toNat ≤ s.params.dmemSize)
    (hmore : s.reader.pos.toNat + s.reader.width.toNat ≤ 8 * s.reader.len.toNat) :
    exec .bsrShift s = .next s.afterShift := by
  have hdmem : s.inDmem s.reader.base.toNat (ceilDiv (s.reader.pos.toNat + s.reader.width.toNat) 8) = true := by
    rw [State.inDmem, ceilDiv, decide_eq_true_eq]; omega
  rw [exec_of_passed (by simp [preChecks, checks, firstFailure, hopen]), State.unguarded,
    if_neg (Nat.not_lt_of_le hmore), hdmem, State.afterRead, State.readBits_readerBuffer hmore]
  rfl

theorem exec_bsrShift_exhausted (hopen : s.reader.isOpen = true)
    (hend : 8 * s.reader.len.toNat < s.reader.pos.toNat + s.reader.width.toNat) :
    exec .bsrShift s =
      .next (State.complete { s with data := Config.exhausted, status := { s.status with eos := true } }) := by
  rw [exec_of_passed (by simp [preChecks, checks, firstFailure, hopen]), State.unguarded, if_pos hend]

theorem State.toNat_data_afterShift (hok : s.reader.Ok s.params.dmemSize) :
    s.afterShift.data.toNat = leValue s.readerBuffer / 2 ^ s.reader.pos.toNat % 2 ^ s.reader.width.toNat := by
  refine (BitVec.toNat_ofNat ..).trans (Nat.mod_eq_of_lt ?_)
  calc leValue s.readerBuffer / 2 ^ s.reader.pos.toNat % 2 ^ s.reader.width.toNat
      < 2 ^ s.reader.width.toNat := Nat.mod_lt _ (Nat.two_pow_pos _)
    _ ≤ 2 ^ 16 := Nat.pow_le_pow_right Nat.two_pos hok.width_le
    _ < 2 ^ 32 := by decide

theorem State.toNat_pos_afterShift (hsize : s.params.dmemSize ≤ 2 ^ 28)
    (hregion : s.reader.base.toNat + s.reader.len.toNat ≤ s.params.dmemSize)
    (hmore : s.reader.pos.toNat + s.reader.width.toNat ≤ 8 * s.reader.len.toNat) :
    s.afterShift.reader.pos.toNat = s.reader.pos.toNat + s.reader.width.toNat := by
  refine (BitVec.toNat_ofNat ..).trans (Nat.mod_eq_of_lt ?_)
  omega

end

end Sys2Proof.Machine

namespace Sys2Proof.Proofs

open Sys2Proof Sys2Proof.Machine Sys2Proof.Claims

/-- Settles O31: the width NBITS names is in range, and the region was checked. -/
theorem opensStartAFreshStream : Obligations.OpensStartAFreshStream :=
  fun _ _ hn => ⟨fun hdst => exec_bswOpen hn hdst, fun hsrc => exec_bsrOpen hn hsrc⟩

/-- Settles O32: a legal width of an open stream is taken as it is. -/
theorem setWidthChangesOnlyTheWidth : Obligations.SetWidthChangesOnlyTheWidth :=
  fun _ _ h1 h16 => ⟨exec_bswSetw h1 h16, exec_bsrSetw h1 h16⟩

/-- Settles O33: the loop's bytes and rest are the digits of partial byte and code to base 256. -/
theorem pushAppendsTheCode : Obligations.PushAppendsTheCode := by
  intro s hsize hok hopen hroom
  obtain ⟨hbytes, hrest⟩ := State.pushed_eq hok.acc_lt
  refine ⟨s.afterPush, exec_bswPush hopen hok.region hroom, rfl, State.toNat_bits_afterPush hsize hok.region hroom,
    (State.toNat_acc_afterPush hok.acc_lt).trans hrest, fun j hj => ?_, fun b => State.readByte_afterPush_outside⟩
  have hj' : j < s.pushCount := hj
  have hbyte : s.pushed.1[j]'(by rwa [s.pushed_length_eq_pushCount]) = BitVec.ofNat 8 (s.pushValue / 256 ^ j) := by
    simp only [hbytes, leBytes_getElem _ _ hj']
  exact (congrArg BitVec.toNat ((State.readByte_afterPush_inside hj').trans hbyte)).trans (BitVec.toNat_ofNat ..)

/-- Settles O34: the flush writes the partial byte, if there is one. -/
theorem finishFlushesThePartialByte : Obligations.FinishFlushesThePartialByte := fun s hsize hok hopen =>
  ⟨s.afterFinish, exec_bswFinish hopen hok.region hok.bits_le, rfl, State.toNat_resultLen_afterFinish hsize hok,
    s.readByte_afterFinish⟩

/-- Settles O35: the code is cut out of the buffer's number. -/
theorem shiftExtractsTheNextCode : Obligations.ShiftExtractsTheNextCode := by
  refine fun s hsize hok hopen => ⟨fun hmore => ?_, exec_bsrShift_exhausted hopen⟩
  refine ⟨s.afterShift, exec_bsrShift hopen hok.region hmore, rfl, ?_, State.toNat_pos_afterShift hsize hok.region hmore⟩
  rw [← s.leValue_region]
  exact State.toNat_data_afterShift hok

end Sys2Proof.Proofs
end

section
/-! PROOF. Proofs/StreamSequences.lean: what a writer holds as one number, which each push extends; and a reader over packed
codes, whose rest is divided down by each shift (41_bitstream.md R126 to R128, R132, R135). -/

namespace Sys2Proof.Machine

open Sys2Proof.Claims

/-! ### Regions -/

theorem State.region_add (s : State) (a m n : Nat) : s.region a (m + n) = s.region a m ++ s.region (a + m) n := by
  simp [State.region, List.range_add, List.map_map, Function.comp_def, Nat.add_assoc]

/-- A region that holds given bytes. -/
theorem State.region_eq {s : State} {a : Nat} {bs : List Byte}
    (h : ∀ j (hj : j < bs.length), s.readByte (a + j) = bs[j]) : s.region a bs.length = bs :=
  List.ext_getElem (by simp) fun j hj hj' => by simpa [State.region] using h j hj'

/-! ### What a writer holds (R126) -/

/-- The bits pushed so far as one number: the complete bytes in DMEM and the partial byte above them. -/
def State.streamValue (s : State) : Nat :=
  leValue (s.region s.writer.base.toNat (s.writer.bits.toNat / 8)) +
    256 ^ (s.writer.bits.toNat / 8) * s.writer.acc.toNat

/-- The writer can be pushed to: open, consistent, on a DMEM of a legal size. -/
structure State.WriterReady (s : State) : Prop where
  size : s.params.dmemSize ≤ 2 ^ 28
  ok : s.writer.Ok s.params.dmemSize
  isOpen : s.writer.isOpen = true

/-- The state after BSW_SETW of a width, with the next code as the latched DATA. -/
def State.loaded (s : State) (c : Word) (w : BitVec 5) : State :=
  { State.complete { s with writer := { s.writer with width := w } } with latch := { s.latch with data := c } }

section

variable {s : State}

theorem State.WriterReady.loaded (h : s.WriterReady) (c : Word) {w : BitVec 5} (h1 : 1 ≤ w.toNat) (h16 : w.toNat ≤ 16) :
    (s.loaded c w).WriterReady :=
  ⟨h.size, { h.ok with width_pos := h1, width_le := h16 }, h.isOpen⟩

theorem State.WriterReady.afterPush (h : s.WriterReady)
    (hroom : s.writer.bits.toNat + s.writer.width.toNat ≤ 8 * s.writer.cap.toNat) : s.afterPush.WriterReady := by
  have hbits := State.toNat_bits_afterPush h.size h.ok.region hroom
  refine ⟨h.size, ⟨h.ok.width_pos, h.ok.width_le, h.ok.region, ?_, ?_⟩, h.isOpen⟩
  · rw [hbits]; exact hroom
  · rw [hbits, State.toNat_acc_afterPush h.ok.acc_lt]
    exact (State.pushed_value h.ok.acc_lt).2

/-- A push puts the code above the bits pushed so far. -/
theorem State.streamValue_afterPush (h : s.WriterReady)
    (hroom : s.writer.bits.toNat + s.writer.width.toNat ≤ 8 * s.writer.cap.toNat) :
    s.afterPush.streamValue =
      s.streamValue + 2 ^ s.writer.bits.toNat * (s.latch.data.toNat % 2 ^ s.writer.width.toNat) := by
  have hcount : (s.writer.bits.toNat + s.writer.width.toNat) / 8 = s.writer.bits.toNat / 8 + s.pushCount := by
    rw [State.pushCount]; omega
  have hold : s.afterPush.region s.writer.base.toNat (s.writer.bits.toNat / 8) =
      s.region s.writer.base.toNat (s.writer.bits.toNat / 8) :=
    State.region_congr fun b _ hb => State.readByte_afterPush_outside (.inl hb)
  have hnew : s.afterPush.region (s.writer.base.toNat + s.writer.bits.toNat / 8) s.pushCount = s.pushed.1 := by
    rw [← s.pushed_length_eq_pushCount]
    exact State.region_eq fun j hj => State.readByte_afterPush_inside (by rwa [← s.pushed_length_eq_pushCount])
  have hpow : 2 ^ s.writer.bits.toNat = 256 ^ (s.writer.bits.toNat / 8) * 2 ^ (s.writer.bits.toNat % 8) := by
    rw [show 256 = 2 ^ 8 from rfl, ← Nat.pow_mul, ← Nat.pow_add, Nat.div_add_mod]
  have hvalue := (State.pushed_value h.ok.acc_lt).1
  rw [State.pushValue] at hvalue
  have hbase : s.afterPush.writer.base = s.writer.base := rfl
  rw [State.streamValue, State.toNat_bits_afterPush h.size h.ok.region hroom, hbase, hcount, State.region_add, hold, hnew,
    State.toNat_acc_afterPush h.ok.acc_lt, leValue_append, State.region_length, Nat.pow_add, hpow, State.streamValue]
  calc leValue (s.region s.writer.base.toNat (s.writer.bits.toNat / 8)) +
          256 ^ (s.writer.bits.toNat / 8) * leValue s.pushed.1 +
        256 ^ (s.writer.bits.toNat / 8) * 256 ^ s.pushCount * s.pushed.2
      = leValue (s.region s.writer.base.toNat (s.writer.bits.toNat / 8)) +
          256 ^ (s.writer.bits.toNat / 8) * (leValue s.pushed.1 + 256 ^ s.pushCount * s.pushed.2) := by ring
    _ = _ := by rw [hvalue]; ring

/-- The flush leaves the bits pushed as the bytes of the buffer. -/
theorem State.leValue_region_afterFinish (hok : s.writer.Ok s.params.dmemSize) :
    leValue (s.afterFinish.region s.writer.base.toNat ((s.writer.bits.toNat + 7) / 8)) = s.streamValue := by
  have hold : s.afterFinish.region s.writer.base.toNat (s.writer.bits.toNat / 8) =
      s.region s.writer.base.toNat (s.writer.bits.toNat / 8) :=
    State.region_congr fun b _ hb => by rw [State.readByte_afterFinish, if_neg (by omega)]
  by_cases hpart : s.writer.bits.toNat % 8 = 0
  · have hacc := hok.acc_lt
    rw [hpart, Nat.pow_zero, Nat.lt_one_iff] at hacc
    rw [show (s.writer.bits.toNat + 7) / 8 = s.writer.bits.toNat / 8 by omega, hold, State.streamValue, hacc, Nat.mul_zero,
      Nat.add_zero]
  · have hlast : s.afterFinish.region (s.writer.base.toNat + s.writer.bits.toNat / 8) 1 = [s.writer.acc] :=
      State.region_eq (bs := [s.writer.acc]) fun j hj => by
        obtain rfl : j = 0 := Nat.lt_one_iff.mp hj
        rw [State.readByte_afterFinish, if_pos ⟨rfl, hpart⟩]; rfl
    rw [show (s.writer.bits.toNat + 7) / 8 = s.writer.bits.toNat / 8 + 1 by omega, State.region_add, hold, hlast,
      leValue_append, State.region_length, State.streamValue]
    simp [leValue]

/-! ### Sequences of pushes (R128) -/

@[simp] theorem totalWidth_cons (c : Word) (w : BitVec 5) (rest : List (Word × BitVec 5)) :
    totalWidth ((c, w) :: rest) = w.toNat + totalWidth rest := by
  simp [totalWidth]

theorem pushCodes_cons (h : s.WriterReady) {c : Word} {w : BitVec 5} (rest : List (Word × BitVec 5)) (h1 : 1 ≤ w.toNat)
    (h16 : w.toNat ≤ 16) (hroom : s.writer.bits.toNat + w.toNat ≤ 8 * s.writer.cap.toNat) :
    pushCodes ((c, w) :: rest) s = pushCodes rest (s.loaded c w).afterPush := by
  have hpush : exec .bswPush (s.loaded c w) = .next (s.loaded c w).afterPush :=
    exec_bswPush h.isOpen h.ok.region hroom
  rw [pushCodes, exec_bswSetw h1 h16 h.isOpen]
  exact (congrArg (fun o : StepOutcome => match o with | .next s2 => pushCodes rest s2 | _ => none) hpush)

/-- `PushedTo codes s t`: the pushes of the codes take the writer from `s` to `t`. -/
structure State.PushedTo (codes : List (Word × BitVec 5)) (s t : State) : Prop where
  ready : t.WriterReady
  base : t.writer.base = s.writer.base
  bits : t.writer.bits.toNat = s.writer.bits.toNat + totalWidth codes
  value : t.streamValue = s.streamValue + 2 ^ s.writer.bits.toNat * packedValue codes
  frame : ∀ a : Nat, (a < s.writer.base.toNat + s.writer.bits.toNat / 8 ∨
    s.writer.base.toNat + (s.writer.bits.toNat + totalWidth codes) / 8 ≤ a) → t.readByte a = s.readByte a

/-- Pushes that fit the buffer complete and append their codes. -/
theorem pushCodes_pushedTo (h : s.WriterReady) {codes : List (Word × BitVec 5)}
    (hw : ∀ c ∈ codes, 1 ≤ c.2.toNat ∧ c.2.toNat ≤ 16)
    (hroom : s.writer.bits.toNat + totalWidth codes ≤ 8 * s.writer.cap.toNat) :
    ∃ t, pushCodes codes s = some t ∧ s.PushedTo codes t := by
  induction codes generalizing s with
  | nil => exact ⟨s, rfl, h, rfl, rfl, by simp [packedValue], fun _ _ => rfl⟩
  | cons c rest ih =>
    obtain ⟨c, w⟩ := c
    obtain ⟨⟨h1, h16⟩, hrest⟩ := List.forall_mem_cons.mp hw
    rw [totalWidth_cons] at hroom
    have hload := h.loaded c h1 h16
    have hfit : (s.loaded c w).writer.bits.toNat + (s.loaded c w).writer.width.toNat ≤
        8 * (s.loaded c w).writer.cap.toNat := by
      show s.writer.bits.toNat + w.toNat ≤ 8 * s.writer.cap.toNat
      omega
    have hbits : (s.loaded c w).afterPush.writer.bits.toNat = s.writer.bits.toNat + w.toNat :=
      State.toNat_bits_afterPush hload.size hload.ok.region hfit
    have hvalue : (s.loaded c w).afterPush.streamValue =
        s.streamValue + 2 ^ s.writer.bits.toNat * (c.toNat % 2 ^ w.toNat) := State.streamValue_afterPush hload hfit
    have hcap : (s.loaded c w).afterPush.writer.cap = s.writer.cap := rfl
    have hbase : (s.loaded c w).afterPush.writer.base = s.writer.base := rfl
    obtain ⟨t, ht, hready, htbase, htbits, htvalue, hframe⟩ :=
      ih (hload.afterPush hfit) hrest (by rw [hbits, hcap]; omega)
    rw [hbits] at htbits htvalue hframe
    rw [hbase] at hframe
    refine ⟨t, (pushCodes_cons h rest h1 h16 hfit).trans ht, hready, htbase, ?_, ?_, fun a ha => ?_⟩
    · rw [htbits, totalWidth_cons, Nat.add_assoc]
    · rw [htvalue, hvalue, packedValue, Nat.pow_add]; ring
    · rw [totalWidth_cons] at ha
      have hpush : (s.loaded c w).afterPush.readByte a = (s.loaded c w).readByte a := by
        refine State.readByte_afterPush_outside ?_
        show a < s.writer.base.toNat + s.writer.bits.toNat / 8 ∨
          s.writer.base.toNat + s.writer.bits.toNat / 8 +
            ((s.writer.bits.toNat + w.toNat) / 8 - s.writer.bits.toNat / 8) ≤ a
        omega
      rw [hframe a (by omega), hpush]
      rfl

/-! ### Sequences of shifts (R132, R135) -/

/-- The reader can be shifted: open, consistent, on a DMEM of a legal size. -/
structure State.ReaderReady (s : State) : Prop where
  size : s.params.dmemSize ≤ 2 ^ 28
  ok : s.reader.Ok s.params.dmemSize
  isOpen : s.reader.isOpen = true

/-- The state after BSR_SETW of a width. -/
def State.widened (s : State) (w : BitVec 5) : State :=
  State.complete { s with reader := { s.reader with width := w } }

theorem State.ReaderReady.widened (h : s.ReaderReady) {w : BitVec 5} (h1 : 1 ≤ w.toNat) (h16 : w.toNat ≤ 16) :
    (s.widened w).ReaderReady :=
  ⟨h.size, { h.ok with width_pos := h1, width_le := h16 }, h.isOpen⟩

theorem State.ReaderReady.afterShift (h : s.ReaderReady)
    (hmore : s.reader.pos.toNat + s.reader.width.toNat ≤ 8 * s.reader.len.toNat) : s.afterShift.ReaderReady := by
  refine ⟨h.size, { h.ok with pos_le := ?_ }, h.isOpen⟩
  rw [State.toNat_pos_afterShift h.size h.ok.region hmore]
  exact hmore

theorem shiftCodes_cons (h : s.ReaderReady) {w : BitVec 5} (rest : List (BitVec 5)) (h1 : 1 ≤ w.toNat)
    (h16 : w.toNat ≤ 16) (hmore : s.reader.pos.toNat + w.toNat ≤ 8 * s.reader.len.toNat) :
    shiftCodes (w :: rest) s =
      (shiftCodes rest (s.widened w).afterShift).map fun r => (((s.widened w).afterShift.data, false) :: r.1, r.2) := by
  have hshift : exec .bsrShift (s.widened w) = .next (s.widened w).afterShift :=
    exec_bsrShift h.isOpen h.ok.region hmore
  rw [shiftCodes, exec_bsrSetw h1 h16 h.isOpen]
  dsimp only
  rw [← State.widened, hshift]
  rfl

theorem packedValue_div_mod {c : Word} {w : BitVec 5} (rest : List (Word × BitVec 5)) (hc : c.toNat < 2 ^ w.toNat) :
    packedValue ((c, w) :: rest) % 2 ^ w.toNat = c.toNat ∧
      packedValue ((c, w) :: rest) / 2 ^ w.toNat = packedValue rest := by
  rw [packedValue, Nat.mod_eq_of_lt hc]
  exact ⟨by rw [Nat.add_mul_mod_self_left, Nat.mod_eq_of_lt hc],
    by rw [Nat.add_mul_div_left _ _ (Nat.two_pow_pos _), Nat.div_eq_of_lt hc, Nat.zero_add]⟩

/-- Shifts return the codes that the buffer holds from the cursor on. -/
theorem shiftCodes_eq (h : s.ReaderReady) {codes : List (Word × BitVec 5)}
    (hw : ∀ c ∈ codes, 1 ≤ c.2.toNat ∧ c.2.toNat ≤ 16 ∧ c.1.toNat < 2 ^ c.2.toNat)
    (hmore : s.reader.pos.toNat + totalWidth codes ≤ 8 * s.reader.len.toNat)
    (hvalue : leValue s.readerBuffer / 2 ^ s.reader.pos.toNat = packedValue codes) :
    ∃ t : State, shiftCodes (codes.map Prod.snd) s = some (codes.map fun c => (c.1, false), t) ∧
      t.reader.pos.toNat = s.reader.pos.toNat + totalWidth codes := by
  induction codes generalizing s with
  | nil => exact ⟨s, rfl, rfl⟩
  | cons c rest ih =>
    obtain ⟨c, w⟩ := c
    obtain ⟨⟨h1, h16, hc⟩, hrest⟩ := List.forall_mem_cons.mp hw
    obtain ⟨hmod, hdiv⟩ := packedValue_div_mod rest hc
    rw [totalWidth_cons] at hmore
    have hwide := h.widened h1 h16
    have hfit : (s.widened w).reader.pos.toNat + (s.widened w).reader.width.toNat ≤
        8 * (s.widened w).reader.len.toNat := by
      show s.reader.pos.toNat + w.toNat ≤ 8 * s.reader.len.toNat
      omega
    have hpos : (s.widened w).afterShift.reader.pos.toNat = s.reader.pos.toNat + w.toNat :=
      State.toNat_pos_afterShift hwide.size hwide.ok.region hfit
    have hdata : (s.widened w).afterShift.data = c := by
      refine BitVec.eq_of_toNat_eq ((State.toNat_data_afterShift hwide.ok).trans ?_)
      show leValue s.readerBuffer / 2 ^ s.reader.pos.toNat % 2 ^ w.toNat = c.toNat
      rw [hvalue, hmod]
    have hbuffer : (s.widened w).afterShift.readerBuffer = s.readerBuffer := rfl
    have hlen : (s.widened w).afterShift.reader.len = s.reader.len := rfl
    obtain ⟨t, ht, htpos⟩ := ih (hwide.afterShift hfit) hrest (by rw [hpos, hlen]; omega)
      (by rw [hbuffer, hpos, Nat.pow_add, ← Nat.div_div_eq_div_mul, hvalue, hdiv])
    refine ⟨t, ?_, by rw [htpos, hpos, totalWidth_cons, Nat.add_assoc]⟩
    rw [List.map_cons, shiftCodes_cons h _ h1 h16 hfit, ht, hdata]
    rfl

end

end Sys2Proof.Machine

namespace Sys2Proof.Proofs

open Sys2Proof Sys2Proof.Machine Sys2Proof.Claims

/-- Settles O49: each push adds its code above the bits before it, and the flush leaves them as bytes. -/
theorem writerBufferHoldsThePackedCodes : Obligations.WriterBufferHoldsThePackedCodes := by
  intro s codes hsize hok hopen hfresh hw hroom
  have hbits : s.writer.bits.toNat = 0 := by rw [hfresh]; rfl
  have hacc : s.writer.acc.toNat = 0 := by
    have hlt := hok.acc_lt
    rwa [hbits, Nat.zero_mod, Nat.pow_zero, Nat.lt_one_iff] at hlt
  have hempty : s.streamValue = 0 := by rw [State.streamValue, hbits, hacc]; rfl
  obtain ⟨t, ht, hready, hbase, htbits, hvalue, hframe⟩ :=
    pushCodes_pushedTo (s := s) ⟨hsize, hok, hopen⟩ hw (by omega)
  rw [hbits, Nat.zero_add] at htbits hframe
  rw [hempty, hbits, Nat.pow_zero, Nat.one_mul, Nat.zero_add] at hvalue
  have hlen : t.afterFinish.resultLen.toNat = (totalWidth codes + 7) / 8 := by
    rw [State.toNat_resultLen_afterFinish hready.size hready.ok, htbits]
  refine ⟨t, t.afterFinish, ht, exec_bswFinish hready.isOpen hready.ok.region hready.ok.bits_le, hlen, ?_,
    fun a ha => ?_⟩
  · rw [hlen, ← htbits, ← hbase, State.leValue_region_afterFinish hready.ok, hvalue]
  · rw [hlen] at ha
    rw [State.readByte_afterFinish, htbits, hbase, if_neg (by omega), hframe a (by omega)]

/-- Settles O50: each shift takes the lowest code off the number the buffer holds. -/
theorem readerReturnsThePackedCodes : Obligations.ReaderReturnsThePackedCodes := by
  intro s codes hsize hok hopen hstart hw hlen hvalue
  have hpos : s.reader.pos.toNat = 0 := by rw [hstart]; rfl
  obtain ⟨t, ht, htpos⟩ := shiftCodes_eq (s := s) ⟨hsize, hok, hopen⟩ hw (by omega)
    (by rw [hpos, Nat.pow_zero, Nat.div_one]; exact hvalue)
  exact ⟨t, ht, by rw [htpos, hpos, Nat.zero_add]⟩

end Sys2Proof.Proofs
end

section
/-! PROOF. Proofs/CommandResults.lean: the data checks of a transform foretell its result; so every command fails with its
first failure, succeeds without one, and writes its function's output (40_command_cycle.md R107, R108, R111; 60_exceptions.md
R222). -/

namespace Sys2Proof.Machine

open Sys2Proof.Claims

/-! ### The results the data checks speak of -/

theorem readBits_pair (x : List Byte) (h : 2 ≤ x.length) :
    256 ≤ readBits (fun j => x.getD j 0) 0 16 ↔ x[1]? ≠ some 0 := by
  obtain ⟨a, b, rest, rfl⟩ : ∃ a b rest, x = a :: b :: rest := by
    match x, h with
    | a :: b :: rest, _ => exact ⟨a, b, rest, rfl⟩
  have ha := a.isLt
  have hb := b.isLt
  rw [readBits_eq, leValue, leValue, List.getElem?_cons_succ, List.getElem?_cons_zero, ne_eq, Option.some.injEq,
    BitVec.toNat_eq, BitVec.ofNat_eq_ofNat, BitVec.toNat_ofNat, Nat.pow_zero, Nat.div_one, Nat.zero_mod]
  omega

theorem lzwDecF_of_odd {maxBits : Nat} {fx : Bool} {x : List Byte} (h : fx = true ∧ x.length % 2 = 1) :
    lzwDecF maxBits fx x = .err .malformedInput := by
  simp [lzwDecF, h.1, h.2]

/-- Past the check of the length, the first code decides (42_lzw.md R164): only a 16-bit word can hold a code that is no
byte. -/
theorem lzwDecF_of_even {maxBits : Nat} {fx : Bool} {x : List Byte} (h : ¬(fx = true ∧ x.length % 2 = 1)) :
    if fx = true ∧ 2 ≤ x.length ∧ x[1]? ≠ some 0 then lzwDecF maxBits fx x = .err .invalidCode
    else ∃ y, lzwDecF maxBits fx x = .ok y := by
  have hlen : (fx && x.length % 2 != 0) = false := by
    cases fx with
    | false => rfl
    | true => simpa using h
  rw [lzwDecF, hlen]
  cases fx with
  | false =>
    rw [if_neg (by simp)]
    by_cases hshort : 8 * x.length < 0 + 8
    · exact ⟨[], by simp [getCode, hshort]⟩
    · have hbyte : ¬256 ≤ readBits (fun j => x.getD j 0) 0 8 := Nat.not_le_of_lt (readBits_lt ..)
      exact ⟨_, by simp only [getCode, Bool.false_eq_true, if_false, if_neg hshort, if_neg hbyte]; rfl⟩
  | true =>
    by_cases hshort : x.length < 2
    · rw [if_neg (by simp [hshort])]
      exact ⟨[], by simp [getCode, show 8 * x.length < 16 by omega]⟩
    · have hword : ¬8 * x.length < 0 + 16 := by omega
      have hcode := readBits_pair x (Nat.le_of_not_lt hshort)
      simp only [getCode, if_true, if_neg hword, Bool.false_eq_true, if_false, true_and, Nat.le_of_not_lt hshort, ← hcode]
      split
      · rfl
      · exact ⟨_, rfl⟩

theorem rleEncF_eq_ok (x : List Byte) : ∃ y, rleEncF x = .ok y := by
  cases x with
  | nil => exact ⟨_, rfl⟩
  | cons v rest => exact ⟨_, rfl⟩

theorem rleDecF_of_odd {x : List Byte} (h : x.length % 2 = 1) : rleDecF x = .err .malformedInput := by
  simp [rleDecF, h]

theorem rleDecF_of_not_odd {x : List Byte} (h : ¬x.length % 2 = 1) : ∃ y, rleDecF x = .ok y := by
  have heven : x.length % 2 = 0 := by omega
  exact ⟨rleExpand x, by rw [rleDecF, heven]; rfl⟩

theorem bwtFwdF_of_mem {m : Byte} {x : List Byte} (h : m ∈ x) : bwtFwdF m x = .err .markerCollision := by
  simp [bwtFwdF, h]

theorem bwtFwdF_of_not_mem {m : Byte} {x : List Byte} (h : m ∉ x) :
    ∃ y, bwtFwdF m x = .ok y ∧ y.length = x.length + 1 :=
  ⟨_, bwtFwdF_eq h, by simp; omega⟩

theorem bwtUnwind_length (numbers : List Byte) (n i : Nat) (out : List Byte) :
    (bwtUnwind numbers n i out).length = n + out.length := by
  induction n generalizing i out with
  | zero => simp [bwtUnwind]
  | succ n ih => rw [bwtUnwind, ih, List.length_cons]; omega

/-- The only mark of a list is its last byte exactly when it is found at the end. -/
theorem idxOf_eq_pred_length_iff {m : Byte} {x : List Byte} (h : x.count m = 1) :
    x.idxOf m = x.length - 1 ↔ x.getLast? = some m := by
  have hmem : m ∈ x := List.count_pos_iff.mp (by omega)
  have hlt := List.idxOf_lt_length_of_mem hmem
  constructor
  · intro hidx
    rw [List.getLast?_eq_getElem?, ← hidx]
    exact List.getElem?_idxOf hmem
  · intro hlast
    have hsplit := List.dropLast_append_getLast? _ hlast
    have hrest : m ∉ x.dropLast := by
      rw [← hsplit, List.count_append, List.count_singleton_self] at h
      exact List.count_eq_zero.mp (by omega)
    rw [← hsplit, List.idxOf_append_of_notMem hrest]
    simp

/-- The inverse BWT on a list with one mark: malformed when the mark is last after a byte, else one byte shorter. -/
theorem bwtInvF_of_count_one {m : Byte} {x : List Byte} (h : x.count m = 1) :
    if 2 ≤ x.length ∧ x.getLast? = some m then bwtInvF m x = .err .malformedInput
    else ∃ y, bwtInvF m x = .ok y ∧ y.length = x.length - 1 := by
  have hlt : x.idxOf m < x.length := List.idxOf_lt_length_of_mem (List.count_pos_iff.mp (by omega))
  have hlen : (x.take (x.idxOf m) ++ x.drop (x.idxOf m + 1)).length = x.length - 1 := by
    rw [List.length_append, List.length_take, List.length_drop]; omega
  have hlast := idxOf_eq_pred_length_iff h
  split
  case isTrue hend =>
    rw [bwtInvF, if_neg (by omega), if_neg (by omega)]
    dsimp only
    rw [hlen, if_pos ⟨by omega, hlast.mpr hend.2⟩]
  case isFalse hend =>
    rw [bwtInvF, if_neg (by omega), if_neg (by omega)]
    dsimp only
    rw [hlen, if_neg fun h => hend ⟨by omega, hlast.mp h.2⟩]
    exact ⟨_, rfl, bwtUnwind_length ..⟩

/-- The checks foretell the result of a transform with capacity `cap`: its error, an output too long, or no failure. -/
def Foretells (l : List (Bool × BitVec 4)) (cap : Nat) : Result → Prop
  | .err e => firstFailure l = some e.code
  | .ok y => firstFailure l = if cap < y.length then some 12 else none

theorem foretells_ok {cap n : Nat} {y : List Byte} (h : n = y.length) : Foretells [check (cap < n) 12] cap (.ok y) := by
  subst h
  simp [Foretells, firstFailure, check]

theorem foretells_of_ok {cap : Nat} {r : Result} (h : ∃ y, r = .ok y) : Foretells [check (cap < outLength r) 12] cap r := by
  obtain ⟨y, rfl⟩ := h
  exact foretells_ok rfl

/-- A check that does not hold says nothing. -/
theorem Foretells.cons_of_not {p : Prop} [Decidable p] {c : BitVec 4} {l : List (Bool × BitVec 4)} {cap : Nat} {r : Result}
    (hp : ¬p) (h : Foretells l cap r) : Foretells (check p c :: l) cap r := by
  have hfirst : firstFailure (check p c :: l) = firstFailure l := by simp [check, firstFailure, hp]
  cases r with
  | err e => exact hfirst.trans h
  | ok y => exact hfirst.trans h

theorem foretells_err {p : Prop} [Decidable p] (hp : p) (l : List (Bool × BitVec 4)) (cap : Nat) (e : Error) :
    Foretells (check p e.code :: l) cap (.err e) := by
  simp [Foretells, check, firstFailure, hp]

theorem lzwDec_foretold (m cap : Nat) (fx : Bool) (x : List Byte) :
    Foretells
      [check (fx = true ∧ x.length % 2 = 1) 1, check (fx = true ∧ 2 ≤ x.length ∧ x[1]? ≠ some 0) 14,
       check (cap < outLength (lzwDecF m fx x)) 12] cap (lzwDecF m fx x) := by
  by_cases hodd : fx = true ∧ x.length % 2 = 1
  · rw [lzwDecF_of_odd hodd]
    exact foretells_err hodd _ _ .malformedInput
  · refine Foretells.cons_of_not hodd ?_
    have hresult := lzwDecF_of_even (maxBits := m) hodd
    split at hresult
    case isTrue hcode => rw [hresult]; exact foretells_err hcode _ _ .invalidCode
    case isFalse hcode => exact Foretells.cons_of_not hcode (foretells_of_ok hresult)

theorem bwtInv_foretold (m : Byte) (cap : Nat) (x : List Byte) :
    Foretells
      [check (x.count m = 0) 3, check (1 < x.count m) 4, check (2 ≤ x.length ∧ x.getLast? = some m) 1,
       check (cap < x.length - 1) 12] cap (bwtInvF m x) := by
  by_cases hnone : x.count m = 0
  · rw [bwtInvF, if_pos hnone]
    exact foretells_err hnone _ _ .markerNotFound
  refine Foretells.cons_of_not hnone ?_
  by_cases hmany : 1 < x.count m
  · rw [bwtInvF, if_neg hnone, if_pos hmany]
    exact foretells_err hmany _ _ .multipleMarkers
  refine Foretells.cons_of_not hmany ?_
  have hresult := bwtInvF_of_count_one (m := m) (x := x) (by omega)
  split at hresult
  case isTrue hlast => rw [hresult]; exact foretells_err hlast _ _ .malformedInput
  case isFalse hlast =>
    obtain ⟨y, hy, hlen⟩ := hresult
    rw [hy]
    exact Foretells.cons_of_not hlast (foretells_ok hlen.symm)

theorem source_length (s : State) : (source s).length = s.latch.srcLen.toNat := s.region_length _ _

theorem dataChecks_foretell (s : State) {i : Instr} {F : List Byte → Result} (hi : transformOf i = some F) :
    Foretells (dataChecks s i) (outCap s i) (F (source s)) := by
  cases i <;> cases hi
  case lzwEnc n fx => exact foretells_of_ok ⟨_, rfl⟩
  case lzwDec n fx => exact lzwDec_foretold ..
  case rleEnc => exact foretells_of_ok (rleEncF_eq_ok _)
  case rleDec =>
    by_cases hodd : (source s).length % 2 = 1
    · rw [rleDecF_of_odd hodd]
      exact foretells_err hodd _ _ .malformedInput
    · exact Foretells.cons_of_not hodd (foretells_of_ok (rleDecF_of_not_odd hodd))
  case bwtFwd m =>
    by_cases hm : m ∈ source s
    · rw [bwtFwdF_of_mem hm]; exact foretells_err hm _ _ .markerCollision
    · obtain ⟨y, hy, hlen⟩ := bwtFwdF_of_not_mem hm
      rw [hy]
      exact Foretells.cons_of_not hm (foretells_ok hlen.symm)
  case bwtInv m => exact bwtInv_foretold ..
  case mtfEnc ip =>
    have hlen : (mtfEncLoop mtfTable (source s)).length = (source s).length := mtfEncLoop_length ..
    cases ip with
    | false => exact foretells_ok hlen.symm
    | true =>
      refine (if_neg ?_).symm
      rw [hlen, source_length]
      exact lt_irrefl _
  case mtfDec ip =>
    have hlen : (mtfDecLoop mtfTable (source s)).length = (source s).length := mtfDecLoop_length ..
    cases ip with
    | false => exact foretells_ok hlen.symm
    | true =>
      refine (if_neg ?_).symm
      rw [hlen, source_length]
      exact lt_irrefl _

/-! ### Failure (R108, R111) -/

section

variable {s : State} {i : Instr}

/-- The state a transform leaves on success. -/
def State.written (s : State) (base : Nat) (y : List Byte) : State :=
  State.complete { s.writeBytes base y with resultLen := BitVec.ofNat 32 y.length }

theorem State.transformInto_of_fits {F : List Byte → Result} {y : List Byte} {base cap : Nat} (hy : F (source s) = .ok y)
    (hfits : y.length ≤ cap) : s.transformInto F base cap = s.written base y := by
  rw [source] at hy
  rw [State.transformInto, hy]
  exact if_neg (Nat.not_lt_of_le hfits)

/-- A foretold failure of the data leaves the output region unspecified. -/
theorem State.transformInto_of_firstFailure {F : List Byte → Result} {l : List (Bool × BitVec 4)} {base cap : Nat}
    {c : BitVec 4} (hl : Foretells l cap (F (source s))) (hc : firstFailure l = some c) :
    s.transformInto F base cap = failed c (s.unspecify base cap) := by
  obtain ⟨e, hy, heq⟩ | ⟨y, hy, hlong, heq⟩ | ⟨y, hy, hfits, -⟩ := s.transformInto_cases F base cap
  · rw [source, hy, Foretells, hc, Option.some.injEq] at hl
    rw [heq, hl]; rfl
  · rw [source, hy, Foretells, if_pos hlong, hc, Option.some.injEq] at hl
    rw [heq, hl]; rfl
  · rw [source, hy, Foretells, if_neg (Nat.not_lt_of_le hfits), hc] at hl
    cases hl

/-- Without a foretold failure the function gives an output that fits. -/
theorem Foretells.fits {l : List (Bool × BitVec 4)} {cap : Nat} {r : Result} (hl : Foretells l cap r)
    (hnone : firstFailure l = none) : ∃ y, r = .ok y ∧ y.length ≤ cap := by
  cases r with
  | err e => rw [Foretells, hnone] at hl; cases hl
  | ok y =>
    refine ⟨y, rfl, Nat.le_of_not_lt fun hlong => ?_⟩
    rw [Foretells, hnone, if_pos hlong] at hl
    cases hl

theorem preChecks_codes (hi : transformOf i ≠ none) : ∀ p ∈ preChecks s i, p.2 ∈ [9, 10, 11] := by
  cases i with
  | mtfEnc ip | mtfDec ip => cases ip <;> simp [preChecks, regionChecks]
  | lzwEnc | lzwDec | rleEnc | rleDec | bwtFwd | bwtInv => simp [preChecks, regionChecks, check]
  | _ => exact absurd rfl hi

theorem dataChecks_codes (s : State) (i : Instr) : ∀ p ∈ dataChecks s i, p.2 ∈ [1, 2, 3, 4, 12, 14] := by
  cases i with
  | mtfEnc ip | mtfDec ip => cases ip <;> simp [dataChecks, check]
  | _ => simp [dataChecks, check]

theorem dataChecks_eq_nil (hi : transformOf i = none) : dataChecks s i = [] := by
  cases i with
  | lzwEnc | lzwDec | rleEnc | rleDec | bwtFwd | bwtInv | mtfEnc | mtfDec => cases hi
  | _ => rfl

/-- A command with a failing check fails with the first one: before any output with nothing else changed, on its data or
its output's length with the output region unspecified. -/
theorem exec_of_firstFailure {c : BitVec 4} (h : firstFailure (checks s i) = some c) :
    (exec i s = .next (failed c s) ∧ (transformOf i = none ∨ c ∈ [9, 10, 11])) ∨
      (exec i s = .next (failed c (s.unspecify (outBase s i) (outCap s i))) ∧ transformOf i ≠ none ∧
        c ∈ [1, 2, 3, 4, 12, 14]) := by
  rw [checks_eq_append, firstFailure_append] at h
  cases hpre : firstFailure (preChecks s i) with
  | some c' =>
    rw [hpre, Option.some_or, Option.some.injEq] at h
    subst h
    refine .inl ⟨by rw [exec_eq_guarded, guarded_of_some hpre], ?_⟩
    exact or_iff_not_imp_left.mpr fun hi => preChecks_codes hi _ (mem_of_firstFailure hpre)
  | none =>
    rw [hpre, Option.none_or] at h
    cases hi : transformOf i with
    | none => rw [dataChecks_eq_nil hi] at h; cases h
    | some F =>
      refine .inr ⟨?_, by simp, dataChecks_codes s i _ (mem_of_firstFailure h)⟩
      rw [exec_of_passed hpre, s.unguarded_transform hi,
        State.transformInto_of_firstFailure (dataChecks_foretell s hi) h]

/-! ### Success (R104, R107) -/

/-- A completion without an error: DONE, no code, not busy, ERR and CMD_LOST as they were. -/
structure Succeeds (s t : State) : Prop where
  done : t.status.done = true
  errCode : t.status.errCode = 0
  busy : t.status.busy = false
  err : t.status.err = s.status.err
  cmdLost : t.status.cmdLost = s.status.cmdLost

theorem succeeds_complete {u : State} (herr : u.status.err = s.status.err) (hlost : u.status.cmdLost = s.status.cmdLost) :
    Succeeds s u.complete :=
  ⟨rfl, rfl, rfl, herr, hlost⟩

/-- A transform whose checks pass writes its function's output. -/
theorem exec_transform_of_noFailure {F : List Byte → Result} (hi : transformOf i = some F)
    (h : firstFailure (checks s i) = none) :
    ∃ y, F (source s) = .ok y ∧ y.length ≤ outCap s i ∧ exec i s = .next (s.written (outBase s i) y) := by
  rw [checks_eq_append, firstFailure_append, Option.or_eq_none_iff] at h
  obtain ⟨y, hy, hfits⟩ := (dataChecks_foretell s hi).fits h.2
  exact ⟨y, hy, hfits, by
    rw [exec_of_passed h.1, s.unguarded_transform hi, State.transformInto_of_fits hy hfits]⟩

/-- The work of a command that is no transform succeeds, or would reach outside DMEM. -/
theorem State.unguarded_succeeds_or_faults (hi : transformOf i = none) :
    (∃ t, s.unguarded i = .next t ∧ Succeeds s t) ∨ s.unguarded i = .fault .engineOutsideDmem := by
  cases i with
  | bswPush =>
    rw [State.unguarded]
    split
    · exact .inr rfl
    · exact .inl ⟨_, rfl, succeeds_complete rfl rfl⟩
  | bswFinish =>
    rw [State.unguarded]
    split
    · exact .inr rfl
    · exact .inl ⟨_, rfl, succeeds_complete rfl rfl⟩
  | bsrShift =>
    rw [State.unguarded]
    split
    · exact .inl ⟨_, rfl, succeeds_complete rfl rfl⟩
    · split
      · exact .inr rfl
      · exact .inl ⟨_, rfl, succeeds_complete rfl rfl⟩
  | nop | bswOpen | bswSetw | bsrOpen | bsrSetw => exact .inl ⟨_, rfl, succeeds_complete rfl rfl⟩
  | lzwEnc | lzwDec | rleEnc | rleDec | bwtFwd | bwtInv | mtfEnc | mtfDec => cases hi

/-- A command without a failing check succeeds, or would reach outside DMEM. -/
theorem exec_of_noFailure (h : firstFailure (checks s i) = none) :
    (∃ t, exec i s = .next t ∧ Succeeds s t) ∨ exec i s = .fault .engineOutsideDmem := by
  cases hi : transformOf i with
  | some F =>
    obtain ⟨y, -, -, hexec⟩ := exec_transform_of_noFailure hi h
    exact .inl ⟨_, hexec, succeeds_complete rfl rfl⟩
  | none =>
    rw [checks_eq_append, firstFailure_append, Option.or_eq_none_iff] at h
    rw [exec_of_passed h.1]
    exact State.unguarded_succeeds_or_faults hi

/-- With streams whose buffers lie in DMEM no command reaches outside it (20_memory.md R64). -/
theorem exec_ne_fault (hw : s.writer.Ok s.params.dmemSize) (hr : s.reader.Ok s.params.dmemSize)
    (h : firstFailure (checks s i) = none) : exec i s ≠ .fault .engineOutsideDmem := by
  have hpass := firstFailure_eq_none_iff.mp h
  cases i with
  | bswPush =>
    simp only [checks, check, List.forall_mem_cons, Bool.not_eq_false', decide_eq_false_iff_not, not_lt] at hpass
    obtain ⟨hopen, hroom, -⟩ := hpass
    simp [exec_bswPush hopen hw.region hroom]
  | bswFinish =>
    simp only [checks, List.forall_mem_cons, Bool.not_eq_false'] at hpass
    simp [exec_bswFinish hpass.1 hw.region hw.bits_le]
  | bsrShift =>
    simp only [checks, List.forall_mem_cons, Bool.not_eq_false'] at hpass
    rcases Nat.lt_or_ge (8 * s.reader.len.toNat) (s.reader.pos.toNat + s.reader.width.toNat) with hend | hmore
    · simp [exec_bsrShift_exhausted hpass.1 hend]
    · simp [exec_bsrShift hpass.1 hr.region hmore]
  | nop | bswOpen | bswSetw | bsrOpen | bsrSetw =>
    rw [checks_eq_append, firstFailure_append, Option.or_eq_none_iff] at h
    simp [exec_of_passed h.1, State.unguarded]
  | lzwEnc | lzwDec | rleEnc | rleDec | bwtFwd | bwtInv | mtfEnc | mtfDec =>
    obtain ⟨y, -, -, hexec⟩ := exec_transform_of_noFailure rfl h
    simp [hexec]

theorem exec_succeeds (hw : s.writer.Ok s.params.dmemSize) (hr : s.reader.Ok s.params.dmemSize)
    (h : firstFailure (checks s i) = none) : ∃ t, exec i s = .next t ∧ Succeeds s t :=
  (exec_of_noFailure h).resolve_right (exec_ne_fault hw hr h)

/-! ### The codes of a command (R222) -/

theorem codes_of_failing_checks (s : State) (i : Instr) : ∀ p ∈ checks s i, p.1 = true → p.2 ∈ codesOf i := by
  cases i with
  | lzwDec n fx => cases fx <;> simp [checks, check, regionChecks, codesOf]
  | mtfEnc ip | mtfDec ip => cases ip <;> simp [checks, check, regionChecks, codesOf]
  | _ => simp [checks, check, regionChecks, codesOf]

end

/-! ### Operand registers (10_state.md R36, 70_reset_and_hazards.md R260) -/

/-- The operand registers changed, each as given. -/
def State.withRegs (fa fl fd fc fv : Word → Word) (s : State) : State :=
  { s with srcAddr := fa s.srcAddr, srcLen := fl s.srcLen, dstAddr := fd s.dstAddr, dstCap := fc s.dstCap,
           data := fv s.data }

section

variable (fa fl fd fc fv : Word → Word) (s : State)

theorem guarded_withRegs (l : List (Bool × BitVec 4)) {o o' : StepOutcome}
    (ho : o' = mapNext (State.withRegs fa fl fd fc fv) o) :
    guarded l (s.withRegs fa fl fd fc fv) o' = mapNext (State.withRegs fa fl fd fc fv) (guarded l s o) := by
  cases h : firstFailure l with
  | some c => rw [guarded_of_some h, guarded_of_some h]; rfl
  | none => rw [guarded_of_none h, guarded_of_none h, ho]

theorem transformInto_withRegs (F : List Byte → Result) (base cap : Nat) :
    (s.withRegs fa fl fd fc fv).transformInto F base cap =
      (s.transformInto F base cap).withRegs fa fl fd fc fv := by
  have hsource : source (s.withRegs fa fl fd fc fv) = source s := rfl
  obtain ⟨e, hy, heq⟩ | ⟨y, hy, hlong, heq⟩ | ⟨y, hy, hfits, heq⟩ := s.transformInto_cases F base cap
  all_goals
    rw [heq, State.transformInto]
    rw [← source] at hy ⊢
    rw [hsource, hy]
  · rfl
  · exact if_pos hlong
  · exact if_neg (Nat.not_lt_of_le hfits)

variable {fv} in
/-- The work of a command commutes with a change of the operand registers, DATA left alone for BSR_SHIFT. -/
theorem unguarded_withRegs {i : Instr} (hv : fv = id ∨ i ≠ .bsrShift) :
    (s.withRegs fa fl fd fc fv).unguarded i = mapNext (State.withRegs fa fl fd fc fv) (s.unguarded i) := by
  cases hi : transformOf i with
  | some F =>
    rw [State.unguarded_transform _ hi, State.unguarded_transform _ hi]
    exact congrArg Host.Outcome.next (transformInto_withRegs ..)
  | none =>
    cases i with
    | bswPush =>
      simp only [State.unguarded, apply_ite (mapNext _)]
      rfl
    | bswFinish =>
      simp only [State.unguarded, apply_ite (mapNext _)]
      rfl
    | bsrShift =>
      obtain rfl : fv = id := hv.resolve_right (not_not_intro rfl)
      simp only [State.unguarded, apply_ite (mapNext _)]
      rfl
    | nop | bswOpen | bswSetw | bsrOpen | bsrSetw => rfl
    | lzwEnc | lzwDec | rleEnc | rleDec | bwtFwd | bwtInv | mtfEnc | mtfDec => cases hi

variable {fv} in
theorem exec_withRegs {i : Instr} (hv : fv = id ∨ i ≠ .bsrShift) :
    exec i (s.withRegs fa fl fd fc fv) = mapNext (State.withRegs fa fl fd fc fv) (exec i s) := by
  have hpre : preChecks (s.withRegs fa fl fd fc fv) i = preChecks s i := by cases i <;> rfl
  rw [exec_eq_guarded, exec_eq_guarded, hpre]
  exact guarded_withRegs fa fl fd fc fv s _ (unguarded_withRegs fa fl fd fc s hv)

end

/-! ### Two memories (40_command_cycle.md R107) -/

section

variable {s : State} {i : Instr}

/-- A byte after a transform's output was written. -/
theorem State.readByte_written (s : State) (base : Nat) (y : List Byte) (a : Nat) :
    (s.written base y).readByte a =
      if h : base ≤ a ∧ a < base + y.length then y[a - base]'(by omega) else s.readByte a :=
  s.readByte_writeBytes base a y

theorem State.readByte_failed_unspecify (s : State) (c : BitVec 4) (base cap a : Nat) :
    (failed c (s.unspecify base cap)).readByte a =
      if base ≤ a ∧ a < base + cap then Config.freeByte s.draws a else s.readByte a :=
  s.readByte_unspecify base cap a

theorem State.toNat_resultLen_written (s : State) (base : Nat) {y : List Byte} (hy : y.length < 2 ^ 32) :
    (s.written base y).resultLen.toNat = y.length :=
  (BitVec.toNat_ofNat ..).trans (Nat.mod_eq_of_lt hy)

theorem outCap_lt (s : State) (i : Instr) : outCap s i < 2 ^ 32 := by
  rw [outCap]
  split
  · exact s.latch.srcLen.isLt
  · exact s.latch.dstCap.isLt

/-- `SameResult s s' i t t'`: from `s` and `s'`, which differ in DMEM, command `i` reached `t` and `t'` with one result. -/
structure SameResult (s s' : State) (i : Instr) (t t' : State) : Prop where
  status : t.status = t'.status
  resultLen : t.resultLen = t'.resultLen
  output : ∀ a : Nat, outBase s i ≤ a → a < outBase s i + t.resultLen.toNat → t.readByte a = t'.readByte a
  region : t.status.errCode ∈ [1, 2, 3, 4, 12, 14] →
    ∀ a : Nat, outBase s i ≤ a → a < outBase s i + outCap s i → t.readByte a = t'.readByte a
  rest : ∀ a : Nat, s.readByte a = s'.readByte a → t.readByte a = t'.readByte a

variable {m : Memory}

theorem sameResult_failed {c : BitVec 4} (hc : c ∈ [9, 10, 11]) :
    SameResult s { s with dmem := m } i (failed c s) (failed c { s with dmem := m }) := by
  refine ⟨rfl, rfl, fun a hle hlt => absurd hlt (Nat.not_lt_of_le hle), fun hdata => ?_, fun _ h => h⟩
  have hboth : ∀ c : BitVec 4, c ∈ [9, 10, 11] → c ∉ [1, 2, 3, 4, 12, 14] := by decide
  exact absurd hdata (hboth c hc)

theorem sameResult_failed_unspecify (c : BitVec 4) :
    SameResult s { s with dmem := m } i (failed c (s.unspecify (outBase s i) (outCap s i)))
      (failed c (State.unspecify { s with dmem := m } (outBase s i) (outCap s i))) := by
  refine ⟨rfl, rfl, fun a hle hlt => absurd hlt (Nat.not_lt_of_le hle), fun _ a hle hlt => ?_, fun a ha => ?_⟩
  · rw [State.readByte_failed_unspecify, State.readByte_failed_unspecify, if_pos ⟨hle, hlt⟩, if_pos ⟨hle, hlt⟩]
  · rw [State.readByte_failed_unspecify, State.readByte_failed_unspecify, ha]

theorem sameResult_written {y : List Byte} (hy : y.length ≤ outCap s i) :
    SameResult s { s with dmem := m } i (s.written (outBase s i) y)
      (State.written { s with dmem := m } (outBase s i) y) := by
  refine ⟨rfl, rfl, fun a hle hlt => ?_, fun hdata => ?_, fun a ha => ?_⟩
  · rw [State.toNat_resultLen_written _ _ (hy.trans_lt (outCap_lt s i))] at hlt
    rw [State.readByte_written, State.readByte_written, dif_pos ⟨hle, hlt⟩, dif_pos ⟨hle, hlt⟩]
  · have hzero : (0 : BitVec 4) ∉ [1, 2, 3, 4, 12, 14] := by decide
    exact absurd hdata hzero
  · rw [State.readByte_written, State.readByte_written, ha]

/-- A transform reads its source only. -/
theorem exec_sameResult {F : List Byte → Result} (hi : transformOf i = some F)
    (hsource : source s = source { s with dmem := m }) :
    ∃ t t', exec i s = .next t ∧ exec i { s with dmem := m } = .next t' ∧ SameResult s { s with dmem := m } i t t' := by
  have hpre : preChecks { s with dmem := m } i = preChecks s i := by cases i <;> rfl
  cases hfirst : firstFailure (preChecks s i) with
  | some c =>
    have hc : c ∈ [9, 10, 11] := preChecks_codes (by simp [hi]) _ (mem_of_firstFailure hfirst)
    refine ⟨_, _, ?_, ?_, sameResult_failed hc⟩
    · rw [exec_eq_guarded, guarded_of_some hfirst]
    · rw [exec_eq_guarded, hpre, guarded_of_some hfirst]
  | none =>
    have hexec : exec i s = .next (s.transformInto F (outBase s i) (outCap s i)) := by
      rw [exec_of_passed hfirst, State.unguarded_transform _ hi]
    have hexec' : exec i { s with dmem := m } =
        .next (State.transformInto { s with dmem := m } F (outBase s i) (outCap s i)) := by
      rw [exec_of_passed (hpre ▸ hfirst), State.unguarded_transform _ hi]; rfl
    refine ⟨_, _, hexec, hexec', ?_⟩
    have hforetold := dataChecks_foretell s hi
    cases hdata : firstFailure (dataChecks s i) with
    | some c =>
      rw [State.transformInto_of_firstFailure hforetold hdata,
        State.transformInto_of_firstFailure (hsource ▸ hforetold) hdata]
      exact sameResult_failed_unspecify c
    | none =>
      obtain ⟨y, hy, hfits⟩ := hforetold.fits hdata
      rw [State.transformInto_of_fits hy hfits, State.transformInto_of_fits (hsource ▸ hy) hfits]
      exact sameResult_written hfits

/-! ### Transforms on valid regions (R105 to R107) -/

theorem preChecks_pass {F : List Byte → Result} (hi : transformOf i = some F) (hwf : i.wellFormed = true)
    (hsrc : badSource s = false) (hdst : isInPlace i = false → badDest s = false ∧ overlap s = false) :
    firstFailure (preChecks s i) = none := by
  cases i with
  | lzwEnc n fx | lzwDec n fx =>
    obtain ⟨hdest, hover⟩ := hdst rfl
    have hn : ¬(n.toNat ≠ 0 ∧ (n.toNat < 9 ∨ 16 < n.toNat)) := by
      simp [Instr.wellFormed, lzwNbitsOk] at hwf
      omega
    simp [preChecks, regionChecks, check, firstFailure, hsrc, hdest, hover, hn]
  | rleEnc | rleDec | bwtFwd | bwtInv =>
    obtain ⟨hdest, hover⟩ := hdst rfl
    simp [preChecks, regionChecks, firstFailure, hsrc, hdest, hover]
  | mtfEnc ip | mtfDec ip =>
    cases ip with
    | true => simp [preChecks, firstFailure, hsrc]
    | false =>
      obtain ⟨hdest, hover⟩ := hdst rfl
      simp [preChecks, regionChecks, firstFailure, hsrc, hdest, hover]
  | _ => cases hi

theorem State.region_written (s : State) (base : Nat) (y : List Byte) : (s.written base y).region base y.length = y :=
  State.region_eq fun j hj => by
    rw [State.readByte_written, dif_pos (by omega)]
    simp only [Nat.add_sub_cancel_left]

end

end Sys2Proof.Machine

namespace Sys2Proof.Proofs

open Sys2Proof Sys2Proof.Machine Sys2Proof.Claims

/-- Settles O24: the checks are made in order, and the data checks foretell what the function answers. -/
theorem commandFailsWithItsFirstFailure : Obligations.CommandFailsWithItsFirstFailure := by
  intro s i c h
  obtain ⟨hexec, hearly⟩ | ⟨hexec, hi, hdata⟩ := exec_of_firstFailure h
  · refine ⟨_, hexec, rfl, fun _ => rfl, fun ⟨hdata, hi⟩ => ?_⟩
    have hboth : ∀ c : BitVec 4, c ∈ [9, 10, 11] → c ∉ [1, 2, 3, 4, 12, 14] := by decide
    exact absurd hdata (hboth c (hearly.resolve_left hi))
  · refine ⟨_, hexec, rfl, fun hearly => ?_, fun _ a => State.readByte_failed_unspecify ..⟩
    have hboth : ∀ c : BitVec 4, c ∈ [1, 2, 3, 4, 12, 14] → c ∉ [8, 9, 10, 11, 13] := by decide
    exact absurd (hearly.resolve_right hi) (hboth c hdata)

/-- Settles O25: the work of a command whose checks pass ends in a completion, and under the invariant inside DMEM. -/
theorem commandSucceedsWhenNoCheckFails : Obligations.CommandSucceedsWhenNoCheckFails := by
  intro s i hinv h
  obtain ⟨t, hexec, hsucc⟩ := exec_succeeds hinv.writer_ok hinv.reader_ok h
  exact ⟨t, hexec, hsucc.done, hsucc.errCode, hsucc.busy, hsucc.err, hsucc.cmdLost⟩

/-- Settles O26: a failure has the code of a check that fails. -/
theorem errorCodesPerCommand : Obligations.ErrorCodesPerCommand := by
  intro s t i herr hexec hfail
  cases h : firstFailure (checks s i) with
  | some c =>
    have hcode : t.status.errCode = c := by
      obtain ⟨hexec', -⟩ | ⟨hexec', -, -⟩ := exec_of_firstFailure h
      all_goals
        rw [hexec'] at hexec
        cases hexec
        rfl
    rw [hcode]
    exact codes_of_failing_checks s i _ (mem_of_firstFailure h) rfl
  | none =>
    obtain ⟨u, hexec', hsucc⟩ | hfault := exec_of_noFailure h
    · rw [hexec'] at hexec
      cases hexec
      rw [hsucc.err, herr] at hfail
      cases hfail
    · rw [hfault] at hexec
      cases hexec

/-- Settles O28: no check and no work of a command looks at an operand register. -/
theorem commandsIgnoreOperandRegisters : Obligations.CommandsIgnoreOperandRegisters := fun s _ a b c d v =>
  ⟨exec_withRegs (fun _ => a) (fun _ => b) (fun _ => c) (fun _ => d) s (.inl rfl),
    fun hi => exec_withRegs id id id id (fv := fun _ => v) s (.inr hi)⟩

/-- Settles O29: the source decides the result, and both runs leave the same free bytes. -/
theorem transformsDependOnTheirSourceOnly : Obligations.TransformsDependOnTheirSourceOnly := by
  intro s s' i hi hs' hsame
  obtain ⟨F, hF⟩ := Option.ne_none_iff_exists'.mp hi
  have hsource : source s = source { s with dmem := s'.dmem } := State.region_congr fun a hle hlt => by
    rw [← hs']; exact hsame a hle hlt
  obtain ⟨t, t', hexec, hexec', h⟩ := exec_sameResult hF hsource
  rw [← hs'] at hexec' h
  exact ⟨t, t', hexec, hexec', h.status, h.resultLen, h.output, h.region, h.rest⟩

/-- Settles O36: on valid regions the template writes the function's output. -/
theorem transformsWriteTheirOutput : Obligations.TransformsWriteTheirOutput := by
  intro s i F y hwf hi hsrc hdst hy hfits
  have hexec : exec i s = .next (s.written (outBase s i) y) := by
    rw [exec_of_passed (preChecks_pass hi hwf hsrc hdst), State.unguarded_transform _ hi,
      State.transformInto_of_fits hy hfits]
  refine ⟨_, hexec, rfl, State.toNat_resultLen_written _ _ (hfits.trans_lt (outCap_lt s i)), State.region_written ..,
    fun a ha => ?_⟩
  rw [State.readByte_written, dif_neg (by omega)]

/-- In place the output is as long as the source, so it fits, and O36 says where it stands. -/
theorem exec_inPlace {s : State} {i : Instr} {F : List Byte → Result} {y : List Byte} (hwf : i.wellFormed = true)
    (hi : transformOf i = some F) (hplace : isInPlace i = true) (hsrc : badSource s = false) (hy : F (source s) = .ok y)
    (hlen : y.length = (source s).length) :
    ∃ t : State, exec i s = .next t ∧ t.status = doneStatus s.status ∧ t.resultLen = s.latch.srcLen ∧
      F (source s) = .ok (t.region s.latch.srcAddr.toNat s.latch.srcLen.toNat) := by
  have hbase : outBase s i = s.latch.srcAddr.toNat := by rw [outBase, hplace]; rfl
  have hcap : outCap s i = s.latch.srcLen.toNat := by rw [outCap, hplace]; rfl
  rw [source_length] at hlen
  obtain ⟨t, hexec, ht, hres, hregion, -⟩ := transformsWriteTheirOutput s i F y hwf hi hsrc (by simp [hplace]) hy
    (by rw [hcap, hlen])
  rw [hbase, hlen] at hregion
  exact ⟨t, hexec, by rw [ht], BitVec.eq_of_toNat_eq (hres.trans hlen), by rw [hregion, hy]⟩

/-- Settles O37: the two loops keep the length of their input. -/
theorem mtfInPlaceOverwritesItsSource : Obligations.MtfInPlaceOverwritesItsSource := fun s hsrc =>
  ⟨exec_inPlace (i := .mtfEnc true) rfl rfl rfl hsrc rfl (mtfEncLoop_length mtfTable (source s)),
    exec_inPlace (i := .mtfDec true) rfl rfl rfl hsrc rfl (mtfDecLoop_length mtfTable (source s))⟩

end Sys2Proof.Proofs
end

section
/-! PROOF. Proofs/Invariant.lean: each change a step can make keeps the invariant: those of the host, of the resets and of
the engine; and the engine always completes (10_state.md R24, 41_bitstream.md R122, R124, 60_exceptions.md R221). -/

namespace Sys2Proof.Machine

open Sys2Proof.Claims

/-! ### Changes the invariant allows -/

theorem Error.code_legal (e : Error) : e.code ∈ legalErrCodes ∧ e.code ≠ 0 := by
  cases e <;> decide

theorem codesOf_legal (i : Instr) : ∀ c ∈ codesOf i, c ∈ legalErrCodes ∧ c ≠ 0 := by
  cases i with
  | lzwDec n fx => cases fx <;> simp [codesOf, legalErrCodes]
  | mtfEnc ip | mtfDec ip => cases ip <;> simp [codesOf, legalErrCodes]
  | _ => simp [codesOf, legalErrCodes]

theorem Writer.reset_ok (size : Nat) : Writer.reset.Ok size := by
  constructor <;> simp [Writer.reset]

theorem Reader.reset_ok (size : Nat) : Reader.reset.Ok size := by
  constructor <;> simp [Reader.reset]

namespace State.Inv

variable {s : State}

theorem withAgent (h : s.Inv) (a : HostAgent) : State.Inv { s with agent := a } := { h with }

theorem withOrder (h : s.Inv) (o : List Agent) : State.Inv { s with order := o } := { h with }

theorem withIrqEn (h : s.Inv) (b : Bool) : State.Inv { s with irqEn := b } := { h with }

theorem withData (h : s.Inv) (v : Word) : State.Inv { s with data := v } := { h with }

theorem withEos (h : s.Inv) (b : Bool) : State.Inv { s with status := { s.status with eos := b } } := { h with }

theorem withCmdLost (h : s.Inv) (b : Bool) : State.Inv { s with status := { s.status with cmdLost := b } } := { h with }

theorem withWriter (h : s.Inv) {w : Writer} (hw : w.Ok s.params.dmemSize) : State.Inv { s with writer := w } :=
  { h with writer_ok := hw }

theorem withReader (h : s.Inv) {r : Reader} (hr : r.Ok s.params.dmemSize) : State.Inv { s with reader := r } :=
  { h with reader_ok := hr }

theorem withResultLen (h : s.Inv) {v : Word} (hv : v.toNat ≤ s.params.dmemSize) : State.Inv { s with resultLen := v } :=
  { h with resultLen_le := hv }

theorem writeBytes (h : s.Inv) {a : Nat} {bs : List Byte} (hb : bs = [] ∨ a + bs.length ≤ s.params.dmemSize) :
    (s.writeBytes a bs).Inv :=
  { h with dmem_wf := State.writeBytes_wf h.dmem_wf hb }

theorem unspecify (h : s.Inv) {a n : Nat} (hb : n = 0 ∨ a + n ≤ s.params.dmemSize) : (s.unspecify a n).Inv :=
  { h with dmem_wf := State.unspecify_wf h.dmem_wf hb }

/-! ### Acceptance, acknowledgement and completion (R101, R25, R104) -/

theorem accept (h : s.Inv) (hreset : s.inReset = false) (w : Word) : (s.accept w).Inv :=
  { h with
    not_done_and_err := by simp
    busy_clean := fun _ => ⟨rfl, rfl, rfl⟩
    busy_word := fun _ => rfl
    done_code := fun _ => rfl
    err_code := by simp
    errCode_legal := List.mem_cons_self
    reset_idle := fun hr => by rw [State.accept_inReset, hreset] at hr; cases hr }

theorem issue (h : s.Inv) (hreset : s.inReset = false) (w : Word) : (s.issue w).Inv := by
  cases hbusy : s.status.busy with
  | true => rw [State.issue_of_busy hbusy]; exact h.withCmdLost true
  | false => rw [State.issue_of_idle hbusy]; exact h.accept hreset w

theorem acknowledge (h : s.Inv) (v : Word) : (s.acknowledge v).Inv :=
  { h with
    not_done_and_err := fun ⟨hdone, herr⟩ =>
      h.not_done_and_err ⟨(Bool.and_eq_true_iff.mp hdone).1, (Bool.and_eq_true_iff.mp herr).1⟩
    busy_clean := fun hbusy => by
      obtain ⟨hdone, herr, hcode⟩ := h.busy_clean hbusy
      exact ⟨by simp [Status.clear, hdone], by simp [Status.clear, herr], hcode⟩
    done_code := fun hdone => h.done_code (Bool.and_eq_true_iff.mp hdone).1
    err_code := fun herr => h.err_code (Bool.and_eq_true_iff.mp herr).1 }

theorem complete (h : s.Inv) (hbusy : s.status.busy = true) : s.complete.Inv := by
  obtain ⟨-, herr, -⟩ := h.busy_clean hbusy
  exact
    { h with
      not_done_and_err := by simp [herr]
      busy_clean := by simp
      busy_word := by simp
      done_code := fun _ => rfl
      err_code := by simp [herr]
      errCode_legal := List.mem_cons_self
      reset_idle := fun _ => rfl }

theorem failed (h : s.Inv) (hbusy : s.status.busy = true) {c : BitVec 4} (hc : c ∈ legalErrCodes ∧ c ≠ 0) :
    (failed c s).Inv := by
  obtain ⟨hdone, -, -⟩ := h.busy_clean hbusy
  exact
    { h with
      not_done_and_err := by simp [Claims.failed, failStatus, hdone]
      busy_clean := by simp [Claims.failed, failStatus]
      busy_word := by simp [Claims.failed, failStatus]
      done_code := by simp [Claims.failed, failStatus, hdone]
      err_code := fun _ => hc.2
      errCode_legal := hc.1
      resultLen_le := Nat.zero_le _
      reset_idle := fun _ => rfl }

/-! ### Resets (10_state.md R43, 70_reset_and_hazards.md R250, R252) -/

theorem resetRegisters (h : s.Inv) : s.resetRegisters.Inv :=
  { h with
    not_done_and_err := fun h => by cases h.1
    busy_clean := fun hbusy => by cases hbusy
    busy_word := fun hbusy => by cases hbusy
    done_code := fun _ => rfl
    err_code := fun herr => by cases herr
    errCode_legal := List.mem_cons_self
    writer_ok := Writer.reset_ok _
    reader_ok := Reader.reset_ok _
    resultLen_le := Nat.zero_le _
    reset_idle := fun _ => rfl }

theorem abort (h : s.Inv) : s.abort.Inv := by
  rcases s.abort_cases with heq | ⟨a, n, -, -, heq⟩
  · rwa [heq]
  · rw [heq]
    exact h.unspecify (by omega)

theorem softReset (h : s.Inv) : s.softReset.Inv := h.abort.resetRegisters

theorem hardReset (h : s.Inv) : s.hardReset.Inv :=
  { h.resetRegisters with dmem_wf := Memory.wf_nil _, reset_idle := fun _ => rfl }

theorem releaseReset (h : s.Inv) : s.releaseReset.Inv := { h with reset_idle := fun hr => by cases hr }

/-! ### The host (20_memory.md R60 to R66, 30_encoding.md R89) -/

theorem writeCtrl (h : s.Inv) (v : Word) : (s.writeCtrl v).Inv := by
  rw [State.writeCtrl]
  split
  · exact (h.withIrqEn _).softReset
  · exact h.withIrqEn _

theorem writeReg (h : s.Inv) (hreset : s.inReset = false) (v : Word) (r : Reg) : (s.writeReg v r).Inv := by
  cases r with
  | ctrl => exact h.writeCtrl v
  | status => exact h.acknowledge v
  | cmd => exact h.issue hreset v
  | srcAddr | srcLen | dstAddr | dstCap | data => exact { h with }
  | id | resultLen | stream | bswBits | bswBase | bswCap | bsrPos | bsrBase | bsrLen => exact h

theorem writeOffset (h : s.Inv) (hreset : s.inReset = false) (o : Nat) (v : Word) : (s.writeOffset o v).Inv := by
  rw [State.writeOffset]
  split
  · exact h.writeReg hreset v _
  · exact h

theorem serve (h : s.Inv) {t : State} {a : Access} (hs : s.serve a = .next t) : t.Inv := by
  obtain ⟨-, hreset, x, hroute, hserve⟩ := State.serve_eq_next hs
  cases x with
  | register o =>
    cases a with
    | read w addr => cases hserve; exact h.withAgent _
    | write w addr v => cases hserve; exact h.writeOffset hreset o v
  | dmem o =>
    obtain ⟨-, -, hin⟩ := State.route_eq_dmem.mp hroute
    cases a with
    | read w addr =>
      rw [State.serveAt] at hserve
      split at hserve
      · cases hserve
      · cases hserve; exact h.withAgent _
    | write w addr v =>
      rw [State.serveAt] at hserve
      split at hserve
      · cases hserve
      · cases hserve; exact h.writeBytes (.inr (by rw [leBytes_length]; exact hin))

theorem advance (h : s.Inv) : s.advance.Inv := h.withAgent _

theorem branch (h : s.Inv) (v w : Value) (name : Nat) : (s.branch v w name).Inv := by
  rw [State.branch]
  split
  · exact h.withAgent _
  · exact h.advance

theorem runStmt (h : s.Inv) {t : State} {st : Stmt} (hs : s.runStmt st = .next t) : t.Inv := by
  cases st with
  | wr | rd | access => exact h.advance.serve hs
  | wmem | rmem | label | goto | assign => cases hs; exact h.withAgent _
  | ifReg | ifField | ifVar => cases hs; exact h.branch _ _ _
  | cmd i =>
    rw [State.runStmt] at hs
    split at hs
    · exact h.advance.serve hs
    · cases hs
  | wait =>
    rw [State.runStmt] at hs
    split at hs
    · exact h.serve hs
    · exact h.advance.serve hs
  | assertReset => cases hs; exact h.advance.hardReset
  | releaseReset => cases hs; exact h.advance.releaseReset

theorem hostTurn (h : s.Inv) {t : State} (hs : s.hostTurn = .next t) : t.Inv := by
  rw [State.hostTurn] at hs
  split at hs
  · exact (h.withAgent _).serve hs
  · split at hs
    · exact h.runStmt hs
    · cases hs; exact h

/-! ### The engine (40_command_cycle.md R103) -/

/-- The output region of a transform whose first checks pass lies in DMEM (R105). -/
theorem outRegion_le_of_preChecks {i : Instr} {F : List Byte → Result} (hi : transformOf i = some F)
    (hpre : firstFailure (preChecks s i) = none) : outBase s i + outCap s i ≤ s.params.dmemSize := by
  have hdest : badDest s = false → s.latch.dstAddr.toNat + s.latch.dstCap.toNat ≤ s.params.dmemSize := by simp [badDest]
  have hsrc : badSource s = false → s.latch.srcAddr.toNat + s.latch.srcLen.toNat ≤ s.params.dmemSize := by
    simp [badSource]
  rw [firstFailure_eq_none_iff] at hpre
  cases i with
  | lzwEnc | lzwDec | rleEnc | rleDec | bwtFwd | bwtInv => exact hdest (hpre (badDest s, 10) (by simp [preChecks, regionChecks]))
  | mtfEnc ip | mtfDec ip =>
    cases ip with
    | false => exact hdest (hpre (badDest s, 10) (by simp [preChecks, regionChecks]))
    | true => exact hsrc (hpre (badSource s, 10) (by simp [preChecks]))
  | _ => cases hi

theorem transformInto (h : s.Inv) (hbusy : s.status.busy = true) {F : List Byte → Result} {base cap : Nat}
    (hregion : base + cap ≤ s.params.dmemSize) : (s.transformInto F base cap).Inv := by
  obtain ⟨e, -, heq⟩ | ⟨-, -, -, heq⟩ | ⟨y, -, hfits, heq⟩ := s.transformInto_cases F base cap
  · rw [heq]
    exact (h.unspecify (.inr hregion)).failed hbusy e.code_legal
  · rw [heq]
    exact (h.unspecify (.inr hregion)).failed hbusy Error.outputOverflow.code_legal
  · rw [heq]
    refine ((h.writeBytes (.inr (by omega))).withResultLen ?_).complete hbusy
    exact (BitVec.toNat_ofNat ..).trans_le ((Nat.mod_le ..).trans (by simp; omega))

/-- The width an open takes is in range (41_bitstream.md R123, R130). -/
theorem openedWidth_range {n : BitVec 5} (hn : n.toNat ≤ 16) :
    1 ≤ (if n.toNat = 0 then 8 else n : BitVec 5).toNat ∧ (if n.toNat = 0 then 8 else n : BitVec 5).toNat ≤ 16 := by
  split
  · decide
  · omega

theorem openWriter (h : s.Inv) {n : BitVec 5} (hpre : firstFailure (preChecks s (.bswOpen n)) = none) :
    State.Inv { s with writer := ⟨if n.toNat = 0 then 8 else n, true, 0, 0, s.latch.dstAddr, s.latch.dstCap⟩ } := by
  simp [firstFailure_eq_none_iff, preChecks, checks, check, badDest] at hpre
  exact h.withWriter ⟨(openedWidth_range hpre.1).1, (openedWidth_range hpre.1).2, hpre.2, Nat.zero_le _, Nat.zero_lt_one⟩

theorem openReader (h : s.Inv) {n : BitVec 5} (hpre : firstFailure (preChecks s (.bsrOpen n)) = none) :
    State.Inv { s with reader := ⟨if n.toNat = 0 then 8 else n, true, 0, s.latch.srcAddr, s.latch.srcLen⟩ } := by
  simp [firstFailure_eq_none_iff, preChecks, checks, check, badSource] at hpre
  exact h.withReader ⟨(openedWidth_range hpre.1).1, (openedWidth_range hpre.1).2, hpre.2, Nat.zero_le _⟩

theorem afterPush (h : s.Inv) (hbusy : s.status.busy = true) (hopen : s.writer.isOpen = true)
    (hroom : s.writer.bits.toNat + s.writer.width.toNat ≤ 8 * s.writer.cap.toNat) : s.afterPush.Inv := by
  have hready : s.WriterReady := ⟨h.dmemSize_le, h.writer_ok, hopen⟩
  have hregion := h.writer_ok.region
  have hlen := s.pushed_length
  refine State.Inv.complete ((h.writeBytes (.inr ?_)).withWriter (hready.afterPush hroom).ok) hbusy
  omega

theorem afterFinish (h : s.Inv) (hbusy : s.status.busy = true) : s.afterFinish.Inv := by
  have hok := h.writer_ok
  have hregion := hok.region
  have hbits := hok.bits_le
  have hlen := s.finishTail_length
  have hwriter : Writer.Ok s.params.dmemSize { s.writer with acc := 0, isOpen := false } :=
    { hok with acc_lt := Nat.two_pow_pos _ }
  have hmem : s.finishTail = [] ∨
      s.writer.base.toNat + s.writer.bits.toNat / 8 + s.finishTail.length ≤ s.params.dmemSize := by
    rw [← List.length_eq_zero_iff]
    split at hlen <;> omega
  refine State.Inv.complete (((h.writeBytes hmem).withWriter hwriter).withResultLen ?_) hbusy
  refine (State.toNat_resultLen_afterFinish h.dmemSize_le hok).trans_le ?_
  change _ ≤ s.params.dmemSize
  omega

theorem afterRead (h : s.Inv) (hbusy : s.status.busy = true) (hopen : s.reader.isOpen = true)
    (hmore : s.reader.pos.toNat + s.reader.width.toNat ≤ 8 * s.reader.len.toNat) : s.afterRead.Inv := by
  have hready : s.ReaderReady := ⟨h.dmemSize_le, h.reader_ok, hopen⟩
  exact State.Inv.complete (((h.withReader (hready.afterShift hmore).ok).withData s.afterRead.data).withEos false) hbusy

theorem unguarded (h : s.Inv) (hbusy : s.status.busy = true) {t : State} {i : Instr}
    (hpre : firstFailure (preChecks s i) = none) (hs : s.unguarded i = .next t) : t.Inv := by
  cases hi : transformOf i with
  | some F =>
    rw [State.unguarded_transform _ hi] at hs
    cases hs
    exact h.transformInto hbusy (outRegion_le_of_preChecks hi hpre)
  | none =>
    cases i with
    | nop => cases hs; exact h.complete hbusy
    | bswOpen n => cases hs; exact (h.openWriter hpre).complete hbusy
    | bsrOpen n => cases hs; exact ((h.openReader hpre).withEos false).complete hbusy
    | bswSetw n =>
      simp [firstFailure_eq_none_iff, preChecks, checks, check] at hpre
      cases hs
      have hok : Writer.Ok s.params.dmemSize { s.writer with width := n } :=
        { h.writer_ok with width_pos := Nat.pos_of_ne_zero hpre.1.1, width_le := hpre.1.2 }
      exact (h.withWriter hok).complete hbusy
    | bsrSetw n =>
      simp [firstFailure_eq_none_iff, preChecks, checks, check] at hpre
      cases hs
      have hok : Reader.Ok s.params.dmemSize { s.reader with width := n } :=
        { h.reader_ok with width_pos := Nat.pos_of_ne_zero hpre.1.1, width_le := hpre.1.2 }
      exact (h.withReader hok).complete hbusy
    | bswPush =>
      simp [firstFailure_eq_none_iff, preChecks, checks, check] at hpre
      rw [State.unguarded] at hs
      split at hs
      · cases hs
      · cases hs; exact h.afterPush hbusy hpre.1 hpre.2
    | bswFinish =>
      rw [State.unguarded] at hs
      split at hs
      · cases hs
      · cases hs; exact h.afterFinish hbusy
    | bsrShift =>
      simp [firstFailure_eq_none_iff, preChecks, checks] at hpre
      rw [State.unguarded] at hs
      split at hs
      · cases hs; exact ((h.withData Config.exhausted).withEos true).complete hbusy
      · split at hs
        · cases hs
        · cases hs; exact h.afterRead hbusy hpre (by omega)
    | lzwEnc | lzwDec | rleEnc | rleDec | bwtFwd | bwtInv | mtfEnc | mtfDec => cases hi

theorem exec (h : s.Inv) (hbusy : s.status.busy = true) {t : State} {i : Instr} (hs : exec i s = .next t) : t.Inv := by
  rw [exec_eq_guarded] at hs
  cases hpre : firstFailure (preChecks s i) with
  | some c =>
    have hmem : (true, c) ∈ checks s i := by
      rw [checks_eq_append]
      exact List.mem_append_left _ (mem_of_firstFailure hpre)
    rw [guarded_of_some hpre] at hs
    cases hs
    exact h.failed hbusy (codesOf_legal i c (codes_of_failing_checks s i _ hmem rfl))
  | none =>
    rw [guarded_of_none hpre] at hs
    exact h.unguarded hbusy hpre hs

theorem engineStep (h : s.Inv) (hbusy : s.status.busy = true) {t : State} (hs : s.engineStep = .next t) : t.Inv := by
  cases hdecode : decode s.latch.word with
  | ok i => exact h.exec hbusy (State.engineStep_of_ok hdecode ▸ hs)
  | error r =>
    rw [State.engineStep_of_error hdecode] at hs
    cases hs
    exact h.failed hbusy Error.illegalCommand.code_legal

theorem step (h : s.Inv) {t : State} (hs : step s = .next t) : t.Inv := by
  rw [Machine.step, State.turn] at hs
  split at hs
  next =>
    split at hs
    case isTrue hbusy => exact h.engineStep hbusy hs
    case isFalse => exact h.hostTurn hs
  next => exact (h.withOrder _).hostTurn hs
  next rest _ =>
    split at hs
    case isTrue hbusy => exact (h.withOrder rest).engineStep hbusy hs
    case isFalse => cases hs; exact h.withOrder _

/-- The engine's step from a state that meets the invariant ends the command, with DONE or ERR (R104, R108). -/
theorem engineStep_completes (h : s.Inv) (hbusy : s.status.busy = true) :
    ∃ t, s.engineStep = .next t ∧ t.status.busy = false ∧ t.status.done ≠ t.status.err := by
  obtain ⟨hdone, herr, -⟩ := h.busy_clean hbusy
  have hne : s.status.done ≠ true := Bool.eq_false_iff.mp hdone
  cases hdecode : decode s.latch.word with
  | error r => exact ⟨_, State.engineStep_of_error hdecode, rfl, hne⟩
  | ok i =>
    rw [State.engineStep_of_ok hdecode]
    cases hfirst : firstFailure (checks s i) with
    | some c =>
      obtain ⟨hexec, -⟩ | ⟨hexec, -, -⟩ := exec_of_firstFailure hfirst
      · exact ⟨_, hexec, rfl, hne⟩
      · exact ⟨_, hexec, rfl, hne⟩
    | none =>
      obtain ⟨t, hexec, hsucc⟩ := exec_succeeds h.writer_ok h.reader_ok hfirst
      exact ⟨t, hexec, hsucc.busy, by rw [hsucc.done, hsucc.err, herr]; decide⟩

end State.Inv

theorem State.reset_inv : State.reset.Inv where
  dmemSize_pos := by decide
  dmemSize_le := by decide
  blockBase_aligned := by decide
  dmem_wf := Memory.wf_nil _
  not_done_and_err := by decide
  busy_clean := by decide
  busy_word := by decide
  done_code := by decide
  err_code := by decide
  errCode_legal := by decide
  writer_ok := Writer.reset_ok _
  reader_ok := Reader.reset_ok _
  resultLen_le := by decide
  reset_idle := by decide

end Sys2Proof.Machine

namespace Sys2Proof.Proofs

open Sys2Proof Sys2Proof.Machine Sys2Proof.Claims

/-- Settles O51. -/
theorem resetMeetsTheInvariant : Obligations.ResetMeetsTheInvariant := State.reset_inv

/-- Settles O52: the host's turn and the engine's step keep the invariant. -/
theorem stepKeepsTheInvariant : Obligations.StepKeepsTheInvariant := fun _ _ h hs => h.step hs

/-- Settles O53: the invariant keeps every access of the engine inside DMEM. -/
theorem engineStepAlwaysCompletes : Obligations.EngineStepAlwaysCompletes := fun _ h hbusy => h.engineStep_completes hbusy

end Sys2Proof.Proofs
end

section
/-! PROOF. Proofs/Bus.lean: what each register reads and writes over the bus, which accesses are bus errors, DMEM accesses,
and the two resets (10_state.md R22 to R43; 20_memory.md R60 to R66; 70_reset_and_hazards.md R250, R252). -/

namespace Sys2Proof.Machine

open Sys2Proof.Claims

section

variable {s : State}

/-! ### Register reads (10_state.md R22 to R33) -/

theorem State.bits_status_flags (s : State) :
    bits (s.readReg .status) 3 1 = s.status.eos.toNat ∧ bits (s.readReg .status) 4 1 = s.status.cmdLost.toNat ∧
      bits (s.readReg .status) 8 4 = s.status.errCode.toNat := by
  have hbusy := s.status.busy.toNat_lt
  have hdone := s.status.done.toNat_lt
  have herr := s.status.err.toNat_lt
  have heos := s.status.eos.toNat_lt
  have hlost := s.status.cmdLost.toNat_lt
  have hcode := s.status.errCode.isLt
  rw [State.readReg, bits, bits, bits, s.status.toNat_word]
  omega

theorem State.bits_stream (s : State) :
    bits (s.readReg .stream) 0 5 = s.writer.width.toNat ∧ bits (s.readReg .stream) 7 1 = s.writer.isOpen.toNat ∧
      bits (s.readReg .stream) 8 5 = s.reader.width.toNat ∧ bits (s.readReg .stream) 15 1 = s.reader.isOpen.toNat ∧
      bits (s.readReg .stream) 16 8 = s.writer.acc.toNat := by
  have hww := s.writer.width.isLt
  have hwo := s.writer.isOpen.toNat_lt
  have hrw := s.reader.width.isLt
  have hro := s.reader.isOpen.toNat_lt
  have hacc := s.writer.acc.isLt
  rw [State.readReg, bits, bits, bits, bits, bits, s.toNat_streamWord]
  omega

/-- The register map of R22 is the model's list of registers. -/
theorem registerContents_eq (s : State) :
    registerContents s = Reg.all.map fun r => (r.offset, (s.readReg r).toNat) := by
  simp only [Reg.all, List.map_cons, List.map_nil, State.readReg, s.toNat_ctrlWord, s.status.toNat_word,
    s.toNat_streamWord]
  rfl

theorem State.serve_read_word (h : Serving s) (r : Reg) :
    ∃ t, s.serve (.read .word (s.regAddr r)) = .next t ∧ t.agent.response = s.readReg r ∧ t = { s with agent := t.agent } :=
  ⟨_, State.serve_read_reg h.1 h.2 r, rfl, rfl⟩

/-! ### Register writes (10_state.md R22, R23) -/

theorem State.serve_write_word (h : Serving s) (r : Reg) (v : Word) :
    s.serve (.write .word (s.regAddr r) v) = .next (s.writeReg v r) :=
  State.hostWrite_eq h.1 h.2 r v

theorem decide_bits_one (v : Word) (i : Nat) : decide (bits v i 1 = 1) = v.getLsbD i := by
  rw [Bool.eq_iff_iff, decide_eq_true_eq, bits_one_eq_one_iff]

theorem State.writeCtrl_of_no_reset {v : Word} (h : bits v 1 1 = 0) :
    s.writeCtrl v = { s with irqEn := decide (bits v 0 1 = 1) } := by
  have hsrst : v.getLsbD 1 = false := by rw [← decide_bits_one, h]; rfl
  rw [State.writeCtrl, hsrst, decide_bits_one]
  rfl

theorem State.writeCtrl_of_reset {v : Word} (h : bits v 1 1 = 1) :
    s.writeCtrl v = State.softReset { s with irqEn := decide (bits v 0 1 = 1) } := by
  rw [State.writeCtrl, bits_one_eq_one_iff.mp h, decide_bits_one]
  rfl

/-- A write of an operand register is read there, and nowhere else. -/
theorem State.readReg_writeReg_operand (s : State) (v : Word) {r : Reg}
    (hr : r ∈ [Reg.srcAddr, .srcLen, .dstAddr, .dstCap, .data]) :
    (∀ r', (s.writeReg v r).readReg r' = if r' = r then v else s.readReg r') ∧
      (s.writeReg v r).dmem = s.dmem ∧ (s.writeReg v r).latch = s.latch ∧ (s.writeReg v r).status = s.status ∧
      (s.writeReg v r).params = s.params ∧ (s.writeReg v r).inReset = s.inReset := by
  cases r with
  | srcAddr | srcLen | dstAddr | dstCap | data =>
    refine ⟨fun r' => ?_, rfl, rfl, rfl, rfl, rfl⟩
    cases r' <;> rfl
  | _ => simp at hr

/-- While busy only a CTRL write with SRST touches the command in flight. -/
theorem State.writeReg_keeps_command (hbusy : s.status.busy = true) (v : Word) (r : Reg) :
    ((s.writeReg v r).latch = s.latch ∧ (s.writeReg v r).status.busy = true ∧ (s.writeReg v r).cmd = s.cmd ∧
      (s.writeReg v r).dmem = s.dmem) ∨ (r = .ctrl ∧ bits v 1 1 = 1) := by
  cases r with
  | ctrl =>
    by_cases hsrst : bits v 1 1 = 1
    · exact .inr ⟨rfl, hsrst⟩
    · have hzero : bits v 1 1 = 0 := by
        rw [bits] at hsrst ⊢
        omega
      rw [State.writeReg, State.writeCtrl_of_no_reset hzero]
      exact .inl ⟨rfl, hbusy, rfl, rfl⟩
  | cmd =>
    rw [State.writeReg, State.issue_of_busy hbusy]
    exact .inl ⟨rfl, hbusy, rfl, rfl⟩
  | _ => exact .inl ⟨rfl, hbusy, rfl, rfl⟩

/-! ### Which accesses are bus errors (20_memory.md R60, R62, R63) -/

theorem State.serveAt_ne_busError (s : State) (a : Access) (x : Target) : s.serveAt a x ≠ .fault .busError := by
  cases x with
  | register o => cases a <;> simp [State.serveAt]
  | dmem o =>
    cases a with
    | read w addr => rw [State.serveAt]; split <;> simp
    | write w addr v => rw [State.serveAt]; split <;> simp

theorem State.serve_of_unrouted (h : Serving s) {a : Access} (hroute : s.route a.width a.addr = none) :
    s.serve a = .fault .busError := by
  simp [State.serve, h.1, h.2, hroute]

theorem State.serve_eq_busError_iff (h : Serving s) {a : Access} :
    s.serve a = .fault .busError ↔ s.route a.width a.addr = none := by
  refine ⟨fun herr => ?_, State.serve_of_unrouted h⟩
  cases hroute : s.route a.width a.addr with
  | none => rfl
  | some x =>
    rw [State.serve_of_route h.1 h.2 hroute] at herr
    exact absurd herr (s.serveAt_ne_busError a x)

/-- An access reaches something exactly when it is a register access of 32 bits at a multiple of 4, or a naturally aligned
DMEM access inside the window. -/
theorem State.route_eq_none_iff (s : State) (w : Width) (addr : Nat) :
    s.route w addr = none ↔
      ¬(s.params.blockBase ≤ addr ∧
        ((addr - s.params.blockBase < 0x10000 ∧ w = .word ∧ (addr - s.params.blockBase) % 4 = 0) ∨
          (0x10000 ≤ addr - s.params.blockBase ∧
            (w = .byte ∨ (w = .half ∧ (addr - s.params.blockBase - 0x10000) % 2 = 0) ∨
              (w = .word ∧ (addr - s.params.blockBase - 0x10000) % 4 = 0)) ∧
            addr - s.params.blockBase - 0x10000 + w.bytes ≤ s.params.dmemSize))) := by
  have halign (a : Nat) : a % w.bytes = 0 ↔ w = .byte ∨ (w = .half ∧ a % 2 = 0) ∨ (w = .word ∧ a % 4 = 0) := by
    cases w <;> simp [Width.bytes, Nat.mod_one]
  rw [← halign, ← not_iff_not, not_not, ← ne_eq, Option.ne_none_iff_exists']
  constructor
  · rintro ⟨x, hx⟩
    cases x with
    | register o =>
      obtain ⟨rfl, rfl, hlt, hmod⟩ := State.route_eq_register.mp hx
      rw [Nat.add_sub_cancel_left]
      exact ⟨by omega, .inl ⟨hlt, rfl, hmod⟩⟩
    | dmem a =>
      obtain ⟨rfl, hmod, hin⟩ := State.route_eq_dmem.mp hx
      have hoffset : s.dmemAddr a - s.params.blockBase = 0x10000 + a := by
        rw [State.dmemAddr, Config.windowOffset]
        omega
      rw [hoffset, Nat.add_sub_cancel_left]
      exact ⟨by rw [State.dmemAddr]; omega, .inr ⟨by omega, hmod, hin⟩⟩
  · rintro ⟨hbase, ⟨hlt, hw, hmod⟩ | ⟨hle, hmod, hin⟩⟩
    · exact ⟨_, State.route_eq_register.mpr ⟨hw, by omega, hlt, hmod⟩⟩
    · exact ⟨_, State.route_eq_dmem.mpr ⟨by rw [State.dmemAddr, Config.windowOffset]; omega, hmod, hin⟩⟩

/-! ### DMEM accesses (20_memory.md R61, R64) -/

theorem State.serve_dmem_read (h : Serving s) (hbusy : s.status.busy = false) {w : Width} {a : Nat}
    (ha : a % w.bytes = 0) (hin : a + w.bytes ≤ s.params.dmemSize) :
    s.serve (.read w (s.dmemAddr a)) = .next { s with agent := s.agent.gotBytes (s.region a w.bytes) } := by
  rw [State.serve_of_route (a := .read w (s.dmemAddr a)) h.1 h.2 (s.route_dmemAddr ha hin), State.serveAt, hbusy]
  rfl

theorem State.serve_dmem_write (h : Serving s) (hbusy : s.status.busy = false) {w : Width} {a : Nat}
    (ha : a % w.bytes = 0) (hin : a + w.bytes ≤ s.params.dmemSize) (v : Word) :
    s.serve (.write w (s.dmemAddr a) v) = .next (s.writeBytes a (leBytes w.bytes v.toNat)) := by
  rw [State.serve_of_route (a := .write w (s.dmemAddr a) v) h.1 h.2 (s.route_dmemAddr ha hin), State.serveAt, hbusy]
  rfl

theorem toNat_response_gotBytes (h : HostAgent) {bs : List Byte} (hlen : bs.length ≤ 4) :
    (h.gotBytes bs).response.toNat = leValue bs := by
  refine (BitVec.toNat_ofNat ..).trans (Nat.mod_eq_of_lt ?_)
  calc leValue bs < 256 ^ bs.length := leValue_lt bs
    _ ≤ 256 ^ 4 := Nat.pow_le_pow_right (by decide) hlen
    _ = 2 ^ 32 := rfl

theorem State.toNat_readByte_writeBytes_leBytes (s : State) (a n : Nat) (v : Word) {i : Nat} (hi : i < n) :
    ((s.writeBytes a (leBytes n v.toNat)).readByte (a + i)).toNat = bits v (8 * i) 8 := by
  rw [State.readByte_writeBytes, dif_pos (by rw [leBytes_length]; omega)]
  simp only [Nat.add_sub_cancel_left]
  rw [leBytes_getElem _ _ hi, BitVec.toNat_ofNat, bits, Nat.pow_mul]

/-! ### The soft reset (70_reset_and_hazards.md R252) -/

theorem State.abortedRegion_of_error {e : Reject} (h : decode s.latch.word = .error e) : s.abortedRegion = none := by
  rw [State.abortedRegion, h]

/-- The model's offset and length are the range of R252 (a). -/
theorem State.abortedRegion_of_ok {i : Instr} (h : decode s.latch.word = .ok i) :
    s.abortedRegion = (abortRange s i).map fun p => (p.1, p.2 - p.1) := by
  rw [State.abortedRegion, h]
  cases i with
  | bswPush | bswFinish => simp [abortRange, Nat.add_sub_add_left]
  | mtfEnc ip | mtfDec ip => cases ip <;> simp [abortRange, outputRegion, transformOf, outBase, outCap, isInPlace]
  | _ => simp [abortRange, outputRegion, transformOf, outBase, outCap, isInPlace]

/-- `s.Aborts b`: a soft reset discards a command in flight that leaves byte `b` unspecified. -/
def State.Aborts (s : State) (b : Nat) : Prop :=
  s.status.busy = true ∧ ∃ i lo hi, decode s.latch.word = .ok i ∧ abortRange s i = some (lo, hi) ∧
    lo ≤ b ∧ b < hi ∧ b < s.params.dmemSize

theorem State.readByte_abort (s : State) (b : Nat) :
    (s.Aborts b ∧ s.abort.readByte b = Config.freeByte s.draws b) ∨ (¬s.Aborts b ∧ s.abort.readByte b = s.readByte b) := by
  cases hbusy : s.status.busy with
  | false => exact .inr ⟨fun h => Bool.eq_false_iff.mp hbusy h.1, by simp [State.abort, hbusy]⟩
  | true =>
    cases hdecode : decode s.latch.word with
    | error e =>
      have hregion := State.abortedRegion_of_error hdecode
      refine .inr ⟨fun ⟨_, i, _, _, hi, _⟩ => ?_, by simp [State.abort, hregion]⟩
      rw [hdecode] at hi
      cases hi
    | ok i =>
      have hregion := State.abortedRegion_of_ok hdecode
      have haborts : s.Aborts b ↔ ∃ lo hi, abortRange s i = some (lo, hi) ∧ lo ≤ b ∧ b < hi ∧ b < s.params.dmemSize := by
        simp [State.Aborts, hbusy, hdecode]
      rw [haborts]
      cases hrange : abortRange s i with
      | none => exact .inr ⟨by simp, by simp [State.abort, hregion, hrange]⟩
      | some p =>
        obtain ⟨lo, hi⟩ := p
        have habort : s.abort = s.unspecify lo (min (hi - lo) (s.params.dmemSize - lo)) := by
          simp [State.abort, hbusy, hregion, hrange]
        rw [habort, s.readByte_unspecify]
        by_cases hb : lo ≤ b ∧ b < hi ∧ b < s.params.dmemSize
        · exact .inl ⟨⟨lo, hi, rfl, hb⟩, if_pos (by omega)⟩
        · refine .inr ⟨fun ⟨_, _, heq, hin⟩ => ?_, if_neg (by omega)⟩
          cases heq
          exact hb hin

theorem State.abort_irqEn (s : State) : s.abort.irqEn = s.irqEn := by
  rcases s.abort_cases with heq | ⟨a, n, -, -, heq⟩ <;> rw [heq]
  rfl

theorem State.readReg_resetRegisters (s : State) {r : Reg} (hr : r ≠ .ctrl) :
    s.resetRegisters.readReg r = State.reset.readReg r := by
  cases r with
  | ctrl => exact absurd rfl hr
  | _ => rfl

end

end Sys2Proof.Machine

namespace Sys2Proof.Proofs

open Sys2Proof Sys2Proof.Machine Sys2Proof.Claims

/-- Settles O9: the words of CTRL, STATUS and STREAM are numbers in a mixed radix. -/
theorem registerFieldsLieAtTheirBits : Obligations.RegisterFieldsLieAtTheirBits := fun s =>
  have ⟨heos, hlost, hcode⟩ := s.bits_status_flags
  ⟨rfl, s.bits_ctrl_irqEn, s.bits_status_busy, s.bits_status_done, s.bits_status_err, heos, hlost, hcode, s.bits_stream⟩

/-- Settles O10. -/
theorem ctrlAndReadOnlyRegisterWrites : Obligations.CtrlAndReadOnlyRegisterWrites := by
  intro s v h
  have hwrite := fun r => State.serve_write_word h r v
  refine ⟨fun hsrst => (hwrite .ctrl).trans (congrArg Host.Outcome.next (State.writeCtrl_of_no_reset hsrst)), ?_⟩
  simp only [List.forall_mem_cons]
  exact ⟨hwrite .id, hwrite .resultLen, hwrite .stream, hwrite .bswBits, hwrite .bswBase, hwrite .bswCap,
    hwrite .bsrPos, hwrite .bsrBase, hwrite .bsrLen, List.forall_mem_nil _⟩

/-- Settles O11. -/
theorem operandRegistersReadBack : Obligations.OperandRegistersReadBack := by
  intro s v h
  have hwrite := fun r => State.serve_write_word h r v
  refine ⟨hwrite .srcAddr, hwrite .srcLen, hwrite .dstAddr, hwrite .dstCap, hwrite .data, fun r hr => ?_⟩
  obtain ⟨hregs, hdmem, hlatch, hstatus, hparams, hreset⟩ := s.readReg_writeReg_operand v hr
  have hserving : Serving (s.writeReg v r) := ⟨by rw [hparams]; exact h.1, hreset.trans h.2⟩
  obtain ⟨u, hread, hresponse, -⟩ := State.serve_read_word hserving r
  exact ⟨_, u, hwrite r, hread, hresponse.trans ((hregs r).trans (if_pos rfl)),
    fun r' hne => (hregs r').trans (if_neg hne), hdmem, hlatch, hstatus⟩

/-- Settles O12: a read reaches a register or DMEM, and both leave the block alone. -/
theorem hostReadsChangeNothing : Obligations.HostReadsChangeNothing := by
  intro s t w addr hs
  obtain ⟨-, -, x, -, hserve⟩ := State.serve_eq_next hs
  cases x with
  | register o => cases hserve; rfl
  | dmem o =>
    rw [State.serveAt] at hserve
    split at hserve
    · cases hserve
    · cases hserve; rfl

/-- Settles O13: the bytes on the bus are one little-endian number. -/
theorem dmemAccessesAreLittleEndian : Obligations.DmemAccessesAreLittleEndian := by
  intro s w a v h hbusy ha hin
  have hlen : w.bytes ≤ 4 := by cases w <;> decide
  refine ⟨⟨_, State.serve_dmem_read h hbusy ha hin, ?_⟩, _, State.serve_dmem_write h hbusy ha hin v, rfl, fun i hi => ?_,
    fun b hb => ?_⟩
  · rw [← s.leValue_region]
    exact toNat_response_gotBytes _ (by rwa [State.region_length])
  · exact s.toNat_readByte_writeBytes_leBytes a _ v hi
  · exact State.readByte_writeBytes_outside (by rwa [leBytes_length])

/-- Settles O14: the bus errors are the accesses that reach nothing. -/
theorem busErrorsAreExactlyTheBadAccesses : Obligations.BusErrorsAreExactlyTheBadAccesses :=
  fun s a h => (State.serve_eq_busError_iff h).trans (s.route_eq_none_iff a.width a.addr)

/-- Settles O15. -/
theorem forbiddenAccessesFault : Obligations.ForbiddenAccessesFault := by
  refine fun s a => ⟨fun h hbusy haddr => ?_, fun hordered hreset => by simp [State.serve, hordered, hreset]⟩
  cases hroute : s.route a.width a.addr with
  | none => exact .inr (State.serve_of_unrouted h hroute)
  | some x =>
    cases x with
    | register o =>
      obtain ⟨-, heq, hlt, -⟩ := State.route_eq_register.mp hroute
      rw [Config.windowOffset] at hlt
      omega
    | dmem o =>
      rw [State.serve_of_route h.1 h.2 hroute]
      cases a with
      | read w addr => exact .inl (if_pos hbusy)
      | write w addr v => exact .inl (if_pos hbusy)

/-- Settles O17: no register but CTRL reaches the command in flight, and DMEM is closed to the host while busy. -/
theorem hostAccessesLeaveTheLatchedCommand : Obligations.HostAccessesLeaveTheLatchedCommand := by
  intro s t a hbusy hs
  obtain ⟨-, -, x, hroute, hserve⟩ := State.serve_eq_next hs
  cases x with
  | dmem o => cases a <;> simp [State.serveAt, hbusy] at hserve
  | register o =>
    cases a with
    | read w addr => cases hserve; exact .inl ⟨rfl, hbusy, rfl, rfl⟩
    | write w addr v =>
      obtain ⟨rfl, haddr, -, -⟩ := State.route_eq_register.mp hroute
      cases hserve
      cases hreg : Reg.at? o with
      | none => rw [State.writeOffset, hreg]; exact .inl ⟨rfl, hbusy, rfl, rfl⟩
      | some r =>
        obtain rfl := Reg.at?_eq_some.mp hreg
        rw [State.writeOffset_reg]
        refine (State.writeReg_keeps_command hbusy v r).imp_right ?_
        rintro ⟨rfl, hsrst⟩
        exact ⟨v, congrArg (Access.write .word · v) haddr, hsrst⟩

/-- Settles O18. -/
theorem hardResetLeavesTheResetState : Obligations.HardResetLeavesTheResetState := by
  have hreset : ∀ (s : State) (r : Reg), s.hardReset.readReg r = State.reset.readReg r := by
    intro s r
    cases r <;> rfl
  refine ⟨fun r => ?_, rfl, fun s => ⟨hreset s, rfl, rfl, fun _ => rfl, rfl⟩⟩
  cases r <;> rfl

/-- Settles O19: the abort leaves the range of R252 (a) unspecified, and the registers are reset. -/
theorem softResetClearsRegistersAndKeepsMemory : Obligations.SoftResetClearsRegistersAndKeepsMemory := by
  intro s v h hsrst
  have hwrite := State.serve_write_word h .ctrl v
  rw [State.writeReg, State.writeCtrl_of_reset hsrst] at hwrite
  refine ⟨_, hwrite, State.abort_irqEn _, fun r hr => State.readReg_resetRegisters _ hr, rfl, fun b => ?_⟩
  refine (State.readByte_abort { s with irqEn := decide (bits v 0 1 = 1) } b).imp_left ?_
  rintro ⟨⟨hbusy, i, lo, hi, hdecode, hrange, hlo, hhi, hsize⟩, hread⟩
  exact ⟨hbusy, i, lo, hi, hdecode, hrange, hlo, hhi, hsize, hread⟩

/-- Settles O58: the map lists what each register reads. -/
theorem registerReadsReturnTheirFields : Obligations.RegisterReadsReturnTheirFields := by
  intro s h p hp
  rw [registerContents_eq] at hp
  obtain ⟨r, -, rfl⟩ := List.mem_map.mp hp
  obtain ⟨t, hread, hresponse, ht⟩ := State.serve_read_word h r
  exact ⟨t, hread, congrArg BitVec.toNat hresponse, ht⟩

end Sys2Proof.Proofs
end

section
/-! PROOF. Proofs/Host.lean: whose turn a step is, what a completion leaves to the host, and the host's statements
(30_encoding.md R89; 40_command_cycle.md R103; 60_exceptions.md R233; 70_reset_and_hazards.md R262). -/

namespace Sys2Proof.Machine

open Sys2Proof.Claims

section

variable {s t : State}

/-! ### Whose turn a step is (60_exceptions.md R233) -/

theorem step_of_busy (horder : s.order = []) (hbusy : s.status.busy = true) : step s = s.engineStep := by
  rw [step, State.turn, horder]
  exact if_pos hbusy

theorem step_of_idle (horder : s.order = []) (hidle : s.status.busy = false) : step s = s.hostTurn := by
  rw [step, State.turn, horder]
  exact if_neg (Bool.eq_false_iff.mp hidle)

theorem step_of_engine_turn {rest : List Agent} (horder : s.order = .engine :: rest) (hbusy : s.status.busy = true) :
    step s = State.engineStep { s with order := rest } := by
  rw [step, State.turn, horder]
  exact if_pos hbusy

theorem step_of_host_turn {rest : List Agent} (horder : s.order = .host :: rest) :
    step s = State.hostTurn { s with order := rest } := by
  rw [step, State.turn, horder]

theorem State.hostTurn_of_todo {a : Access} {rest : List Access} (htodo : s.agent.todo = a :: rest) :
    s.hostTurn = State.serve { s with agent := { s.agent with todo := rest } } a := by
  rw [State.hostTurn, htodo]

theorem State.hostTurn_of_stmt {st : Stmt} (htodo : s.agent.todo = []) (hst : s.agent.prog[s.agent.pc]? = some st) :
    s.hostTurn = s.runStmt st := by
  rw [State.hostTurn, htodo, hst]

theorem State.hostTurn_of_end (htodo : s.agent.todo = []) (hend : s.agent.prog.length ≤ s.agent.pc) :
    s.hostTurn = .next s := by
  rw [State.hostTurn, htodo, List.getElem?_eq_none hend]

theorem step_of_stmt {st : Stmt} (horder : s.order = []) (hidle : s.status.busy = false) (htodo : s.agent.todo = [])
    (hst : s.agent.prog[s.agent.pc]? = some st) : step s = s.runStmt st :=
  (step_of_idle horder hidle).trans (State.hostTurn_of_stmt htodo hst)

/-- The state in which the block serves the last pending access of the host, on a turn that leaves an order list. -/
def State.handedOver (s : State) (rest : List Agent) : State :=
  { s with order := rest, agent := { s.agent with todo := [] } }

/-- The host's turn with a CMD write next on the bus issues the word. -/
theorem step_of_cmd_write {w : Word} {rest : List Agent} (h : Serving s) (horder : s.order = .host :: rest)
    (htodo : s.agent.todo = [.write .word (s.params.blockBase + 0x00C) w]) :
    step s = .next ((s.handedOver rest).issue w) := by
  rw [step_of_host_turn horder, State.hostTurn_of_todo (s := { s with order := rest }) htodo]
  exact State.serve_cmd_write (s := s.handedOver rest) h w

/-! ### What a completion leaves (40_command_cycle.md R104, R109) -/

/-- The engine's step changes no more than a command can. -/
theorem State.engineStep_eq_update (h : s.engineStep = .next t) :
    t = { s with
      status := { t.status with cmdLost := s.status.cmdLost }, resultLen := t.resultLen, data := t.data,
      writer := t.writer, reader := t.reader, dmem := t.dmem, draws := t.draws } := by
  cases hdecode : decode s.latch.word with
  | error e =>
    rw [State.engineStep_of_error hdecode] at h
    cases h
    rfl
  | ok i =>
    rw [State.engineStep_of_ok hdecode] at h
    exact (exec_effect h).eq_update

/-- `Completes s t`: the engine's step ends the command in flight in `s` and leaves the host and the bus in `t` as they
were. -/
structure Completes (s t : State) : Prop where
  busy : t.status.busy = false
  done_ne_err : t.status.done ≠ t.status.err
  cmdLost : t.status.cmdLost = s.status.cmdLost
  cmd : t.cmd = s.cmd
  agent : t.agent = s.agent
  order : t.order = s.order
  params : t.params = s.params
  inReset : t.inReset = s.inReset

theorem State.Inv.completes (h : s.Inv) (hbusy : s.status.busy = true) : ∃ t, s.engineStep = .next t ∧ Completes s t := by
  obtain ⟨t, hstep, hidle, hne⟩ := h.engineStep_completes hbusy
  have heq := State.engineStep_eq_update hstep
  exact ⟨t, hstep, hidle, hne, by rw [heq], by rw [heq], by rw [heq], by rw [heq], by rw [heq], by rw [heq]⟩

/-- No command is in flight during reset. -/
theorem State.Inv.serving_of_busy (h : s.Inv) (hordered : s.params.deviceOrdered = true) (hbusy : s.status.busy = true) :
    Serving s :=
  ⟨hordered, Bool.eq_false_iff.mpr fun hreset => by rw [h.reset_idle hreset] at hbusy; cases hbusy⟩

theorem Completes.serving (h : Completes s t) (hs : Serving s) : Serving t :=
  ⟨by rw [h.params]; exact hs.1, h.inReset.trans hs.2⟩

/-- A host whose program has ended only uses up its turns, so a command in flight completes (R262). -/
theorem exists_run_idle {order : List Agent} (horder : s.order = order) (h : s.Inv) (hbusy : s.status.busy = true)
    (htodo : s.agent.todo = []) (hend : s.agent.prog.length ≤ s.agent.pc) :
    ∃ k t, k ≤ order.length + 1 ∧ Host.Core.run Sys2Proof.core k s = .next t ∧ t.status.busy = false := by
  induction order generalizing s with
  | nil =>
    obtain ⟨t, hstep, ht⟩ := h.completes hbusy
    exact ⟨1, t, le_rfl, run_succ_of_step ((step_of_busy horder hbusy).trans hstep) 0, ht.busy⟩
  | cons a rest ih =>
    cases a with
    | engine =>
      obtain ⟨t, hstep, ht⟩ := (h.withOrder rest).completes hbusy
      exact ⟨1, t, by simp, run_succ_of_step ((step_of_engine_turn horder hbusy).trans hstep) 0, ht.busy⟩
    | host =>
      have hstep : step s = .next { s with order := rest } :=
        (step_of_host_turn horder).trans (State.hostTurn_of_end htodo hend)
      obtain ⟨k, t, hk, hrun, ht⟩ := ih rfl (h.withOrder rest) hbusy htodo hend
      exact ⟨k + 1, t, Nat.succ_le_succ hk, (run_succ_of_step hstep k).trans hrun, ht⟩

/-! ### Statements that make accesses (30_encoding.md R89) -/

theorem tableWord_toNat (w : Word) : tableWord 32 w.toNat = w := by
  rw [tableWord, Nat.mod_eq_of_lt w.isLt, BitVec.ofNat_toNat, BitVec.setWidth_eq]

theorem State.runStmt_cmd (h : Serving s) (hidle : s.status.busy = false) {i : Instr} (hi : i.wellFormed = true) :
    s.runStmt (.cmd i) = .next (s.advance.accept (encode i)) := by
  have hassemble : assemble i = some (encode i) := if_pos hi
  rw [State.runStmt, hassemble]
  exact (State.hostWrite_eq (s := s.advance) h.1 h.2 .cmd (encode i)).trans
    (congrArg Host.Outcome.next (State.issue_of_idle (s := s.advance) hidle _))

theorem HostAgent.lookup_gotRegister (h : HostAgent) (r : Reg) (v : Word) :
    (h.gotRegister r.offset v).reads.lookup r = some v := by
  simp [HostAgent.gotRegister, Reg.at?_offset]

/-- The state after a `wait` that finds the block idle. -/
def State.waited (s : State) : State :=
  { s.advance with agent := s.advance.agent.gotRegister Reg.status.offset s.status.word }

theorem State.runStmt_wait (h : Serving s) (hidle : s.status.busy = false) : s.runStmt .wait = .next s.waited := by
  rw [State.runStmt, hidle]
  exact State.serve_read_reg (s := s.advance) h.1 h.2 .status

theorem State.abort_withAgent (s : State) (a : HostAgent) :
    State.abort { s with agent := a } = { s.abort with agent := a } := by
  have hregion : State.abortedRegion { s with agent := a } = s.abortedRegion := rfl
  rw [State.abort, State.abort, hregion]
  cases s.status.busy with
  | false => rfl
  | true => cases s.abortedRegion <;> rfl

/-- A register write leaves the host alone and does not look at it. -/
theorem State.writeReg_withAgent (s : State) (a : HostAgent) (v : Word) (r : Reg) :
    State.writeReg { s with agent := a } v r = { s.writeReg v r with agent := a } := by
  cases r with
  | ctrl =>
    have habort := State.abort_withAgent { s with irqEn := v.getLsbD 0 } a
    rw [State.writeReg, State.writeReg, State.writeCtrl, State.writeCtrl]
    cases v.getLsbD 1 with
    | false => rfl
    | true => exact congrArg State.resetRegisters habort
  | cmd =>
    rw [State.writeReg, State.writeReg, State.issue, State.issue]
    cases s.status.busy <;> rfl
  | _ => rfl

theorem HostAgent.evalWord_var {h : HostAgent} {x n : Nat} (hx : h.vars.lookup x = some (.int n)) (hn : n < 2 ^ 32)
    (place : List Nat) : h.evalWord place (.var x) = BitVec.ofNat 32 n := by
  rw [HostAgent.evalWord, HostAgent.evalInt, HostAgent.eval_var hx]
  exact h.fit_natCast _ hn

/-- 8-bit DMEM reads at `n` offsets from `b`. -/
def State.byteReads (s : State) (b n : Nat) : List Access :=
  (List.range' b n).map fun o => .read .byte (s.dmemAddr o)

theorem State.rmemAccesses_eq_byteReads (s : State) (a n : Nat) : s.rmemAccesses a n = s.byteReads a n := by
  rw [State.byteReads, List.range'_eq_map_range, List.map_map]
  refine List.map_congr_left fun i _ => ?_
  rw [← Int.natCast_add, State.hostAddr_natCast]
  rfl

/-- Each pending read takes a step and gives the host its byte. -/
theorem run_byteReads {b n : Nat} (h : Serving s) (hidle : s.status.busy = false) (horder : s.order = [])
    (htodo : s.agent.todo = s.byteReads b n) (hin : b + n ≤ s.params.dmemSize) :
    ∃ v, Host.Core.run Sys2Proof.core n s =
      .next { s with agent := { s.agent with todo := [], bytes := s.agent.bytes ++ s.region b n, response := v } } := by
  induction n generalizing s b with
  | zero =>
    have htodo' : s.agent.todo = [] := htodo
    have hbytes : s.agent.bytes ++ s.region b 0 = s.agent.bytes := List.append_nil _
    refine ⟨s.agent.response, ?_⟩
    rw [hbytes, ← htodo']
    rfl
  | succ n ih =>
    have htodo' : s.agent.todo = .read .byte (s.dmemAddr b) :: s.byteReads (b + 1) n := by
      rw [htodo, State.byteReads, List.range'_succ]
      rfl
    have hfirst : b + 1 ≤ s.params.dmemSize := by omega
    have hrest : b + 1 + n ≤ s.params.dmemSize := by omega
    have hstep := State.serve_dmem_read (s := { s with agent := { s.agent with todo := s.byteReads (b + 1) n } })
      h hidle (w := .byte) (a := b) (Nat.mod_one b) hfirst
    obtain ⟨v, hrun⟩ := ih (s := { s with
      agent := HostAgent.gotBytes { s.agent with todo := s.byteReads (b + 1) n } (s.region b 1) }) h hidle horder rfl hrest
    refine ⟨v, ?_⟩
    rw [run_succ_of_step ((step_of_idle horder hidle).trans ((State.hostTurn_of_todo htodo').trans hstep))]
    refine hrun.trans ?_
    rw [Nat.add_comm n 1, State.region_add, ← List.append_assoc]
    rfl

/-! ### Control statements (30_encoding.md R89) -/

theorem State.runStmt_of_jumpsTo {st : Stmt} {name : Nat} (h : jumpsTo s.agent st = some name) :
    s.runStmt st = .next (s.jump name) := by
  have hbranch {v w : Value} {m : Nat} (hm : (if v = w then some m else none) = some name) :
      s.branch v w m = s.jump name := by
    rw [State.branch]
    split_ifs at hm ⊢
    cases hm
    rfl
  cases st with
  | goto m => cases h; rfl
  | ifReg | ifField | ifVar => exact congrArg Host.Outcome.next (hbranch h)
  | _ => cases h

theorem State.runStmt_of_not_jumpsTo {st : Stmt} (hcontrol : isControl st = true) (hassign : ∀ x e, st ≠ .assign x e)
    (h : jumpsTo s.agent st = none) : s.runStmt st = .next s.advance := by
  have hbranch {v w : Value} {m : Nat} (hm : (if v = w then some m else none) = none) : s.branch v w m = s.advance := by
    rw [State.branch]
    split_ifs at hm ⊢
    rfl
  cases st with
  | label => rfl
  | goto => cases h
  | assign x e => exact absurd rfl (hassign x e)
  | ifReg | ifField | ifVar => exact congrArg Host.Outcome.next (hbranch h)
  | _ => cases hcontrol

theorem lookup_set_same (vars : List (Nat × Value)) (x : Nat) (v : Value) :
    ((x, v) :: vars.filter (fun e => e.1 ≠ x)).lookup x = some v :=
  List.lookup_cons_self

theorem lookup_set_other (vars : List (Nat × Value)) {x y : Nat} (v : Value) (h : y ≠ x) :
    ((x, v) :: vars.filter (fun e => e.1 ≠ x)).lookup y = vars.lookup y := by
  have hne : (y == x) = false := beq_false_of_ne h
  rw [List.lookup_cons, hne]
  induction vars with
  | nil => rfl
  | cons e vars ih =>
    obtain ⟨z, w⟩ := e
    by_cases hz : z = x
    · subst hz
      simpa [List.lookup_cons, hne] using ih
    · simp only [List.filter_cons, ne_eq, hz, not_false_eq_true, decide_true, if_true, List.lookup_cons]
      split
      · rfl
      · exact ih

end

end Sys2Proof.Machine

namespace Sys2Proof.Proofs

open Sys2Proof Sys2Proof.Machine Sys2Proof.Claims

/-- Settles O20: the order list says whose turn it is. -/
theorem stepRunsTheDecodedCommand : Obligations.StepRunsTheDecodedCommand := fun _ _ hdecode hbusy =>
  ⟨fun horder => (step_of_busy horder hbusy).trans (State.engineStep_of_ok hdecode),
    fun _ horder => (step_of_engine_turn horder hbusy).trans (State.engineStep_of_ok hdecode),
    fun _ horder => step_of_host_turn horder⟩

/-- Settles O21: the placed word is the command's, and decoding it gives the command back. -/
theorem placedWordRunsNext : Obligations.PlacedWordRunsNext := by
  intro s i
  have hword : (s.withFetchWord 32 (encode i).toNat).latch.word = encode i := tableWord_toNat _
  refine ⟨(step_of_busy rfl rfl).trans (State.engineStep_of_ok ?_), hword⟩
  rw [hword]
  exact decode_encode i

/-- Settles O22: before the completion the write finds the block busy, after it idle. -/
theorem cmdWriteFallsBeforeOrAfterCompletion : Obligations.CmdWriteFallsBeforeOrAfterCompletion := by
  intro s w rest h hordered hbusy htodo
  have hserving := h.serving_of_busy hordered hbusy
  refine ⟨fun horder => ?_, fun horder => ?_⟩
  · have hstep := step_of_cmd_write hserving horder htodo
    rw [State.issue_of_busy (s := s.handedOver rest) hbusy] at hstep
    exact ⟨_, hstep, rfl, rfl, hbusy, rfl⟩
  · obtain ⟨t, hstep, ht⟩ := (h.withOrder (.host :: rest)).completes hbusy
    have htodo' : t.agent.todo = [.write .word (t.params.blockBase + 0x00C) w] := by rw [ht.agent, ht.params]; exact htodo
    have hstep' := step_of_cmd_write (ht.serving hserving) ht.order htodo'
    rw [State.issue_of_idle (s := t.handedOver rest) ht.busy] at hstep'
    exact ⟨t, _, (step_of_engine_turn horder hbusy).trans hstep, ht.busy, hstep', rfl, rfl, rfl, ht.cmdLost⟩

/-- Settles O23: by induction on the order list. -/
theorem acceptedCommandsComplete : Obligations.AcceptedCommandsComplete := fun _ h hbusy htodo hend =>
  exists_run_idle rfl h hbusy htodo hend

/-- Settles O30. -/
theorem nopOnlyCompletes : Obligations.NopOnlyCompletes := fun _ => rfl

/-- Settles O54: the first step accepts the command, the second completes it, the third reads STATUS. -/
theorem commandThenWaitCompletes : Obligations.CommandThenWaitCompletes := by
  intro s i h hserving hidle horder htodo hcmd hwait hi
  have hissue : step s = .next (s.advance.accept (encode i)) :=
    (step_of_stmt horder hidle htodo hcmd).trans (State.runStmt_cmd hserving hidle hi)
  have hrun : step (s.advance.accept (encode i)) = State.engineStep _ := step_of_busy horder rfl
  obtain ⟨t, hstep, ht⟩ := (h.step hissue).completes rfl
  have hread : step t = .next t.waited := by
    rw [← State.runStmt_wait (ht.serving hserving) ht.busy]
    exact step_of_stmt (ht.order.trans horder) ht.busy (by rw [ht.agent]; exact htodo) (by rw [ht.agent]; exact hwait)
  refine ⟨t.waited, ?_, ht.cmd, ht.busy, ht.done_ne_err, ?_, ?_, HostAgent.lookup_gotRegister t.advance.agent .status _⟩
  · rw [run_succ_of_step hissue, run_succ_of_step (hrun.trans hstep), run_succ_of_step hread]
    rfl
  · exact congrArg (fun a : HostAgent => a.pc + 1) ht.agent
  · exact (congrArg HostAgent.todo ht.agent).trans htodo

/-- Settles O55: one step issues the reads, and each read is a step. -/
theorem rmemReturnsTheRegion : Obligations.RmemReturnsTheRegion := by
  intro s a n h hidle horder htodo hst hin
  have hissue : step s = .next { s.advance with
      agent := { s.advance.agent with todo := s.byteReads a n, bytes := [] } } := by
    rw [step_of_stmt horder hidle htodo hst, ← State.rmemAccesses_eq_byteReads]
    rfl
  obtain ⟨v, hrun⟩ := run_byteReads (s := { s.advance with
      agent := { s.advance.agent with todo := s.byteReads a n, bytes := [] } }) h hidle horder rfl hin
  refine ⟨_, (run_succ_of_step hissue n).trans hrun, rfl, rfl, rfl, ?_⟩
  rw [← htodo]
  rfl

/-- Settles O56: a control statement jumps, assigns or goes on. -/
theorem hostControlStatementsMakeNoAccess : Obligations.HostControlStatementsMakeNoAccess := by
  intro s st hidle horder htodo hst hcontrol
  rw [step_of_stmt horder hidle htodo hst]
  by_cases hassign : ∃ x e, st = .assign x e
  · obtain ⟨x, e, rfl⟩ := hassign
    refine ⟨_, rfl, rfl, fun hne => absurd rfl (hne x e), fun x' e' heq => ?_, fun _ => rfl, fun name k hjump => ?_⟩
    · cases heq
      exact ⟨lookup_set_same .., fun y hy => lookup_set_other _ _ hy⟩
    · cases hjump
  · push Not at hassign
    cases hjump : jumpsTo s.agent st with
    | none =>
      exact ⟨_, State.runStmt_of_not_jumpsTo hcontrol hassign hjump, rfl, fun _ => rfl,
        fun x e heq => absurd heq (hassign x e), fun _ => rfl, fun name k hsome => by cases hsome⟩
    | some name =>
      refine ⟨_, State.runStmt_of_jumpsTo hjump, rfl, fun _ => rfl, fun x e heq => absurd heq (hassign x e),
        fun hnone => (by cases hnone), fun name' k hsome hk => ?_⟩
      cases hsome
      exact HostAgent.jumpTarget_after_label hk

/-- Settles O57: the variable's value fits the bus. -/
theorem wrWritesTheHostValue : Obligations.WrWritesTheHostValue := by
  intro s r x n h hidle horder htodo hst hx hn
  have hstep : step s = .next (s.advance.writeReg (BitVec.ofNat 32 n) r) := by
    rw [step_of_stmt horder hidle htodo hst, State.runStmt, HostAgent.evalWord_var hx hn]
    exact State.hostWrite_eq (s := s.advance) h.1 h.2 r _
  refine ⟨_, hstep, ?_⟩
  rw [State.advance, State.writeReg_withAgent]

end Sys2Proof.Proofs
end
